-- ==== Sys2Proof/Word.lean ====
section
/-! DEFINITION. The word types of the GF(2) matrix-multiply unit and the plainest arithmetic on counts
(spec/00_scope.md R15, R16). -/

namespace Sys2Proof

/-- A packed word: 64 consecutive bits of one matrix row, bit 0 the least significant (R16, R20). -/
abbrev Word := BitVec 64

/-- A command word, as written to CMD (R120). -/
abbrev CmdWord := BitVec 32

/-- The number of a matrix slot, 0 to 15 (R41, R121). -/
abbrev SlotNo := Fin 16

/-- `ceil_div(a, b)` on naturals (R15). -/
def ceilDiv (a b : Nat) : Nat := (a + b - 1) / b

/-- Words per row of a matrix with `cols` columns (R42). -/
def wordsPerRow (cols : Nat) : Nat := ceilDiv cols 64

end Sys2Proof
end

