-- ==== Sys2Proof/Machine/Bits.lean ====
section
/-! DEFINITION. The word and bit operations of spec/00_scope.md R16, R18 and R19. -/

namespace Sys2Proof.Machine

/-- `onehot(b)`, the word with bit `b` set (R16). -/
def onehot (b : Nat) : Word := 1#64 <<< b

/-- `popcount(w)`, the number of 1 bits of `w` (R16). -/
def popcount (w : Word) : Nat := (List.range 64).countP fun b => w.getLsbD b

/-- `parity(w) = popcount(w) % 2` (R16). -/
def parity (w : Word) : Bool := popcount w % 2 == 1

/-- `zext_64` of a bit (R15). -/
def zextBit (b : Bool) : Word := if b then 1 else 0

/-- `XOR over t in [0, n) of f(t)`, on bits (R19). -/
def xorBits (n : Nat) (f : Nat → Bool) : Bool :=
  (List.range n).foldl (fun x t => x ^^ f t) false

/-- `XOR over t in [0, n) of f(t)`, on words (R19). -/
def xorWords (n : Nat) (f : Nat → Word) : Word :=
  (List.range n).foldl (fun x t => x ^^^ f t) 0

/-- The word whose bit `b` is `f b` for `b < 64`. -/
def packBits (f : Nat → Bool) : Word :=
  (List.range 64).foldl (fun w b => if f b then w ||| onehot b else w) 0

/-- The word with its low `n` bits set, for `n < 64`. -/
def lowMask (n : Nat) : Word := BitVec.ofNat 64 (2 ^ n - 1)

/-- The low `n` bits of `w` and the other bits of `d`, for `n < 64`. -/
def mergeHigh (n : Nat) (w d : Word) : Word := (w &&& lowMask n) ||| (d &&& ~~~lowMask n)

end Sys2Proof.Machine
end

