-- ==== Sys2Proof/Config.lean ====
section
/-! DEFINITION. What an implementation fixes (spec/00_scope.md R13) and the free values of the
environment (R12). The OPEN parameters are a record, held in State, so that every statement is about
every configuration. The free values are opaque: nothing can be proved of the value of any of them. -/

namespace Sys2Proof

/-- `SIMD_L`, the number of 64-bit lanes of a SIMD step: 2, 4 or 8 (R13, D26). -/
inductive SimdLanes where
  | two
  | four
  | eight
deriving DecidableEq, Repr

/-- The number of lanes. -/
def SimdLanes.count : SimdLanes → Nat
  | .two => 2
  | .four => 4
  | .eight => 8

/-- The OPEN parameters of R13: fixed by reset and constant until the next reset (R372). -/
structure Config where
  /-- `MAXDIM`, the largest legal rows or cols. -/
  maxDim : Nat
  /-- `HOSTMEM_WORDS`, the capacity of the matrix store. -/
  hostMemWords : Nat
  /-- `DEVMEM_WORDS`, the capacity of device memory. -/
  devMemWords : Nat
  /-- `SIMD_L`. -/
  simdL : SimdLanes
  /-- `CAP_SIMD`. -/
  capSimd : Bool
  /-- `CAP_DEV`. -/
  capDev : Bool
  /-- `CAP_PIPE_VEC`. -/
  capPipeVec : Bool
  /-- `CAP_PIPE_TILED`. -/
  capPipeTiled : Bool
  /-- `CAP_PIPE_M4R_BUILD`. -/
  capPipeM4rBuild : Bool
  /-- `CAP_PIPE_M4R_MUL`. -/
  capPipeM4rMul : Bool
  /-- `DEVICE_FAULTS`, whether a dispatch may fail. -/
  deviceFaults : Bool
deriving DecidableEq, Repr

namespace Config

/-- `NSLOT` (R13, D8). -/
abbrev nSlot : Nat := 16

/-- `K`, the M4R chunk width in bits (R13). -/
abbrev m4rK : Nat := 8

/-- `TILE_W`, the tile width of MULT (R13, D19). -/
abbrev tileW : Nat := 32

/-- `GROUP_W`, the work-group side of MULVG and both MUL4R phases (R13, D20). -/
abbrev groupW : Nat := 16

/-- DESIGN CHOICE (unsafe; log 2). The configuration `State.reset` starts with. The spec leaves these
parameters OPEN; this is the "full" configuration of spec/95_test_vectors.md, with capacities large
enough for its vectors. -/
def full : Config where
  maxDim := 2 ^ 32 - 1
  hostMemWords := 2 ^ 32
  devMemWords := 2 ^ 32
  simdL := .four
  capSimd := true
  capDev := true
  capPipeVec := true
  capPipeTiled := true
  capPipeM4rBuild := true
  capPipeM4rMul := true
  deviceFaults := false

/-- FREE VALUE (safe; log 3). The answer of the environment to its `n`-th draw, `draw64()` of R18:
any 64-bit word. -/
opaque draw64 (n : Nat) : Word

/-- FREE VALUE (safe; log 4). The device-fault oracle of R209: whether the environment fails
dispatch number `n`. Consulted only when `deviceFaults` holds. -/
opaque dispatchFails (n : Nat) : Bool

/-- FREE VALUE (safe; log 5). What word `q` of buffer number `buf` held when it was acquired for
dispatch number `n` (R48: "unspecified until written"). -/
opaque staleWord (n buf q : Nat) : Word

/-- FREE VALUE (safe; log 5). What cell `i` of shared tile `tile` of work-group `group` held at the
start of dispatch number `n` (R51: "Their contents at dispatch start are unspecified"). -/
opaque staleCell (n group tile i : Nat) : Bool

/-- FREE VALUE (safe; log 9). What a host program reads from its own name `x` that it has never set
(R128 does not say). -/
opaque unsetName (x : Nat) : Word

end Config

end Sys2Proof
end

