-- ==== Sys2Proof/Syntax.lean ====
section
/-! DEFINITION. The commands of the unit: one constructor per row of spec/opcode_table.json
(spec/30_encoding.md R122, R123), operands in field order RD, RA, RB. The scalar operands a0, a1, a2 are
not in the command word (R121). -/

namespace Sys2Proof

/-- A command with its slot operands (R121, R122). -/
inductive Instr where
  /-- MALLOC rd (R153). -/
  | malloc (rd : SlotNo)
  /-- MFREE rd (R154). -/
  | mfree (rd : SlotNo)
  /-- MGET ra (R155). -/
  | mget (ra : SlotNo)
  /-- MSET rd (R156). -/
  | mset (rd : SlotNo)
  /-- MRAND rd (R157). -/
  | mrand (rd : SlotNo)
  /-- MTRANS rd, ra (R159). -/
  | mtrans (rd ra : SlotNo)
  /-- MEQ ra, rb (R160). -/
  | meq (ra rb : SlotNo)
  /-- MRDW ra (R161). -/
  | mrdw (ra : SlotNo)
  /-- MWRW rd (R162). -/
  | mwrw (rd : SlotNo)
  /-- MDIM ra (R163). -/
  | mdim (ra : SlotNo)
  /-- MULS rd, ra, rb (R230). -/
  | muls (rd ra rb : SlotNo)
  /-- MULV rd, ra, rb (R242). -/
  | mulv (rd ra rb : SlotNo)
  /-- MULVG rd, ra, rb (R244). -/
  | mulvg (rd ra rb : SlotNo)
  /-- MULT rd, ra, rb (R260). -/
  | mult (rd ra rb : SlotNo)
  /-- MUL4R rd, ra, rb (R280). -/
  | mul4r (rd ra rb : SlotNo)
deriving DecidableEq, Repr

end Sys2Proof
end

