-- ==== Sys2Proof/Machine/State.lean ====
section
/-! DEFINITION. The state of the unit, of its device and of its host, as plain data, and the state after
reset (spec/10_state.md R30 to R57). -/

namespace Sys2Proof.Machine

/-- A BitMatrix: the contents of a valid slot (R41). Word `q` of `data` is data[q]; bit (r, c) is bit
`c % 64` of word `r * wpr + c / 64` (R43). -/
structure BitMatrix where
  rows : Nat
  cols : Nat
  wpr : Nat
  data : List Word
deriving DecidableEq, Repr

/-- The matrix store (R41): 16 slots, `none` for a slot that is not valid. -/
abbrev Memory := Vector (Option BitMatrix) 16

/-! ### The device -/

/-- The fixed kernels, one per dispatch (R12): MULVG (R245), MULT (R262), MUL4R phase 1 (R284) and
phase 2 (R290). -/
inductive Kernel where
  | vec
  | tiled
  | m4rBuild
  | m4rMul
deriving DecidableEq, Repr

/-- The device buffers (R48). -/
inductive Buf where
  | a
  | b
  | bt
  | c
  | t
deriving DecidableEq, Repr

/-- The dispatch descriptor (R49). -/
structure Descriptor where
  aRows : Nat
  aCols : Nat
  aWpr : Nat
  bRows : Nat
  bCols : Nat
  bWpr : Nat
  cRows : Nat
  cCols : Nat
  cWpr : Nat
deriving DecidableEq, Repr

/-- Where a work-item stands in its kernel, with the private registers that are live there (R52). A
register nothing has written does not exist at that site, so no kernel can read one (R353; log 14). -/
inductive Pos where
  /-- MULVG V0 (R245). -/
  | v0
  /-- MULVG V2, loop head. -/
  | v2 (word : Word) (b : Nat)
  /-- MULVG V2, the loop over t. -/
  | v2Dot (word : Word) (b : Nat) (acc : Word) (t : Nat)
  /-- MULVG V3. -/
  | v3 (word : Word)
  /-- MULT T0 (R262). -/
  | t0
  /-- MULT T1, loop head. -/
  | t1 (sum : Bool) (s : Nat)
  /-- MULT T2. -/
  | t2 (sum : Bool) (s : Nat)
  /-- MULT T3. -/
  | t3 (sum : Bool) (s : Nat)
  /-- MULT T4, about to execute the barrier. -/
  | t4 (sum : Bool) (s : Nat)
  /-- MULT T4, waiting at the barrier instance `gen`. -/
  | t4Wait (sum : Bool) (s gen : Nat)
  /-- MULT T5, the loop over t. -/
  | t5 (sum : Bool) (s t : Nat)
  /-- MULT T6, about to execute the barrier. -/
  | t6 (sum : Bool) (s : Nat)
  /-- MULT T6, waiting at the barrier instance `gen`. -/
  | t6Wait (sum : Bool) (s gen : Nat)
  /-- MULT T7. -/
  | t7 (sum : Bool)
  /-- MUL4R phase 1, P0 (R284). -/
  | p0
  /-- MUL4R phase 1, P1. -/
  | p1
  /-- MUL4R phase 1, P2. -/
  | p2 (i : Nat)
  /-- MUL4R phase 1, P3: popcount `p`, next key `key`. -/
  | p3 (p key : Nat)
  /-- MUL4R phase 2, Q0 (R290). -/
  | q0
  /-- MUL4R phase 2, Q2, loop head. -/
  | q2 (acc : Word) (a : Nat)
  /-- MUL4R phase 2, Q2, the loop over c. -/
  | q2Chunk (acc : Word) (a : Nat) (x : Word) (c : Nat)
  /-- MUL4R phase 2, Q3. -/
  | q3 (acc : Word)
  /-- The kernel is finished (V4, T7, P4, Q4). -/
  | done
deriving DecidableEq, Repr

/-- A work-item: local id and position (R52). Its group id is its group's. -/
structure WorkItem where
  lx : Nat
  ly : Nat
  pos : Pos
deriving DecidableEq, Repr

/-- A work-group: its id, its work-items, its shared tiles (R51; cell [y][x] is entry
`y * TILE_W + x`) and its barrier counter and generation (R53). -/
structure Group where
  gx : Nat
  gy : Nat
  items : List WorkItem
  ta : List Bool
  tb : List Bool
  waiting : Nat
  generation : Nat
deriving DecidableEq, Repr

/-- The device during one GPU command (R48 to R53): its buffers (a buffer the command does not use has
no words), the descriptor, the kernel and work-groups of the dispatch in progress, that dispatch's
number, and the slot the result goes to. -/
structure Device where
  desc : Descriptor
  dest : SlotNo
  bufA : List Word
  bufB : List Word
  bufBT : List Word
  bufC : List Word
  bufT : List Word
  kernel : Kernel
  groups : List Group
  dispatchNo : Nat
deriving DecidableEq, Repr

/-! ### The host -/

/-- The registers of the host register block (R30). -/
inductive HostReg where
  | cmd
  | arg0
  | arg1
  | arg2
  | result
  | status
  | caps
deriving DecidableEq, Repr

/-- A value in a host statement: a number, or the current value of a host-side name (R128). Names are
numbered. -/
inductive HostValue where
  | lit (v : Word)
  | name (x : Nat)
deriving DecidableEq, Repr

/-- A statement of a host program (R128). Labels are numbered. -/
inductive HostStmt where
  /-- `WR <reg>, <value>`. -/
  | wr (r : HostReg) (v : HostValue)
  /-- `RD <name>, <reg>`. -/
  | rd (x : Nat) (r : HostReg)
  /-- `WAIT`. -/
  | wait
  /-- A command mnemonic with operands: a write of its word to CMD. -/
  | command (i : Instr)
  /-- `SET <name>, <value>`. -/
  | set (x : Nat) (v : HostValue)
  /-- `ADD <name>, <value>`. -/
  | add (x : Nat) (v : HostValue)
  /-- `<label>:`. -/
  | label (l : Nat)
  /-- `JMP <label>`. -/
  | jmp (l : Nat)
  /-- `JEQ <name>[hi:lo], <value>, <label>`. -/
  | jeq (x hi lo : Nat) (v : HostValue) (l : Nat)
  /-- `JNE <name>[hi:lo], <value>, <label>`. -/
  | jne (x hi lo : Nat) (v : HostValue) (l : Nat)
  /-- `STOP`. -/
  | stop
deriving DecidableEq, Repr

/-- The host agent (R8): its program, the index of its next statement, and its names with their
values. -/
structure HostAgent where
  program : List HostStmt
  position : Nat
  names : List (Nat × Word)
deriving DecidableEq, Repr

/-- A 64-bit access to the register block at a byte offset (R30, R40). -/
inductive HostAccess where
  | read (offset : Nat)
  | write (offset : Nat) (value : Word)
deriving DecidableEq, Repr

/-- A move of one agent (R8 to R12). Which agent moves next is data of the state (log 8). -/
inductive Turn where
  /-- Some host makes one register access (R8, R103). -/
  | access (a : HostAccess)
  /-- The host agent executes the next statement of its program (R128). -/
  | host
  /-- The reset input is asserted, and the new configuration is `c` (R370, R372). -/
  | reset (c : Config)
  /-- The CP executes the latched command to its completion in one step (R9, R215). -/
  | command
  /-- The CP starts the latched command; a GPU command enters its device phase (R208, R215). -/
  | launch
  /-- Work-item `n` of group `g` makes one step of its kernel (R10, R214). -/
  | workItem (g n : Nat)
  /-- The barrier of group `g` releases its work-items, where they all wait at it (R97). -/
  | barrier (g : Nat)
  /-- The CP goes on after a completed dispatch: second dispatch, or download and completion (R93). -/
  | proceed
  /-- The environment fails the dispatch in progress (R209). -/
  | deviceFail
deriving DecidableEq, Repr

/-! ### The state -/

/-- The state of the machine. -/
structure State where
  /-- The configuration of R13, read through CAPS (R38). -/
  config : Config
  /-- ARG0 (R32). -/
  arg0 : Word
  /-- ARG1 (R32). -/
  arg1 : Word
  /-- ARG2 (R32). -/
  arg2 : Word
  /-- RESULT (R33). -/
  result : Word
  /-- STATUS.BUSY: a command is in flight (R34, R35). -/
  busy : Bool
  /-- STATUS.ERR (R34, R36). -/
  err : Bool
  /-- STATUS.OVR, sticky (R34, R37). -/
  ovr : Bool
  /-- STATUS.ERRCODE (R34, R36). -/
  errCode : BitVec 8
  /-- The latched command word (R31), meaningful while BUSY = 1. -/
  cmd : CmdWord
  /-- The latched operand a0 (R31). -/
  a0 : Word
  /-- The latched operand a1 (R31). -/
  a1 : Word
  /-- The latched operand a2 (R31). -/
  a2 : Word
  /-- The matrix store (R41). -/
  slots : Memory
  /-- The temporary Transpose(B) of the command in its device phase (R207, R240). -/
  temp : Option BitMatrix
  /-- The device, present only during the device phase of a GPU command (R48). -/
  device : Option Device
  /-- The host agent (R8). -/
  host : HostAgent
  /-- The value answered to the last host read (R103). The model's own field. -/
  lastRead : Word
  /-- The moves still to come, oldest first (log 8). The model's own field. -/
  turns : List Turn
  /-- How many draws the environment has answered (log 3). The model's own field. -/
  draws : Nat
  /-- How many dispatches have begun (log 4). The model's own field. -/
  dispatches : Nat
deriving DecidableEq, Repr

/-- Why the model stops. A stuck work-group is no fault (R97, U15): it has no step, and its dispatch does
not complete. No command of the unit reaches one from a state the unit reaches (R353). -/
inductive Fault where
  /-- A work-item accesses a device word outside its buffer (R85, R353, U14). Raised by the turn
  `workItem`. Safe: the spec makes it a fault. -/
  | deviceOutOfRange
  /-- A host program jumps to a label it does not have (R128 gives no meaning). Raised by the turn
  `host`. Safe. -/
  | noSuchLabel
deriving DecidableEq, Repr

/-- Why the model has no meaning for a command. -/
inductive Refusal where
  /-- The command of this mnemonic is not modelled yet. Raised by `exec` only. Safe. -/
  | notModelled (mnemonic : String)
deriving DecidableEq, Repr

/-- The state after a reset that fixes the configuration `c` (R57, R370, R371). The latches are
meaningless while BUSY = 0; 0 there is a DESIGN CHOICE (log 11), as are the values of the model's own
fields. -/
def State.resetWith (c : Config) : State where
  config := c
  arg0 := 0
  arg1 := 0
  arg2 := 0
  result := 0
  busy := false
  err := false
  ovr := false
  errCode := 0
  cmd := 0
  a0 := 0
  a1 := 0
  a2 := 0
  slots := Vector.replicate 16 none
  temp := none
  device := none
  host := { program := [], position := 0, names := [] }
  lastRead := 0
  turns := []
  draws := 0
  dispatches := 0

/-- The machine right after power-on reset (R57), with the configuration of log 2. -/
def State.reset : State := State.resetWith Config.full

end Sys2Proof.Machine
end

