-- ==== Sys2Proof/Machine/Flags.lean ====
section
/-! DEFINITION. The unit has no flags beyond STATUS (spec/10_state.md R55). This file holds the error codes
(spec/60_exceptions.md R331) and the words that STATUS (R34) and CAPS (R38) read as. -/

namespace Sys2Proof.Machine

/-- The errors a command can end with (R331). -/
inductive CmdError where
  | shapeMismatch
  | backendUnavailable
  | deviceFault
  | illegalCommand
  | invalidSlot
  | aliasedOperands
  | resourceExhausted
deriving DecidableEq, Repr

/-- The code of an error in STATUS.ERRCODE (R331). -/
def errorCode : CmdError → BitVec 8
  | .shapeMismatch => 1
  | .backendUnavailable => 2
  | .deviceFault => 3
  | .illegalCommand => 4
  | .invalidSlot => 5
  | .aliasedOperands => 6
  | .resourceExhausted => 7

/-- A bit placed at bit `lo` of a 64-bit register. -/
def flagAt (b : Bool) (lo : Nat) : Word := if b then 1#64 <<< lo else 0

/-- The 64-bit value of STATUS: BUSY bit 0, ERR bit 1, OVR bit 2, ERRCODE bits 15:8, every other bit
0 (R34). -/
def statusWord (s : State) : Word :=
  flagAt s.busy 0 ||| flagAt s.err 1 ||| flagAt s.ovr 2 ||| (s.errCode.setWidth 64 <<< 8)

/-- The 64-bit value of CAPS for a configuration (R38). -/
def capsWord (c : Config) : Word :=
  flagAt c.capSimd 0 ||| flagAt c.capDev 1 ||| flagAt c.capPipeVec 2 ||| flagAt c.capPipeTiled 3 |||
    flagAt c.capPipeM4rBuild 4 ||| flagAt c.capPipeM4rMul 5 |||
    (BitVec.ofNat 64 c.simdL.count <<< 8) ||| (BitVec.ofNat 64 Config.tileW <<< 16) |||
    (BitVec.ofNat 64 Config.m4rK <<< 24) ||| (BitVec.ofNat 64 Config.groupW <<< 32) |||
    (BitVec.ofNat 64 Config.nSlot <<< 40)

end Sys2Proof.Machine
end

