-- ==== Sys2Proof/Machine/Ops.lean ====
section
/-! DEFINITION. The named operations every command is written with: a BitMatrix's bits and words
(spec/40_bitmatrix.md R150 to R152, R158), the slots of the matrix store and their usage
(spec/10_state.md R41 to R47), draws of the environment (spec/00_scope.md R12), and the completion of a
command, successful or failed (spec/10_state.md R36, spec/60_exceptions.md R330). -/

namespace Sys2Proof.Machine

/-! ### A BitMatrix -/

/-- How many words the data of a matrix has (R41). -/
def BitMatrix.words (x : BitMatrix) : Nat := x.rows * x.wpr

/-- `MemRead(x, q, 8)`: word `q` of the data (R18). Every caller keeps `q` within the data. -/
def BitMatrix.memRead (x : BitMatrix) (q : Nat) : Word := x.data.getD q 0

/-- `MemWrite(x, q, 8, v)` (R18). -/
def BitMatrix.memWrite (x : BitMatrix) (q : Nat) (v : Word) : BitMatrix :=
  { x with data := x.data.set q v }

/-- `Get(X, r, c)` (R150). -/
def BitMatrix.get (x : BitMatrix) (r c : Nat) : Bool :=
  if x.rows ≤ r ∨ x.cols ≤ c then false
  else (x.memRead (r * x.wpr + c / 64)).getLsbD (c % 64)

/-- `Set(X, r, c, v)` (R151). -/
def BitMatrix.set (x : BitMatrix) (r c : Nat) (v : Bool) : BitMatrix :=
  if x.rows ≤ r ∨ x.cols ≤ c then x
  else
    let q := r * x.wpr + c / 64
    let w := x.memRead q
    x.memWrite q (if v then w ||| onehot (c % 64) else w &&& ~~~onehot (c % 64))

/-- The zero-filled matrix of a shape (R152). -/
def zeroMatrix (rows cols : Nat) : BitMatrix where
  rows := rows
  cols := cols
  wpr := wordsPerRow cols
  data := List.replicate (rows * wordsPerRow cols) 0

/-- `Set(x, i, j, f i j)` for `i` in `0 .. m - 1` and `j` in `0 .. n - 1`, in that order: the double
loop of R230 and R242. -/
def fillBits (m n : Nat) (f : Nat → Nat → Bool) (x : BitMatrix) : BitMatrix :=
  (List.range m).foldl
    (fun y i => (List.range n).foldl (fun z j => z.set i j (f i j)) y) x

/-- `Transpose(X)` (R158). -/
def transpose (x : BitMatrix) : BitMatrix :=
  (List.range x.rows).foldl
    (fun y r => (List.range x.cols).foldl
      (fun z c => if x.get r c then z.set c r true else z) y)
    (zeroMatrix x.cols x.rows)

/-- Whether two matrices have one shape and equal valid bits (R160). -/
def sameBits (x y : BitMatrix) : Bool :=
  x.rows == y.rows && x.cols == y.cols &&
    (List.range x.rows).all fun r => (List.range x.cols).all fun c => x.get r c == y.get r c

/-- `Prod(A, B)(i, j)` (R19), with k = A.cols. -/
def prodBit (a b : BitMatrix) (i j : Nat) : Bool :=
  xorBits a.cols fun t => a.get i t && b.get t j

/-! ### The matrix store -/

/-- The matrix in slot `i`, or `none` if the slot is not valid (R41). -/
def State.slot (s : State) (i : SlotNo) : Option BitMatrix := s.slots[i.val]

/-- Puts `x` in slot `i`, and touches no other slot (R47). -/
def State.setSlot (s : State) (i : SlotNo) (x : Option BitMatrix) : State :=
  { s with slots := s.slots.set i.val x }

/-- The words slot `i` uses: 0 if it is not valid (R152, R153). -/
def State.slotWords (s : State) (i : SlotNo) : Nat :=
  match s.slot i with
  | some x => x.words
  | none => 0

/-- `Usage()`, the words of all valid slots (R45, R152). -/
def State.usage (s : State) : Nat :=
  (s.slots.toList.map fun o =>
    match o with
    | some x => x.words
    | none => 0).sum

/-! ### Draws -/

/-- `n` words, each a draw of the environment, the first of them draw number `base` (R18, log 3). -/
def drawWords (base n : Nat) : List Word :=
  (List.range n).map fun q => Config.draw64 (base + q)

/-- Row-major words of a `cols`-column matrix with every padding bit replaced by a draw, one draw a
row (R203.3, log 6). A matrix whose columns fill its words has no padding. -/
def drawPadding (base cols : Nat) (data : List Word) : List Word :=
  if cols % 64 = 0 then data
  else
    let wpr := wordsPerRow cols
    data.mapIdx fun q w =>
      if q % wpr = wpr - 1 then mergeHigh (cols % 64) w (Config.draw64 (base + q / wpr)) else w

/-! ### The end of a command -/

/-- The completion of a command with `code`: ERRCODE and ERR are written, BUSY is cleared, and the
temporaries and device buffers the command holds are released (R36, R330). -/
def State.complete (s : State) (code : BitVec 8) : State :=
  { s with busy := false, errCode := code, err := code != 0, temp := none, device := none }

/-- Completion without error (R36). -/
def State.succeed (s : State) : State := s.complete 0

/-- `raise E`: the command ends with the code of `e` (R330). -/
def State.raise (s : State) (e : CmdError) : State := s.complete (errorCode e)

/-- Completion of a query: RESULT holds `v` (R33). -/
def State.answer (s : State) (v : Word) : State := { s with result := v }.succeed

/-- Completion of a command that leaves matrix `x` in slot `i`. -/
def State.finishWith (s : State) (i : SlotNo) (x : BitMatrix) : State :=
  (s.setSlot i (some x)).succeed

/-- `NewMatrix(rows, cols, freed)`: the bound and capacity check, and the zero-filled matrix (R152). -/
def State.newMatrix (s : State) (rows cols freed : Nat) : Except CmdError BitMatrix :=
  if s.config.maxDim < rows ∨ s.config.maxDim < cols then .error .resourceExhausted
  else if s.config.hostMemWords < s.usage - freed + rows * wordsPerRow cols then
    .error .resourceExhausted
  else .ok (zeroMatrix rows cols)

end Sys2Proof.Machine
end

