-- ==== Sys2Proof/Machine/Operands.lean ====
section
/-! DEFINITION. The operand forms of the commands (spec/30_encoding.md R121, R122): a slot that must be
valid, and the latched scalars a0, a1, a2, unsigned and used whole. -/

namespace Sys2Proof.Machine

/-- The scalar a0 as a natural: rows, r or a word index (R121, R122). -/
def State.arg0Nat (s : State) : Nat := s.a0.toNat

/-- The scalar a1 as a natural: cols or c (R121, R122). -/
def State.arg1Nat (s : State) : Nat := s.a1.toNat

/-- MSET's value operand: bit 0 of a2 (R121, R156). -/
def State.argBit (s : State) : Bool := s.a2.getLsbD 0

/-- An operand slot that must be valid: InvalidSlot if it is not (R336). -/
def State.withSlot (s : State) (i : SlotNo) (f : BitMatrix → State) : State :=
  match s.slot i with
  | none => s.raise .invalidSlot
  | some x => f x

/-- A destination slot that receives a new matrix of shape `rows` x `cols`, which `build` makes: the
old matrix of the slot, if any, is destroyed; ResourceExhausted if the new one does not fit, with the
slot unchanged (R152, R153, R159). -/
def State.constructIn (s : State) (rd : SlotNo) (rows cols : Nat)
    (build : BitMatrix → BitMatrix) : State :=
  match s.newMatrix rows cols (s.slotWords rd) with
  | .error e => s.raise e
  | .ok y => s.finishWith rd (build y)

end Sys2Proof.Machine
end

