-- ==== Sys2Proof/Machine/Multiply.lean ====
section
/-! DEFINITION. What the five multiply commands share: the checks before any computation, the
destination and the post-state (spec/41_multiply_common.md R200 to R207). -/

namespace Sys2Proof.Machine

/-- The multiply variants (R1, R200). -/
inductive Variant where
  | muls
  | mulv
  | mulvg
  | mult
  | mul4r
deriving DecidableEq, Repr

/-- `BackendReady(v)` (R206). -/
def backendReady (c : Config) : Variant → Bool
  | .muls => true
  | .mulv => c.capSimd
  | .mulvg => c.capDev && c.capPipeVec
  | .mult => c.capDev && c.capPipeTiled
  | .mul4r => c.capDev && c.capPipeM4rBuild && c.capPipeM4rMul

/-- `tmp(v)`, the words of the command's temporary Transpose(B), which is n x k (R207, R240). -/
def tempWords (v : Variant) (a b : BitMatrix) : Nat :=
  match v with
  | .mulv => b.cols * wordsPerRow a.cols
  | .mulvg => b.cols * wordsPerRow a.cols
  | _ => 0

/-- `need(v)`, the words of the command's device buffers (R207). -/
def deviceWords (v : Variant) (a b : BitMatrix) : Nat :=
  let m := a.rows
  let k := a.cols
  let n := b.cols
  let wprA := wordsPerRow k
  let wprB := wordsPerRow n
  match v with
  | .muls => 0
  | .mulv => 0
  | .mulvg => m * wprA + n * wprA + m * wprB
  | .mult => m * wprA + k * wprB + m * wprB
  | .mul4r => m * wprA + k * wprB + m * wprB + 8 * wprA * 256 * wprB

/-- The words a fresh destination of shape `m` x `n` adds: none if RD is valid (R202, R207). -/
def State.freshWords (s : State) (rd : SlotNo) (m n : Nat) : Nat :=
  match s.slot rd with
  | some _ => 0
  | none => m * wordsPerRow n

/-- `HostFits(v, fresh)` (R207). -/
def State.hostFits (s : State) (v : Variant) (rd : SlotNo) (a b : BitMatrix) : Bool :=
  s.usage + s.freshWords rd a.rows b.cols + tempWords v a b ≤ s.config.hostMemWords

/-- `DevFits(v)` (R207). -/
def State.devFits (s : State) (v : Variant) (a b : BitMatrix) : Bool :=
  deviceWords v a b ≤ s.config.devMemWords

/-- Whether RD may take an `m` x `n` result: it is not valid, or it has that shape (R202). -/
def State.destFits (s : State) (rd : SlotNo) (m n : Nat) : Bool :=
  match s.slot rd with
  | some c => c.rows == m && c.cols == n
  | none => true

/-- The checks of `MulFrontEnd(v)` once both operands are valid, in the order of R201 and R339: the
error of the first that fails. -/
def State.mulChecks (s : State) (v : Variant) (rd ra rb : SlotNo) (a b : BitMatrix) :
    Option CmdError :=
  if a.cols ≠ b.rows then some .shapeMismatch
  else if rd = ra ∨ rd = rb then some .aliasedOperands
  else if !s.destFits rd a.rows b.cols then some .shapeMismatch
  else if !backendReady s.config v then some .backendUnavailable
  else if !s.hostFits v rd a b then some .resourceExhausted
  else if !s.devFits v a b then some .resourceExhausted
  else none

/-- `MulFrontEnd(v)`, and then `f A B`: nothing is computed and no state is changed until every check
has passed (R201). -/
def State.multiply (s : State) (v : Variant) (rd ra rb : SlotNo)
    (f : BitMatrix → BitMatrix → State) : State :=
  s.withSlot ra fun a => s.withSlot rb fun b =>
    match s.mulChecks v rd ra rb a b with
    | some e => s.raise e
    | none => f a b

/-- The matrix the loops of MULS and MULV start from: the valid RD, or a fresh zero-filled matrix
(R202). Its rows and cols are bounded by those of A and B, so NewMatrix's bound on MAXDIM is not
checked again (log 23). -/
def State.destination (s : State) (rd : SlotNo) (m n : Nat) : BitMatrix :=
  (s.slot rd).getD (zeroMatrix m n)

/-- The post-state of a successful multiply: RD holds the `m` x `n` matrix whose valid bits are those
of `data` and whose padding bits are draws; RESULT, A and B are unchanged; ERRCODE is 0 (R203). -/
def State.commitProduct (s : State) (rd : SlotNo) (m n : Nat) (data : List Word) : State :=
  { s with draws := if n % 64 = 0 then s.draws else s.draws + m }.finishWith rd
    { rows := m, cols := n, wpr := wordsPerRow n, data := drawPadding s.draws n data }

end Sys2Proof.Machine
end

