-- ==== Sys2Proof/Machine/Device.lean ====
section
/-! DEFINITION. The device: its buffers and their accesses (spec/10_state.md R48, spec/20_memory.md R86,
R89), the dispatch grid (spec/41_multiply_common.md R213) and the flow of a GPU command
(spec/41_multiply_common.md R208, R209). -/

namespace Sys2Proof.Machine

/-! ### Buffers -/

/-- The words of a buffer (R48). -/
def Device.buf (d : Device) : Buf → List Word
  | .a => d.bufA
  | .b => d.bufB
  | .bt => d.bufBT
  | .c => d.bufC
  | .t => d.bufT

/-- Puts the words of a buffer. -/
def Device.setBuf (d : Device) (x : Buf) (ws : List Word) : Device :=
  match x with
  | .a => { d with bufA := ws }
  | .b => { d with bufB := ws }
  | .bt => { d with bufBT := ws }
  | .c => { d with bufC := ws }
  | .t => { d with bufT := ws }

/-- Whether word `q` exists in buffer `x` (R85). -/
def Device.inRange (d : Device) (x : Buf) (q : Nat) : Bool := q < (d.buf x).length

/-- `DevRead(x, q)` (R18), for `q` in range. -/
def Device.word (d : Device) (x : Buf) (q : Nat) : Word := (d.buf x).getD q 0

/-- `DevWrite(x, q, v)` (R18). -/
def Device.store (d : Device) (x : Buf) (q : Nat) (v : Word) : Device :=
  d.setBuf x ((d.buf x).set q v)

/-- `AtomicOr(x, q, mask)`: one indivisible step; the old value is discarded (R89). -/
def Device.fetchOr (d : Device) (x : Buf) (q : Nat) (mask : Word) : Device :=
  d.store x q (d.word x q ||| mask)

/-- `DevWrite(x, q, f q)` for every word `q` of buffer `x`. -/
def Device.load (d : Device) (x : Buf) (f : Nat → Word) : Device :=
  d.setBuf x ((List.range (d.buf x).length).map f)

/-- All the words of device memory in use (R48). -/
def Device.size (d : Device) : Nat :=
  d.bufA.length + d.bufB.length + d.bufBT.length + d.bufC.length + d.bufT.length

/-! ### The dispatch grid -/

/-- The dispatch descriptor for the operands A and B (R49). -/
def descriptorOf (a b : BitMatrix) : Descriptor where
  aRows := a.rows
  aCols := a.cols
  aWpr := wordsPerRow a.cols
  bRows := a.cols
  bCols := b.cols
  bWpr := wordsPerRow b.cols
  cRows := a.rows
  cCols := b.cols
  cWpr := wordsPerRow b.cols

/-- The side of a kernel's work-groups, GX = GY (R213, R244, R261, R283, R289). -/
def groupSide : Kernel → Nat
  | .tiled => Config.tileW
  | _ => Config.groupW

/-- NGX, the work-groups along x: word columns of C, columns of C, or word columns of the table
(R244, R261, R283, R289). -/
def gridX (k : Kernel) (e : Descriptor) : Nat :=
  match k with
  | .vec => ceilDiv e.cWpr Config.groupW
  | .tiled => ceilDiv e.cCols Config.tileW
  | .m4rBuild => ceilDiv e.bWpr Config.groupW
  | .m4rMul => ceilDiv e.cWpr Config.groupW

/-- NGY, the work-groups along y: rows of C, or tables (R244, R261, R283, R289). -/
def gridY (k : Kernel) (e : Descriptor) : Nat :=
  match k with
  | .vec => ceilDiv e.aRows Config.groupW
  | .tiled => ceilDiv e.aRows Config.tileW
  | .m4rBuild => ceilDiv (8 * e.aWpr) Config.groupW
  | .m4rMul => ceilDiv e.aRows Config.groupW

/-- The first site of a kernel. -/
def startPos : Kernel → Pos
  | .vec => .v0
  | .tiled => .t0
  | .m4rBuild => .p0
  | .m4rMul => .q0

/-- What a shared tile holds at the start of dispatch `n`: MULT only, unspecified (R51, log 5). -/
def staleTile (k : Kernel) (n group tile : Nat) : List Bool :=
  match k with
  | .tiled => (List.range (Config.tileW * Config.tileW)).map (Config.staleCell n group tile)
  | _ => []

/-- Work-group (gx, gy) at the start of dispatch `n` (R52, R53, R213). -/
def startGroup (k : Kernel) (e : Descriptor) (n gx gy : Nat) : Group where
  gx := gx
  gy := gy
  items := (List.range (groupSide k)).flatMap fun ly =>
    (List.range (groupSide k)).map fun lx => { lx := lx, ly := ly, pos := startPos k }
  ta := staleTile k n (gy * gridX k e + gx) 0
  tb := staleTile k n (gy * gridX k e + gx) 1
  waiting := 0
  generation := 0

/-- The work-groups of a dispatch at its start, all of the grid (R213). -/
def startGroups (k : Kernel) (e : Descriptor) (n : Nat) : List Group :=
  (List.range (gridY k e)).flatMap fun gy => (List.range (gridX k e)).map fun gx =>
    startGroup k e n gx gy

/-- Dispatch number `n` of kernel `k` begins (R93, R213). -/
def Device.begin (d : Device) (k : Kernel) (n : Nat) : Device :=
  { d with kernel := k, groups := startGroups k d.desc n, dispatchNo := n }

/-! ### The flow of a GPU command -/

/-- What a buffer of `len` words holds when it is acquired (R48, log 5). -/
def staleWords (n buf len : Nat) : List Word := (List.range len).map (Config.staleWord n buf)

/-- The buffers a GPU command acquires, with the sizes of R208, contents unspecified. `n` numbers the
acquisition. -/
def acquireDevice (k : Kernel) (dest : SlotNo) (e : Descriptor) (n : Nat) : Device where
  desc := e
  dest := dest
  bufA := staleWords n 0 (e.aRows * e.aWpr)
  bufB := match k with
    | .vec => []
    | _ => staleWords n 1 (e.aCols * e.bWpr)
  bufBT := match k with
    | .vec => staleWords n 2 (e.bCols * e.aWpr)
    | _ => []
  bufC := staleWords n 3 (e.aRows * e.cWpr)
  bufT := match k with
    | .m4rBuild => staleWords n 4 (8 * e.aWpr * 256 * e.bWpr)
    | _ => []
  kernel := k
  groups := []
  dispatchNo := n

/-- The upload of A and of B or Transpose(B), and the zeroing of bufC for MULT (R208, R269). -/
def Device.upload (d : Device) (a b : BitMatrix) : Device :=
  match d.kernel with
  | .vec => (d.load .a a.memRead).load .bt (transpose b).memRead
  | .tiled => ((d.load .a a.memRead).load .b b.memRead).load .c fun _ => 0
  | _ => (d.load .a a.memRead).load .b b.memRead

/-- The temporary a command holds during its device phase: Transpose(B) for MULVG (R240). -/
def deviceTemp (k : Kernel) (b : BitMatrix) : Option BitMatrix :=
  match k with
  | .vec => some (transpose b)
  | _ => none

/-- The start of the device phase: acquire, upload, first dispatch (R208). -/
def State.enterDevice (s : State) (k : Kernel) (rd : SlotNo) (a b : BitMatrix) : State :=
  let d := (acquireDevice k rd (descriptorOf a b) s.dispatches).upload a b
  { s with
    temp := deviceTemp k b
    device := some (d.begin k s.dispatches)
    dispatches := s.dispatches + 1 }

/-- The CP goes on after a completed dispatch: MUL4R's second dispatch after its first (R93, R293), or
the download into RD, fresh or in place, the release of the buffers and completion (R203, R208). -/
def State.afterDispatch (s : State) (d : Device) : State :=
  match d.kernel with
  | .m4rBuild =>
    { s with
      device := some (d.begin .m4rMul s.dispatches)
      dispatches := s.dispatches + 1 }
  | _ => s.commitProduct d.dest d.desc.cRows d.desc.cCols d.bufC

/-- A failed dispatch: every data word of a valid RD becomes a draw, an invalid RD stays invalid, and
the command ends with DeviceFault (R209). -/
def State.failDevice (s : State) (d : Device) : State :=
  match s.slot d.dest with
  | none => s.raise .deviceFault
  | some x =>
    ({ s with draws := s.draws + x.words }.setSlot d.dest
      (some { x with data := drawWords s.draws x.words })).raise .deviceFault

/-- Whether the environment fails dispatch `n`: never when DEVICE_FAULTS = 0 (R209, log 4). -/
def dispatchFails (c : Config) (n : Nat) : Bool := c.deviceFaults && Config.dispatchFails n

end Sys2Proof.Machine
end

