-- ==== Sys2Proof/Machine/Kernels.lean ====
section
/-! DEFINITION. What the kernels of MULVG, MULT and MUL4R leave in their buffers, each buffer word as the
work-items that write it compute it (spec/43_vector.md R245, spec/44_tiled.md R262 to R270,
spec/45_m4r.md R284 to R292), and a dispatch run to its end in one step (R215). The same kernels site by
site are in WorkItems.lean. -/

namespace Sys2Proof.Machine

/-! ### MULVG -/

/-- The `acc` of work-item (w, i) of MULVG for output column `j` (R245, V2). -/
def vecAcc (d : Device) (i j : Nat) : Word :=
  xorWords d.desc.aWpr fun t =>
    d.word .a (i * d.desc.aWpr + t) &&& d.word .bt (j * d.desc.aWpr + t)

/-- The word that work-item (w, i) of MULVG stores (R245, V3): bits at j >= n are 0. -/
def vecWord (d : Device) (i w : Nat) : Word :=
  packBits fun b => decide (64 * w + b < d.desc.bCols) && parity (vecAcc d i (64 * w + b))

/-! ### MULT -/

/-- `ABit(r, c)` (R262). -/
def aBit (d : Device) (r c : Nat) : Bool :=
  (d.word .a (r * d.desc.aWpr + c / 64)).getLsbD (c % 64)

/-- `BBit(r, c)` (R262). -/
def bBit (d : Device) (r c : Nat) : Bool :=
  (d.word .b (r * d.desc.bWpr + c / 64)).getLsbD (c % 64)

/-- The bit of A that is loaded for (row, off + x): 0 if out of bounds (R263). -/
def tileBitA (d : Device) (row off x : Nat) : Bool :=
  if row < d.desc.aRows ∧ off + x < d.desc.aCols then aBit d row (off + x) else false

/-- The bit of B that is loaded for (off + y, col): 0 if out of bounds (R264). -/
def tileBitB (d : Device) (off y col : Nat) : Bool :=
  if off + y < d.desc.aCols ∧ col < d.desc.bCols then bBit d (off + y) col else false

/-- The `sum` of the work-item of (row, col) at T7: over the tile steps, and in each over the row of Ta
and the row of Tb that it reads, which hold the bits of R263 and R264 (R266, R270). -/
def tileSum (d : Device) (row col : Nat) : Bool :=
  xorBits (ceilDiv d.desc.aCols Config.tileW) fun s =>
    xorBits Config.tileW fun t =>
      tileBitA d row (s * Config.tileW) t && tileBitB d (s * Config.tileW) t col

/-- Word `w` of row `row` of bufC after the dispatch of MULT: the word before it ORed with the mask of
every work-item that has `sum` 1 and lies within the result (R98, R268, R269). -/
def tiledWord (d : Device) (row w : Nat) : Word :=
  (List.range 64).foldl
    (fun x b =>
      if row < d.desc.aRows ∧ 64 * w + b < d.desc.bCols ∧ tileSum d row (64 * w + b) = true then
        x ||| onehot b
      else x)
    (d.word .c (row * d.desc.cWpr + w))

/-! ### MUL4R -/

/-- `ChunkKey(x, c)` (R282). -/
def chunkKey (x : Word) (c : Nat) : Nat := (x >>> (8 * c) &&& 0xFF).toNat

/-- The index of entry word (t, key, w) in bufT (R50, R281). -/
def tableIndex (e : Descriptor) (t key w : Nat) : Nat := (t * 256 + key) * e.bWpr + w

/-- Entry word (t, key, w) after phase 1, in closed form (R288). -/
def tableEntry (d : Device) (t key w : Nat) : Word :=
  xorWords Config.m4rK fun i =>
    if key.testBit i ∧ 8 * t + i < d.desc.aCols then
      d.word .b ((8 * t + i) * d.desc.bWpr + w)
    else 0

/-- The word that work-item (w, i) of phase 2 stores (R290, Q3): chunks with key 0 are skipped
(R291). -/
def m4rWord (d : Device) (i w : Nat) : Word :=
  xorWords d.desc.aWpr fun a => xorWords 8 fun c =>
    let key := chunkKey (d.word .a (i * d.desc.aWpr + a)) c
    if key = 0 then 0 else d.word .t (tableIndex d.desc (8 * a + c) key w)

/-! ### A whole dispatch -/

/-- The device after every work-item of the dispatch has finished (R94, R215). -/
def Device.runKernel (d : Device) : Device :=
  match d.kernel with
  | .vec => d.load .c fun q => vecWord d (q / d.desc.cWpr) (q % d.desc.cWpr)
  | .tiled => d.load .c fun q => tiledWord d (q / d.desc.cWpr) (q % d.desc.cWpr)
  | .m4rBuild =>
    d.load .t fun q =>
      tableEntry d (q / d.desc.bWpr / 256) (q / d.desc.bWpr % 256) (q % d.desc.bWpr)
  | .m4rMul => d.load .c fun q => m4rWord d (q / d.desc.cWpr) (q % d.desc.cWpr)

/-- The dispatch in progress runs to its end, or the environment fails it (R209), and the CP goes on.
Nothing happens where no dispatch is in progress. -/
def State.runDispatch (s : State) : State :=
  match s.device with
  | none => s
  | some d =>
    if dispatchFails s.config d.dispatchNo then s.failDevice d else s.afterDispatch d.runKernel

/-- A GPU multiply up to its first dispatch (R201, R208). -/
def State.launchMultiply (s : State) (v : Variant) (k : Kernel) (rd ra rb : SlotNo) : State :=
  s.multiply v rd ra rb fun a b => s.enterDevice k rd a b

end Sys2Proof.Machine
end

