-- ==== Sys2Proof/Machine/M4r.lean ====
section
/-! DEFINITION. MUL4R, the Method-of-Four-Russians multiplier (spec/45_m4r.md R280). Its kernels are in
Kernels.lean and, site by site, in WorkItems.lean. -/

namespace Sys2Proof.Machine

/-- MUL4R rd, ra, rb: front end, phase 1, phase 2, download (R280). After a failed phase 1 there is no
dispatch left to run. -/
def execMul4r (rd ra rb : SlotNo) (s : State) : Host.Outcome State Fault Refusal :=
  .next (s.launchMultiply .mul4r .m4rBuild rd ra rb).runDispatch.runDispatch

end Sys2Proof.Machine
end

