-- ==== Sys2Proof/Machine/MatrixStore.lean ====
section
/-! DEFINITION. The BitMatrix commands (spec/40_bitmatrix.md R153 to R163). -/

namespace Sys2Proof.Machine

/-- MALLOC rd (R153). -/
def execMalloc (rd : SlotNo) (s : State) : Host.Outcome State Fault Refusal :=
  .next (s.constructIn rd s.arg0Nat s.arg1Nat id)

/-- MFREE rd (R154). -/
def execMfree (rd : SlotNo) (s : State) : Host.Outcome State Fault Refusal :=
  .next (s.withSlot rd fun _ => (s.setSlot rd none).succeed)

/-- MGET ra (R155). -/
def execMget (ra : SlotNo) (s : State) : Host.Outcome State Fault Refusal :=
  .next (s.withSlot ra fun x => s.answer (zextBit (x.get s.arg0Nat s.arg1Nat)))

/-- MSET rd (R156). -/
def execMset (rd : SlotNo) (s : State) : Host.Outcome State Fault Refusal :=
  .next (s.withSlot rd fun x => s.finishWith rd (x.set s.arg0Nat s.arg1Nat s.argBit))

/-- MRAND rd: every data word, padding included, is a draw (R157). -/
def execMrand (rd : SlotNo) (s : State) : Host.Outcome State Fault Refusal :=
  .next (s.withSlot rd fun x =>
    { s with draws := s.draws + x.words }.finishWith rd
      { x with data := drawWords s.draws x.words })

/-- MTRANS rd, ra: the transpose is computed from the source before the slot is replaced (R159). -/
def execMtrans (rd ra : SlotNo) (s : State) : Host.Outcome State Fault Refusal :=
  .next (s.withSlot ra fun x => s.constructIn rd x.cols x.rows fun _ => transpose x)

/-- MEQ ra, rb (R160). -/
def execMeq (ra rb : SlotNo) (s : State) : Host.Outcome State Fault Refusal :=
  .next (s.withSlot ra fun x => s.withSlot rb fun y => s.answer (zextBit (sameBits x y)))

/-- MRDW ra (R161). -/
def execMrdw (ra : SlotNo) (s : State) : Host.Outcome State Fault Refusal :=
  .next (s.withSlot ra fun x =>
    s.answer (if s.arg0Nat < x.words then x.memRead s.arg0Nat else 0))

/-- MWRW rd (R162). -/
def execMwrw (rd : SlotNo) (s : State) : Host.Outcome State Fault Refusal :=
  .next (s.withSlot rd fun x =>
    s.finishWith rd (if s.arg0Nat < x.words then x.memWrite s.arg0Nat s.a1 else x))

/-- MDIM ra: cols in bits 63:32, rows in bits 31:0 (R163). -/
def execMdim (ra : SlotNo) (s : State) : Host.Outcome State Fault Refusal :=
  .next (s.withSlot ra fun x =>
    s.answer (BitVec.ofNat 32 x.cols ++ BitVec.ofNat 32 x.rows))

end Sys2Proof.Machine
end

