-- ==== Sys2Proof/Machine/Scalar.lean ====
section
/-! DEFINITION. MULS, the scalar reference multiplier (spec/42_scalar.md R230). -/

namespace Sys2Proof.Machine

/-- The triple loop of R230 into `c`. -/
def scalarProduct (a b c : BitMatrix) : BitMatrix :=
  fillBits a.rows b.cols (prodBit a b) c

/-- MULS rd, ra, rb (R230). -/
def execMuls (rd ra rb : SlotNo) (s : State) : Host.Outcome State Fault Refusal :=
  .next (s.multiply .muls rd ra rb fun a b =>
    s.commitProduct rd a.rows b.cols
      (scalarProduct a b (s.destination rd a.rows b.cols)).data)

end Sys2Proof.Machine
end

