-- ==== Sys2Proof/Machine/Tiled.lean ====
section
/-! DEFINITION. MULT, the tiled GPU multiplier (spec/44_tiled.md R260). Its kernel is in Kernels.lean and,
site by site, in WorkItems.lean. -/

namespace Sys2Proof.Machine

/-- MULT rd, ra, rb: front end, zeroed result buffer, one dispatch, download (R260). -/
def execMult (rd ra rb : SlotNo) (s : State) : Host.Outcome State Fault Refusal :=
  .next (s.launchMultiply .mult .tiled rd ra rb).runDispatch

end Sys2Proof.Machine
end

