-- ==== Sys2Proof/Machine/Vector.lean ====
section
/-! DEFINITION. MULV, the CPU-SIMD form, and MULVG, the GPU form, of the vector multiplier
(spec/43_vector.md R240 to R246). -/

namespace Sys2Proof.Machine

/-- One wide step at word offset `t`: lane `l` takes word `t + l` (R243). -/
def wideStep (f : Nat → Word) (t : Nat) (lanes : List Word) : List Word :=
  lanes.mapIdx fun l x => x ^^^ f (t + l)

/-- The word x of R242 for one output bit: `W / L` wide steps from zero lanes, the horizontal XOR of
the lanes, and the scalar remainder of `W % L` words. `f t` is the AND of the two rows' words t. -/
def simdXor (L W : Nat) (f : Nat → Word) : Word :=
  let lanes := (List.range (W / L)).foldl (fun ls u => wideStep f (u * L) ls) (List.replicate L 0)
  let x := lanes.foldl (fun y z => y ^^^ z) 0
  (List.range (W % L)).foldl (fun y r => y ^^^ f (W / L * L + r)) x

/-- The loops of R242 into `c`, with `L` lanes and BT = Transpose(B). -/
def simdProduct (L : Nat) (a b c : BitMatrix) : BitMatrix :=
  let bt := transpose b
  let W := wordsPerRow a.cols
  fillBits a.rows b.cols
    (fun i j => parity (simdXor L W fun t => a.memRead (i * W + t) &&& bt.memRead (j * W + t))) c

/-- MULV rd, ra, rb (R242). -/
def execMulv (rd ra rb : SlotNo) (s : State) : Host.Outcome State Fault Refusal :=
  .next (s.multiply .mulv rd ra rb fun a b =>
    s.commitProduct rd a.rows b.cols
      (simdProduct s.config.simdL.count a b (s.destination rd a.rows b.cols)).data)

/-- MULVG rd, ra, rb: front end, one dispatch, download (R244). -/
def execMulvg (rd ra rb : SlotNo) (s : State) : Host.Outcome State Fault Refusal :=
  .next (s.launchMultiply .mulvg .vec rd ra rb).runDispatch

end Sys2Proof.Machine
end

