-- ==== Sys2Proof/Machine/Dispatch.lean ====
section
/-! DEFINITION. The meaning of every command: one arm per constructor of Instr (spec/30_encoding.md R123,
R125). A command reads its scalar operands from the latches a0, a1 and a2 of the state. -/

namespace Sys2Proof.Machine

/-- The execution of a decoded command to its completion (R125, R215). -/
def exec (i : Instr) (s : State) : Host.Outcome State Fault Refusal :=
  match i with
  | .malloc rd => Sys2Proof.Machine.execMalloc rd s
  | .mfree rd => Sys2Proof.Machine.execMfree rd s
  | .mget ra => Sys2Proof.Machine.execMget ra s
  | .mset rd => Sys2Proof.Machine.execMset rd s
  | .mrand rd => Sys2Proof.Machine.execMrand rd s
  | .mtrans rd ra => Sys2Proof.Machine.execMtrans rd ra s
  | .meq ra rb => Sys2Proof.Machine.execMeq ra rb s
  | .mrdw ra => Sys2Proof.Machine.execMrdw ra s
  | .mwrw rd => Sys2Proof.Machine.execMwrw rd s
  | .mdim ra => Sys2Proof.Machine.execMdim ra s
  | .muls rd ra rb => Sys2Proof.Machine.execMuls rd ra rb s
  | .mulv rd ra rb => Sys2Proof.Machine.execMulv rd ra rb s
  | .mulvg rd ra rb => Sys2Proof.Machine.execMulvg rd ra rb s
  | .mult rd ra rb => Sys2Proof.Machine.execMult rd ra rb s
  | .mul4r rd ra rb => Sys2Proof.Machine.execMul4r rd ra rb s

end Sys2Proof.Machine
end

