-- ==== Sys2Proof/Decode.lean ====
section
/-! DEFINITION. Decoding a command word by the match and mask of its row (spec/30_encoding.md R123, R125),
total on every 32-bit word, and the encoder, written from the format of R120. A word that matches no row
is refused with `none`; the machine then raises IllegalCommand (R126). -/

namespace Sys2Proof

/-- Field RD, bits 11:8 (R120). -/
def rdField (w : CmdWord) : SlotNo := (w.extractLsb' 8 4).toFin

/-- Field RA, bits 15:12 (R120). -/
def raField (w : CmdWord) : SlotNo := (w.extractLsb' 12 4).toFin

/-- Field RB, bits 19:16 (R120). -/
def rbField (w : CmdWord) : SlotNo := (w.extractLsb' 16 4).toFin

/-- One row of the opcode map: the word `w` encodes the row's command when
`(w & mask) == pattern`. `build` takes the fields RD, RA, RB. -/
structure OpcodeRow where
  pattern : CmdWord
  mask : CmdWord
  build : SlotNo → SlotNo → SlotNo → Instr

/-- The opcode map, in the order of R123. -/
def opcodeMap : List OpcodeRow :=
  [⟨0x00000001, 0xFFFFF0FF, fun rd _ _ => .malloc rd⟩,
   ⟨0x00000002, 0xFFFFF0FF, fun rd _ _ => .mfree rd⟩,
   ⟨0x00000003, 0xFFFF0FFF, fun _ ra _ => .mget ra⟩,
   ⟨0x00000004, 0xFFFFF0FF, fun rd _ _ => .mset rd⟩,
   ⟨0x00000005, 0xFFFFF0FF, fun rd _ _ => .mrand rd⟩,
   ⟨0x00000006, 0xFFFF00FF, fun rd ra _ => .mtrans rd ra⟩,
   ⟨0x00000007, 0xFFF00FFF, fun _ ra rb => .meq ra rb⟩,
   ⟨0x00000008, 0xFFFF0FFF, fun _ ra _ => .mrdw ra⟩,
   ⟨0x00000009, 0xFFFFF0FF, fun rd _ _ => .mwrw rd⟩,
   ⟨0x0000000A, 0xFFFF0FFF, fun _ ra _ => .mdim ra⟩,
   ⟨0x00000010, 0xFFF000FF, fun rd ra rb => .muls rd ra rb⟩,
   ⟨0x00000011, 0xFFF000FF, fun rd ra rb => .mulv rd ra rb⟩,
   ⟨0x00000012, 0xFFF000FF, fun rd ra rb => .mulvg rd ra rb⟩,
   ⟨0x00000013, 0xFFF000FF, fun rd ra rb => .mult rd ra rb⟩,
   ⟨0x00000014, 0xFFF000FF, fun rd ra rb => .mul4r rd ra rb⟩]

/-- The command a word encodes, or `none` if no row matches (R125, R126). -/
def decode (w : CmdWord) : Option Instr :=
  (opcodeMap.find? fun r => w &&& r.mask == r.pattern).map fun r =>
    r.build (rdField w) (raField w) (rbField w)

/-- A slot number placed at bit `lo` of a command word (R120). -/
def slotBits (i : SlotNo) (lo : Nat) : CmdWord := BitVec.ofNat 32 (i.val * 2 ^ lo)

/-- The command word of a command (R120, R122, R123). -/
def encode : Instr → CmdWord
  | .malloc rd => slotBits rd 8 ||| 0x01
  | .mfree rd => slotBits rd 8 ||| 0x02
  | .mget ra => slotBits ra 12 ||| 0x03
  | .mset rd => slotBits rd 8 ||| 0x04
  | .mrand rd => slotBits rd 8 ||| 0x05
  | .mtrans rd ra => slotBits ra 12 ||| slotBits rd 8 ||| 0x06
  | .meq ra rb => slotBits rb 16 ||| slotBits ra 12 ||| 0x07
  | .mrdw ra => slotBits ra 12 ||| 0x08
  | .mwrw rd => slotBits rd 8 ||| 0x09
  | .mdim ra => slotBits ra 12 ||| 0x0A
  | .muls rd ra rb => slotBits rb 16 ||| slotBits ra 12 ||| slotBits rd 8 ||| 0x10
  | .mulv rd ra rb => slotBits rb 16 ||| slotBits ra 12 ||| slotBits rd 8 ||| 0x11
  | .mulvg rd ra rb => slotBits rb 16 ||| slotBits ra 12 ||| slotBits rd 8 ||| 0x12
  | .mult rd ra rb => slotBits rb 16 ||| slotBits ra 12 ||| slotBits rd 8 ||| 0x13
  | .mul4r rd ra rb => slotBits rb 16 ||| slotBits ra 12 ||| slotBits rd 8 ||| 0x14

/-- The command the decoder reads from the word whose bits are `w`, given by its low `nbits` bits
(the others 0). A command is exactly 32 bits (R127). -/
def decodeTableWord (nbits w : Nat) : Option Instr := decode (BitVec.ofNat 32 (w % 2 ^ nbits))

end Sys2Proof
end

