-- ==== Sys2Proof/Machine/HostPort.lean ====
section
/-! DEFINITION. The host register block (spec/10_state.md R30 to R40) and the host program
(spec/30_encoding.md R128, R129). -/

namespace Sys2Proof.Machine

/-! ### The register block -/

/-- The byte offset of a register (R30). -/
def regOffset : HostReg → Nat
  | .cmd => 0x00
  | .arg0 => 0x08
  | .arg1 => 0x10
  | .arg2 => 0x18
  | .result => 0x20
  | .status => 0x28
  | .caps => 0x30

/-- The value a read at a byte offset returns: 0 for CMD and for an unlisted offset (R30, R40). -/
def State.readPort (s : State) (offset : Nat) : Word :=
  match offset with
  | 0x08 => s.arg0
  | 0x10 => s.arg1
  | 0x18 => s.arg2
  | 0x20 => s.result
  | 0x28 => statusWord s
  | 0x30 => capsWord s.config
  | _ => 0

/-- A write to CMD: while idle it latches bits 31:0 and the three arguments and sets BUSY, in one step
(R31); while busy it is ignored and sets OVR (R343). -/
def State.writeCmd (s : State) (v : Word) : State :=
  if s.busy then { s with ovr := true }
  else
    { s with cmd := v.setWidth 32, a0 := s.arg0, a1 := s.arg1, a2 := s.arg2, busy := true }

/-- A write at a byte offset: ignored at RESULT, STATUS, CAPS and unlisted offsets (R40). -/
def State.writePort (s : State) (offset : Nat) (v : Word) : State :=
  match offset with
  | 0x00 => s.writeCmd v
  | 0x08 => { s with arg0 := v }
  | 0x10 => { s with arg1 := v }
  | 0x18 => { s with arg2 := v }
  | _ => s

/-- One host access. A read answers the value of the moment (R103) and has no other effect (R40). -/
def State.access (s : State) : HostAccess → State
  | .read offset => { s with lastRead := s.readPort offset }
  | .write offset v => s.writePort offset v

/-! ### The host program -/

/-- The value of a host-side name; one never set has a free value (R128, log 9). -/
def HostAgent.lookup (h : HostAgent) (x : Nat) : Word :=
  match h.names.find? fun e => e.1 == x with
  | some e => e.2
  | none => Config.unsetName x

/-- Sets a host-side name. -/
def HostAgent.assign (h : HostAgent) (x : Nat) (v : Word) : HostAgent :=
  { h with names := (x, v) :: h.names.filter fun e => e.1 != x }

/-- The value of a host value (R128). -/
def HostAgent.value (h : HostAgent) : HostValue → Word
  | .lit v => v
  | .name x => h.lookup x

/-- Bits `hi:lo` of a word, as a number (R16). R16 numbers the bits 0 to 63 and R128 says nothing of other
ranges: that bits above 63 count as 0, and that a range with `hi` below `lo` is the number 0, is a DESIGN
CHOICE (unsafe; log 26). -/
def sliceNat (w : Word) (hi lo : Nat) : Nat := w.toNat / 2 ^ lo % 2 ^ (hi + 1 - lo)

/-- The next statement of the program. -/
def HostAgent.advance (h : HostAgent) : HostAgent := { h with position := h.position + 1 }

/-- Whether the program has ended: after its last line or at a STOP (R128). -/
def HostAgent.ended (h : HostAgent) : Bool := decide (h.program.length ≤ h.position)

/-- The line of a label, if the program has it. -/
def HostAgent.labelLine (h : HostAgent) (l : Nat) : Option Nat :=
  h.program.findIdx? fun st => st == .label l

/-- Continues at a label; a label the program does not have is a fault (log 9). -/
def State.hostJump (s : State) (l : Nat) : Except Fault State :=
  match s.host.labelLine l with
  | some n => .ok { s with host := { s.host with position := n } }
  | none => .error .noSuchLabel

/-- The host goes on to its next statement. -/
def State.hostNext (s : State) : State := { s with host := s.host.advance }

/-- A host statement (R128). WAIT reads STATUS until BUSY = 0: while BUSY = 1 the host stays at it. -/
def State.hostStatement (s : State) : HostStmt → Except Fault State
  | .wr r v => .ok (s.access (.write (regOffset r) (s.host.value v))).hostNext
  | .rd x r =>
    let s' := s.access (.read (regOffset r))
    .ok { s' with host := (s'.host.assign x s'.lastRead).advance }
  | .wait =>
    let s' := s.access (.read (regOffset .status))
    .ok (if s.busy then s' else s'.hostNext)
  | .command i => .ok (s.access (.write (regOffset .cmd) ((encode i).setWidth 64))).hostNext
  | .set x v => .ok { s with host := (s.host.assign x (s.host.value v)).advance }
  | .add x v =>
    .ok { s with host := (s.host.assign x (s.host.lookup x + s.host.value v)).advance }
  | .label _ => .ok s.hostNext
  | .jmp l => s.hostJump l
  | .jeq x hi lo v l =>
    if sliceNat (s.host.lookup x) hi lo = (s.host.value v).toNat then s.hostJump l
    else .ok s.hostNext
  | .jne x hi lo v l =>
    if sliceNat (s.host.lookup x) hi lo = (s.host.value v).toNat then .ok s.hostNext
    else s.hostJump l
  | .stop => .ok { s with host := { s.host with position := s.host.program.length } }

/-- The host agent executes its next statement; a program that has ended does nothing. -/
def State.hostStep (s : State) : Except Fault State :=
  match s.host.program[s.host.position]? with
  | some st => s.hostStatement st
  | none => .ok s

/-! ### Pseudo-instructions (R129) -/

/-- `MALLOCI md, rows, cols`. -/
def pseudoMalloci (md : SlotNo) (rows cols : HostValue) : List HostStmt :=
  [.wr .arg0 rows, .wr .arg1 cols, .command (.malloc md), .wait]

/-- `MGETI x, ma, r, c`. -/
def pseudoMgeti (x : Nat) (ma : SlotNo) (r c : HostValue) : List HostStmt :=
  [.wr .arg0 r, .wr .arg1 c, .command (.mget ma), .wait, .rd x .result]

/-- `MSETI md, r, c, v`. -/
def pseudoMseti (md : SlotNo) (r c v : HostValue) : List HostStmt :=
  [.wr .arg0 r, .wr .arg1 c, .wr .arg2 v, .command (.mset md), .wait]

/-- `MWRWI md, q, v`. -/
def pseudoMwrwi (md : SlotNo) (q v : HostValue) : List HostStmt :=
  [.wr .arg0 q, .wr .arg1 v, .command (.mwrw md), .wait]

/-- `MRDWI x, ma, q`. -/
def pseudoMrdwi (x : Nat) (ma : SlotNo) (q : HostValue) : List HostStmt :=
  [.wr .arg0 q, .command (.mrdw ma), .wait, .rd x .result]

/-- `MEQI x, ma, mb`. -/
def pseudoMeqi (x : Nat) (ma mb : SlotNo) : List HostStmt :=
  [.command (.meq ma mb), .wait, .rd x .result]

/-- `CHECK e`: the host reads STATUS into the name `x`; that bits 15:8 equal `e` is what the program's
writer expects of it, not an effect. -/
def pseudoCheck (x : Nat) : List HostStmt := [.rd x .status]

/-- `MULSY <mul>, md, ma, mb`, for the multiply command `i`. -/
def pseudoMulsy (i : Instr) : List HostStmt := [.command i, .wait]

end Sys2Proof.Machine
end

