-- ==== Sys2Proof/Machine/WorkItems.lean ====
section
/-! DEFINITION. The kernels site by site, one work-item at a time (spec/43_vector.md R245,
spec/44_tiled.md R262, spec/45_m4r.md R284, R290), and the work-group barrier (spec/20_memory.md R97).
One step of a work-item makes at most one write to memory that others share, so every interleaving of
steps is an interleaving of accesses (R88, R214). -/

namespace Sys2Proof.Machine

/-- What one step of a work-item does to what it shares with others. -/
inductive Effect where
  /-- Nothing shared is written. -/
  | quiet
  /-- A plain store to a device word. -/
  | store (x : Buf) (q : Nat) (v : Word)
  /-- The atomic fetch-or on a device word (R89). -/
  | fetchOr (x : Buf) (q : Nat) (mask : Word)
  /-- A write of cell [y][x] of the group's Ta. -/
  | tileA (y x : Nat) (bit : Bool)
  /-- A write of cell [y][x] of the group's Tb. -/
  | tileB (y x : Nat) (bit : Bool)
  /-- Arrival at the barrier (R97, step 1). -/
  | arrive
deriving DecidableEq, Repr

/-- What a work-item's step does and where it stands then, or the fault of a device access outside its
buffer (R85, R353). -/
abbrev Action := Except Fault (Effect × Pos)

/-- A work-item reads word `q` of buffer `x` and goes on with it; an access out of range is a fault
(R353). -/
def reading (d : Device) (x : Buf) (q : Nat) (next : Word → Action) : Action :=
  if d.inRange x q then next (d.word x q) else .error .deviceOutOfRange

/-- A work-item writes a device word that must be in range (R353). -/
def writing (d : Device) (x : Buf) (q : Nat) (e : Effect) (p : Pos) : Action :=
  if d.inRange x q then .ok (e, p) else .error .deviceOutOfRange

/-- `ShRead` of cell [y][x] of a tile (R18, R51). -/
def tileCell (tile : List Bool) (y x : Nat) : Bool := tile.getD (y * Config.tileW + x) false

/-- `NextSamePopcount(key)`: the least integer greater than `key` with the same popcount (R287). For
`key > 0` there is one no greater than `2 * key`; the search stops there. -/
def nextSamePopcount (key : Nat) : Nat :=
  let bits (n : Nat) : Nat := (List.range 16).countP fun b => n.testBit b
  (((List.range (key + 1)).map fun i => key + 1 + i).find? fun n => bits n == bits key).getD 256

/-- The lowest set bit of an 8-bit key, `key & (~key + 1)` (R284). -/
def lowestSetBit (key : Nat) : Nat :=
  let x := BitVec.ofNat 8 key
  (x &&& (~~~x + 1)).toNat

/-- The step of a work-item of the kernel of MULVG at (x, y) = (w, i), sites V0 to V4 (R245). -/
def vecAction (d : Device) (w i : Nat) : Pos → Action
  | .v0 =>
    if d.desc.aRows ≤ i ∨ d.desc.cWpr ≤ w then .ok (.quiet, .done) else .ok (.quiet, .v2 0 0)
  | .v2 word b =>
    if b < 64 then
      if 64 * w + b < d.desc.bCols then .ok (.quiet, .v2Dot word b 0 0)
      else .ok (.quiet, .v2 word (b + 1))
    else .ok (.quiet, .v3 word)
  | .v2Dot word b acc t =>
    if t < d.desc.aWpr then
      reading d .a (i * d.desc.aWpr + t) fun x =>
        reading d .bt ((64 * w + b) * d.desc.aWpr + t) fun y =>
          .ok (.quiet, .v2Dot word b (acc ^^^ (x &&& y)) (t + 1))
    else .ok (.quiet, .v2 (word ||| zextBit (parity acc) <<< b) (b + 1))
  | .v3 word =>
    writing d .c (i * d.desc.cWpr + w) (.store .c (i * d.desc.cWpr + w) word) .done
  | p => .ok (.quiet, p)

/-- The step of a work-item of the kernel of MULT with local id (lx, ly) in group `g`, sites T0 to T7
(R261, R262). At T4 and T6 it arrives at the barrier and waits for the group's release. -/
def tiledAction (d : Device) (g : Group) (lx ly : Nat) : Pos → Action
  | .t0 => .ok (.quiet, .t1 false 0)
  | .t1 sum s =>
    if s < ceilDiv d.desc.aCols Config.tileW then .ok (.quiet, .t2 sum s)
    else .ok (.quiet, .t7 sum)
  | .t2 sum s =>
    let row := g.gy * Config.tileW + ly
    let c := s * Config.tileW + lx
    if row < d.desc.aRows ∧ c < d.desc.aCols then
      reading d .a (row * d.desc.aWpr + c / 64) fun x =>
        .ok (.tileA ly lx (x.getLsbD (c % 64)), .t3 sum s)
    else .ok (.tileA ly lx false, .t3 sum s)
  | .t3 sum s =>
    let r := s * Config.tileW + ly
    let col := g.gx * Config.tileW + lx
    if r < d.desc.aCols ∧ col < d.desc.bCols then
      reading d .b (r * d.desc.bWpr + col / 64) fun x =>
        .ok (.tileB lx ly (x.getLsbD (col % 64)), .t4 sum s)
    else .ok (.tileB lx ly false, .t4 sum s)
  | .t4 sum s => .ok (.arrive, .t4Wait sum s g.generation)
  | .t5 sum s t =>
    if t < Config.tileW then
      .ok (.quiet, .t5 (sum ^^ (tileCell g.ta ly t && tileCell g.tb lx t)) s (t + 1))
    else .ok (.quiet, .t6 sum s)
  | .t6 sum s => .ok (.arrive, .t6Wait sum s g.generation)
  | .t7 sum =>
    let row := g.gy * Config.tileW + ly
    let col := g.gx * Config.tileW + lx
    let q := row * d.desc.cWpr + col / 64
    if sum = true ∧ row < d.desc.aRows ∧ col < d.desc.bCols then
      writing d .c q (.fetchOr .c q (onehot (col % 64))) .done
    else .ok (.quiet, .done)
  | p => .ok (.quiet, p)

/-- The step of a work-item of phase 1 of MUL4R at (x, y) = (w, t), sites P0 to P4 (R284). -/
def buildAction (d : Device) (w t : Nat) : Pos → Action
  | .p0 =>
    if d.desc.bWpr ≤ w ∨ 8 * d.desc.aWpr ≤ t then .ok (.quiet, .done) else .ok (.quiet, .p1)
  | .p1 =>
    let q := tableIndex d.desc t 0 w
    writing d .t q (.store .t q 0) (.p2 0)
  | .p2 i =>
    if i < 8 then
      let q := tableIndex d.desc t (2 ^ i) w
      if 8 * t + i < d.desc.aCols then
        reading d .b ((8 * t + i) * d.desc.bWpr + w) fun v =>
          writing d .t q (.store .t q v) (.p2 (i + 1))
      else writing d .t q (.store .t q 0) (.p2 (i + 1))
    else .ok (.quiet, .p3 2 3)
  | .p3 p key =>
    if p ≤ 8 then
      if key < 256 then
        let low := lowestSetBit key
        let q := tableIndex d.desc t key w
        reading d .t (tableIndex d.desc t low w) fun x =>
          reading d .t (tableIndex d.desc t (key ^^^ low) w) fun y =>
            writing d .t q (.store .t q (x ^^^ y)) (.p3 p (nextSamePopcount key))
      else .ok (.quiet, .p3 (p + 1) (2 ^ (p + 1) - 1))
    else .ok (.quiet, .done)
  | p => .ok (.quiet, p)

/-- The step of a work-item of phase 2 of MUL4R at (x, y) = (w, i), sites Q0 to Q4 (R290). -/
def m4rAction (d : Device) (w i : Nat) : Pos → Action
  | .q0 =>
    if d.desc.cWpr ≤ w ∨ d.desc.aRows ≤ i then .ok (.quiet, .done) else .ok (.quiet, .q2 0 0)
  | .q2 acc a =>
    if a < d.desc.aWpr then
      reading d .a (i * d.desc.aWpr + a) fun x => .ok (.quiet, .q2Chunk acc a x 0)
    else .ok (.quiet, .q3 acc)
  | .q2Chunk acc a x c =>
    if c < 8 then
      if chunkKey x c = 0 then .ok (.quiet, .q2Chunk acc a x (c + 1))
      else
        reading d .t (tableIndex d.desc (8 * a + c) (chunkKey x c) w) fun v =>
          .ok (.quiet, .q2Chunk (acc ^^^ v) a x (c + 1))
    else .ok (.quiet, .q2 acc (a + 1))
  | .q3 acc =>
    writing d .c (i * d.desc.cWpr + w) (.store .c (i * d.desc.cWpr + w) acc) .done
  | p => .ok (.quiet, p)

/-- The step of work-item `it` of group `g`: its global id (x, y) is R213's. -/
def itemAction (d : Device) (g : Group) (it : WorkItem) : Action :=
  let x := g.gx * groupSide d.kernel + it.lx
  let y := g.gy * groupSide d.kernel + it.ly
  match d.kernel with
  | .vec => vecAction d x y it.pos
  | .tiled => tiledAction d g it.lx it.ly it.pos
  | .m4rBuild => buildAction d x y it.pos
  | .m4rMul => m4rAction d x y it.pos

/-- An effect on the device buffers. -/
def Device.apply (d : Device) : Effect → Device
  | .store x q v => d.store x q v
  | .fetchOr x q mask => d.fetchOr x q mask
  | _ => d

/-- An effect on the group's shared tiles and barrier counter. -/
def Group.apply (g : Group) : Effect → Group
  | .tileA y x bit => { g with ta := g.ta.set (y * Config.tileW + x) bit }
  | .tileB y x bit => { g with tb := g.tb.set (y * Config.tileW + x) bit }
  | .arrive => { g with waiting := g.waiting + 1 }
  | _ => g

/-- Whether a work-item stands at a site it can step from: not finished and not at a barrier. -/
def Pos.canStep : Pos → Bool
  | .done => false
  | .t4Wait _ _ _ => false
  | .t6Wait _ _ _ => false
  | _ => true

/-- The device after one step of work-item `n` of group `gi`. A work-item that is finished, waits at a
barrier or does not exist cannot be scheduled, and nothing changes (log 21). -/
def Device.stepItem (d : Device) (gi n : Nat) : Except Fault Device :=
  match d.groups[gi]? with
  | none => .ok d
  | some g =>
    match g.items[n]? with
    | none => .ok d
    | some it =>
      if it.pos.canStep then
        match itemAction d g it with
        | .error f => .error f
        | .ok (e, p) =>
          let g' := { g with items := g.items.set n { it with pos := p } }
          .ok { d.apply e with groups := d.groups.set gi (g'.apply e) }
      else .ok d

/-! ### The barrier -/

/-- Whether a work-item waits at site T4 of the barrier instance `gen`. -/
def Pos.waitsT4 (gen : Nat) : Pos → Bool
  | .t4Wait _ _ h => h == gen
  | _ => false

/-- Whether a work-item waits at site T6 of the barrier instance `gen`. -/
def Pos.waitsT6 (gen : Nat) : Pos → Bool
  | .t6Wait _ _ h => h == gen
  | _ => false

/-- Whether the group has work-items, all of them wait at one site and one generation, and the counter
says so (R97, steps 2 and 3). -/
def Group.canRelease (g : Group) : Bool :=
  !g.items.isEmpty && g.waiting == g.items.length &&
    (g.items.all (fun it => it.pos.waitsT4 g.generation) ||
      g.items.all fun it => it.pos.waitsT6 g.generation)

/-- Where a released work-item goes on: from T4 to T5, from T6 to the next tile step (R262). -/
def Pos.released : Pos → Pos
  | .t4Wait sum s _ => .t5 sum s 0
  | .t6Wait sum s _ => .t1 sum (s + 1)
  | p => p

/-- One step releases all work-items of the group together, resets the counter and increments the
generation (R97, step 2). -/
def Group.release (g : Group) : Group :=
  { g with
    items := g.items.map fun it => { it with pos := it.pos.released }
    waiting := 0
    generation := g.generation + 1 }

/-- Whether every work-item of the group has finished. -/
def Group.finished (g : Group) : Bool := g.items.all fun it => it.pos == .done

/-- Whether some work-item of the group can step. -/
def Group.canStep (g : Group) : Bool := g.items.any fun it => it.pos.canStep

/-- Whether the dispatch is complete: every work-item has finished (R94). -/
def Device.finished (d : Device) : Bool := d.groups.all Group.finished

/-- The barrier of group `gi`: a release where R97 allows it, and nothing where it does not. A group with
a work-item that never reaches the barrier, or that waits at another site, gets no release and is stuck:
it has no step any more, while every other agent goes on (R97, R353, U15, log 15). -/
def Device.stepBarrier (d : Device) (gi : Nat) : Device :=
  match d.groups[gi]? with
  | none => d
  | some g => if g.canRelease then { d with groups := d.groups.set gi g.release } else d

/-- The default choice of the next agent inside a dispatch that is not complete: the first work-item
that can step, or else the barrier of the first group that it can release (log 8). Where every group that
has not finished is stuck, that move changes nothing. -/
def Device.defaultTurn (d : Device) : Turn :=
  match d.groups.findIdx? Group.canStep with
  | some gi =>
    match d.groups[gi]? with
    | some g => .workItem gi (g.items.findIdx fun it => it.pos.canStep)
    | none => .proceed
  | none => .barrier (d.groups.findIdx Group.canRelease)

end Sys2Proof.Machine
end

