-- ==== Sys2Proof/WellFormed.lean ====
section
/-! DEFINITION. What is well-formed: a command word (spec/30_encoding.md R126) and a configuration
(spec/00_scope.md R13, spec/10_state.md R39). A term of `Instr` needs no check of its own: its type
bounds every slot number (R121), and `encode` gives it a well-formed word. -/

namespace Sys2Proof

/-- Which slot fields a command uses (R122). -/
structure FieldUse where
  rd : Bool
  ra : Bool
  rb : Bool
deriving DecidableEq, Repr

/-- The slot fields used by opcode `opc`, or `none` if `opc` is not assigned (R122, R123). -/
def fieldUse (opc : Nat) : Option FieldUse :=
  match opc with
  | 0x01 => some ⟨true, false, false⟩
  | 0x02 => some ⟨true, false, false⟩
  | 0x03 => some ⟨false, true, false⟩
  | 0x04 => some ⟨true, false, false⟩
  | 0x05 => some ⟨true, false, false⟩
  | 0x06 => some ⟨true, true, false⟩
  | 0x07 => some ⟨false, true, true⟩
  | 0x08 => some ⟨false, true, false⟩
  | 0x09 => some ⟨true, false, false⟩
  | 0x0A => some ⟨false, true, false⟩
  | 0x10 => some ⟨true, true, true⟩
  | 0x11 => some ⟨true, true, true⟩
  | 0x12 => some ⟨true, true, true⟩
  | 0x13 => some ⟨true, true, true⟩
  | 0x14 => some ⟨true, true, true⟩
  | _ => none

namespace WordCheck

/-- The opcode is assigned (R126, first case). -/
def opcodeAssigned (w : CmdWord) : Bool := (fieldUse (w.extractLsb' 0 8).toNat).isSome

/-- RSV is 0 (R126, second case). -/
def reservedZero (w : CmdWord) : Bool := w.extractLsb' 20 12 == 0

/-- RD is 0 if the command does not use it (R126, third case). -/
def unusedRdZero (w : CmdWord) : Bool :=
  match fieldUse (w.extractLsb' 0 8).toNat with
  | some u => u.rd || w.extractLsb' 8 4 == 0
  | none => true

/-- RA is 0 if the command does not use it (R126, third case). -/
def unusedRaZero (w : CmdWord) : Bool :=
  match fieldUse (w.extractLsb' 0 8).toNat with
  | some u => u.ra || w.extractLsb' 12 4 == 0
  | none => true

/-- RB is 0 if the command does not use it (R126, third case). -/
def unusedRbZero (w : CmdWord) : Bool :=
  match fieldUse (w.extractLsb' 0 8).toNat with
  | some u => u.rb || w.extractLsb' 16 4 == 0
  | none => true

end WordCheck

/-- A command word is well-formed when none of the three cases of R126 makes it illegal. -/
def wordWellFormed (w : CmdWord) : Bool :=
  WordCheck.opcodeAssigned w && WordCheck.reservedZero w && WordCheck.unusedRdZero w &&
    WordCheck.unusedRaZero w && WordCheck.unusedRbZero w

/-- `MAXDIM` is in its range (R13). -/
def Config.maxDimInRange (c : Config) : Bool := 1 ≤ c.maxDim && c.maxDim ≤ 2 ^ 32 - 1

/-- No pipeline exists without a device (R39). -/
def Config.pipesNeedDevice (c : Config) : Bool :=
  c.capDev || !(c.capPipeVec || c.capPipeTiled || c.capPipeM4rBuild || c.capPipeM4rMul)

/-- A legal configuration (R13, R39). -/
def Config.legal (c : Config) : Bool := c.maxDimInRange && c.pipesNeedDevice

end Sys2Proof
end

