-- ==== Sys2Proof/Machine/Turns.lean ====
section
/-! DEFINITION. The moves of the agents (spec/00_scope.md R8 to R12): the host's accesses and statements,
the CP's execution of the latched command as one step or work-item by work-item
(spec/41_multiply_common.md R215), the work-items, the barriers, reset and the failure of a dispatch. A
move that is not possible in a state changes nothing (log 21). -/

namespace Sys2Proof.Machine

/-- The outcome of a move that may fault. -/
def outcomeOf (r : Except Fault State) : Host.Outcome State Fault Refusal :=
  match r with
  | .ok s => .next s
  | .error f => .fault f

/-- The latched command word, decoded (R125). -/
def State.fetch (s : State) : Option Instr := decode s.cmd

/-- The CP executes the latched command to its completion; a word no row matches raises IllegalCommand
(R125, R126). An idle CP waits (R371), and so does a CP whose dispatch is not complete (R94). -/
def State.runCommand (s : State) : Host.Outcome State Fault Refusal :=
  if s.busy && s.device.isNone then
    match s.fetch with
    | some i => exec i s
    | none => .next (s.raise .illegalCommand)
  else .next s

/-- The CP starts the latched command: a GPU multiply passes its front end and enters its device phase
(R208, R215); any other command is executed as by `runCommand`. -/
def State.launchCommand (s : State) : Host.Outcome State Fault Refusal :=
  if s.busy && s.device.isNone then
    match s.fetch with
    | some (.mulvg rd ra rb) => .next (s.launchMultiply .mulvg .vec rd ra rb)
    | some (.mult rd ra rb) => .next (s.launchMultiply .mult .tiled rd ra rb)
    | some (.mul4r rd ra rb) => .next (s.launchMultiply .mul4r .m4rBuild rd ra rb)
    | _ => s.runCommand
  else .next s

/-- A move inside the dispatch in progress (R214, R97). -/
def State.onDevice (s : State) (f : Device → Except Fault Device) : Except Fault State :=
  match s.device with
  | none => .ok s
  | some d =>
    match f d with
    | .ok d' => .ok { s with device := some d' }
    | .error e => .error e

/-- The CP goes on once every work-item of the dispatch has finished (R93, R94). -/
def State.proceed (s : State) : State :=
  match s.device with
  | none => s
  | some d => if d.finished then s.afterDispatch d else s

/-- The environment fails the dispatch in progress, at any point before it completes, which it may do
only when DEVICE_FAULTS = 1 (R209). A dispatch all of whose work-items have finished is complete
(R94). -/
def State.deviceFail (s : State) : State :=
  match s.device with
  | none => s
  | some d => if s.config.deviceFaults && !d.finished then s.failDevice d else s

/-- Reset with the configuration `c`: every piece of state takes its reset value and a command in flight
is abandoned (R370). The host's program and the model's own fields are not the unit's and stay (log 12).
An illegal configuration is no outcome of initialisation, so that move is not possible (R39). -/
def State.resetTo (s : State) (c : Config) : State :=
  if c.legal then
    { State.resetWith c with
      host := s.host
      lastRead := s.lastRead
      turns := s.turns
      draws := s.draws
      dispatches := s.dispatches }
  else s

/-- One move of one agent. -/
def State.move (s : State) : Turn → Host.Outcome State Fault Refusal
  | .access a => .next (s.access a)
  | .host => outcomeOf s.hostStep
  | .reset c => .next (s.resetTo c)
  | .command => s.runCommand
  | .launch => s.launchCommand
  | .workItem g n => outcomeOf (s.onDevice fun d => d.stepItem g n)
  | .barrier g => outcomeOf (s.onDevice fun d => .ok (d.stepBarrier g))
  | .proceed => .next s.proceed
  | .deviceFail => .next s.deviceFail

/-- Who moves when no move is given: the CP or its dispatch while a command is in flight, the host
program otherwise (log 8). -/
def State.defaultTurn (s : State) : Turn :=
  if s.busy then
    match s.device with
    | none => .command
    | some d => if d.finished then .proceed else d.defaultTurn
  else .host

/-- The next move: the oldest one given, which is then used up, or the default one. -/
def State.nextMove (s : State) : Host.Outcome State Fault Refusal :=
  match s.turns with
  | [] => s.move s.defaultTurn
  | t :: rest => { s with turns := rest }.move t

/-- The state after the host's write of the command word `w` to CMD with the CP idle (R31), with the
CP's move to come first. It is the form a program is brought to the unit in (log 10). -/
def State.issue (s : State) (w : CmdWord) : State :=
  { s with
    cmd := w
    a0 := s.arg0
    a1 := s.arg1
    a2 := s.arg2
    busy := true
    temp := none
    device := none
    turns := .command :: s.turns }

end Sys2Proof.Machine
end

