-- ==== Sys2Proof/Machine/Step.lean ====
section
/-! DEFINITION. One step of the machine: one move of one agent (spec/00_scope.md R8 to R12). The latched
command is fetched, decoded and executed by the CP's move (spec/30_encoding.md R125). -/

namespace Sys2Proof.Machine

/-- One step: the next move of State.turns, or the default one. -/
def step (s : State) : Host.Outcome State Fault Refusal := s.nextMove

/-- The state whose next step fetches and executes the command word given by the low `nbits` bits of
`w`, the other bits 0: the host has just written it to CMD (R31; log 10). -/
def State.withFetchWord (s : State) (nbits w : Nat) : State :=
  s.issue (BitVec.ofNat 32 (w % 2 ^ nbits))

end Sys2Proof.Machine
end

