-- ==== Sys2Proof/Safety.lean ====
section
/-! DEFINITION. What claims are stated in: the form of the matrix store, the invariant every step keeps
(spec/10_state.md R39, R42, R45, R46, R48, spec/60_exceptions.md R331), and the end of a run
(spec/70_reset_and_hazards.md R385). -/

namespace Sys2Proof.Machine

/-- The layout of a matrix: wpr is the words of a row and the data has rows * wpr words (R42). -/
def BitMatrix.wf (x : BitMatrix) : Bool :=
  x.wpr == wordsPerRow x.cols && x.data.length == x.rows * x.wpr

/-- The form of the matrix store: every valid slot has the layout of R42. The data is an array of
exactly that length, so equal stores are equal data (log 1). -/
def Memory.wf (m : Memory) : Bool :=
  m.toList.all fun o =>
    match o with
    | some x => x.wf
    | none => true

/-- The words of the temporary the command in flight holds (R45). -/
def State.tempUse (s : State) : Nat :=
  match s.temp with
  | some x => x.words
  | none => 0

/-- The matrix of slot `i` is within MAXDIM (R46). -/
def State.DimsBounded (s : State) : Prop :=
  ∀ i x, s.slot i = some x → x.rows ≤ s.config.maxDim ∧ x.cols ≤ s.config.maxDim

/-- What holds of the device during the device phase of a command: the buffers fit (R48), bufC has the
words of the result, the result's shape is legal, and the destination can take it (R202, R207). -/
structure DevicePhase (s : State) (d : Device) : Prop where
  fits : d.size ≤ s.config.devMemWords
  result_words : d.bufC.length = d.desc.cRows * d.desc.cWpr
  result_wpr : d.desc.cWpr = wordsPerRow d.desc.cCols
  result_rows : d.desc.cRows ≤ s.config.maxDim
  result_cols : d.desc.cCols ≤ s.config.maxDim
  dest_shape : ∀ x, s.slot d.dest = some x → x.rows = d.desc.cRows ∧ x.cols = d.desc.cCols
  dest_fits : s.slot d.dest = none →
    s.usage + s.tempUse + d.desc.cRows * d.desc.cWpr ≤ s.config.hostMemWords

/-- The invariant of the machine. -/
structure State.Inv (s : State) : Prop where
  /-- The configuration is legal (R13, R39). -/
  config_legal : s.config.legal = true
  /-- The matrix store has its form (R42). -/
  memory_wf : Memory.wf s.slots = true
  /-- Every valid slot is within MAXDIM (R46). -/
  dims : s.DimsBounded
  /-- Slots and temporary fit in HOSTMEM_WORDS (R45). -/
  capacity : s.usage + s.tempUse ≤ s.config.hostMemWords
  /-- ERR is set exactly when ERRCODE is not 0 (R36). -/
  err_iff : s.err = (s.errCode != 0)
  /-- Codes 8 to 255 are never written (R331). -/
  code_known : s.errCode.toNat ≤ 7
  /-- A device exists only while a command is in flight (R48). -/
  device_busy : s.device.isSome = true → s.busy = true
  /-- A temporary is held only in a device phase (R240). -/
  temp_device : s.temp.isSome = true → s.device.isSome = true
  /-- The device phase in progress is sound. -/
  phase : ∀ d, s.device = some d → DevicePhase s d

/-! ### Frames -/

/-- The command has completed with `code`: the unit is idle, ERRCODE and ERR are written, and nothing the
command held is left (R36, R330). -/
structure Completed (t : State) (code : BitVec 8) : Prop where
  idle : t.busy = false
  code_eq : t.errCode = code
  err_eq : t.err = (code != 0)
  no_temp : t.temp = none
  no_device : t.device = none

/-- What no command writes: the configuration, the argument registers (R32), OVR (R37), the latches, the
host and the moves to come. -/
structure KeepsControl (s t : State) : Prop where
  config : t.config = s.config
  arg0 : t.arg0 = s.arg0
  arg1 : t.arg1 = s.arg1
  arg2 : t.arg2 = s.arg2
  ovr : t.ovr = s.ovr
  cmd : t.cmd = s.cmd
  a0 : t.a0 = s.a0
  a1 : t.a1 = s.a1
  a2 : t.a2 = s.a2
  host : t.host = s.host
  lastRead : t.lastRead = s.lastRead
  turns : t.turns = s.turns

/-- The moves that are not the host's and not reset: the CP's, the work-items', the barriers' and the
environment's on the device (R9 to R12). -/
def Turn.ofUnit : Turn → Bool
  | .command => true
  | .launch => true
  | .workItem _ _ => true
  | .barrier _ => true
  | .proceed => true
  | .deviceFail => true
  | _ => false

/-- The statement of the host program that a host move executes writes register `r`. -/
def State.hostWrites (s : State) (r : HostReg) : Prop :=
  ∃ st, s.host.program[s.host.position]? = some st ∧
    ((∃ v, st = .wr r v) ∨ (r = .cmd ∧ ∃ i, st = .command i))

/-- The host goes on to its next statement with the name `x` set to `w`, its other names and its program as
they were (R128). -/
structure SetsName (h h' : HostAgent) (x : Nat) (w : Word) : Prop where
  program : h'.program = h.program
  position : h'.position = h.position + 1
  names : ∀ y, h'.lookup y = if y = x then w else h.lookup y

/-- Line `n` is where a jump to label `l` goes: the first line with that label (R128; log 9). -/
def HostAgent.LabelAt (h : HostAgent) (l n : Nat) : Prop :=
  h.program[n]? = some (.label l) ∧ ∀ m, m < n → h.program[m]? ≠ some (.label l)

/-- Every slot but `rd` holds what it held, word by word (R47). -/
def KeepsOtherSlots (s t : State) (rd : SlotNo) : Prop := ∀ i, i ≠ rd → t.slot i = s.slot i

/-- Every slot holds what it held, word by word. -/
def KeepsSlots (s t : State) : Prop := ∀ i, t.slot i = s.slot i

/-- The slot a command may write, if any (R122). -/
def destSlot : Instr → Option SlotNo
  | .malloc rd => some rd
  | .mfree rd => some rd
  | .mget _ => none
  | .mset rd => some rd
  | .mrand rd => some rd
  | .mtrans rd _ => some rd
  | .meq _ _ => none
  | .mrdw _ => none
  | .mwrw rd => some rd
  | .mdim _ => none
  | .muls rd _ _ => some rd
  | .mulv rd _ _ => some rd
  | .mulvg rd _ _ => some rd
  | .mult rd _ _ => some rd
  | .mul4r rd _ _ => some rd

/-- The commands that write RESULT (R33). -/
def isQuery : Instr → Bool
  | .mget _ => true
  | .meq _ _ => true
  | .mrdw _ => true
  | .mdim _ => true
  | _ => false

/-- The nonzero error codes a command can complete with, by the rows of R331. -/
def errorCodes : Instr → List (BitVec 8)
  | .malloc _ => [7]
  | .mfree _ => [5]
  | .mget _ => [5]
  | .mset _ => [5]
  | .mrand _ => [5]
  | .mtrans _ _ => [5, 7]
  | .meq _ _ => [5]
  | .mrdw _ => [5]
  | .mwrw _ => [5]
  | .mdim _ => [5]
  | .muls _ _ _ => [1, 5, 6, 7]
  | .mulv _ _ _ => [1, 2, 5, 6, 7]
  | .mulvg _ _ _ => [1, 2, 3, 5, 6, 7]
  | .mult _ _ _ => [1, 2, 3, 5, 6, 7]
  | .mul4r _ _ _ => [1, 2, 3, 5, 6, 7]

/-! ### The multiply commands -/

/-- The multiply command of a variant. -/
def mulCommand (v : Variant) (rd ra rb : SlotNo) : Instr :=
  match v with
  | .muls => .muls rd ra rb
  | .mulv => .mulv rd ra rb
  | .mulvg => .mulvg rd ra rb
  | .mult => .mult rd ra rb
  | .mul4r => .mul4r rd ra rb

/-- A multiply command passes every check of its front end, with operands `a` and `b` (R201, R202, R205,
R206, R207). RA = RB is allowed. -/
structure MulReady (s : State) (v : Variant) (rd ra rb : SlotNo) (a b : BitMatrix) : Prop where
  operand_a : s.slot ra = some a
  operand_b : s.slot rb = some b
  shapes : a.cols = b.rows
  dest_not_a : rd ≠ ra
  dest_not_b : rd ≠ rb
  dest_shape : ∀ c, s.slot rd = some c → c.rows = a.rows ∧ c.cols = b.cols
  backend : backendReady s.config v = true
  host_fits : s.usage + s.freshWords rd a.rows b.cols + tempWords v a b ≤ s.config.hostMemWords
  device_fits : deviceWords v a b ≤ s.config.devMemWords

/-- The post-state of a successful multiply (R203): the shape and layout of RD, its valid bits, its
padding bits (each of them a bit of a draw), what does not change, and that the draws taken are used up
(R18). -/
structure ProductState (s t : State) (rd : SlotNo) (a b : BitMatrix) : Prop where
  result_matrix : ∃ c, t.slot rd = some c ∧ c.rows = a.rows ∧ c.cols = b.cols ∧
    c.wpr = wordsPerRow b.cols ∧ c.data.length = c.rows * c.wpr ∧
    (∀ i j, i < a.rows → j < b.cols → c.get i j = prodBit a b i j) ∧
    ∀ i p, i < a.rows → b.cols % 64 ≠ 0 → b.cols % 64 ≤ p → p < 64 →
      (c.memRead (i * c.wpr + (c.wpr - 1))).getLsbD p =
        (Config.draw64 (s.draws + i)).getLsbD p
  completed : Completed t 0
  other_slots : KeepsOtherSlots s t rd
  result_kept : t.result = s.result
  control : KeepsControl s t
  draws_taken : t.draws = s.draws + if b.cols % 64 = 0 then 0 else a.rows

/-! ### Dispatches and work-items -/

/-- A dispatch at its start (R213): the grid has a work-group at each of its places and at no other, every
group has side * side work-items at the kernel's first site and its barrier state is 0 (R53), and so every
(x, y) of the problem, `width` by `height`, has a work-item there. -/
structure DispatchStarted (d : Device) (side width height : Nat) (first : Pos) : Prop where
  count : d.groups.length = ceilDiv width side * ceilDiv height side
  grid : ∀ gx gy, (∃ g ∈ d.groups, g.gx = gx ∧ g.gy = gy) ↔
    gx < ceilDiv width side ∧ gy < ceilDiv height side
  items : ∀ g ∈ d.groups, g.items.length = side * side ∧ g.waiting = 0 ∧ g.generation = 0 ∧
    ∀ lx ly, lx < side → ly < side → ({ lx := lx, ly := ly, pos := first } : WorkItem) ∈ g.items
  covers : ∀ x y, x < width → y < height → ∃ (gi n : Nat) (g : Group) (it : WorkItem),
    d.groups[gi]? = some g ∧ g.items[n]? = some it ∧ it.pos = first ∧
      g.gx * side + it.lx = x ∧ g.gy * side + it.ly = y

/-- The device word that the next step of work-item `it` of group `g` stores to, and the word it leaves
there: V3 (R245), T7 (R268), P1, P2 and P3 (R284), Q3 (R290). At every other site nothing is stored. -/
def storedWord (d : Device) (g : Group) (it : WorkItem) : Option (Buf × Nat × Word) :=
  let x := g.gx * groupSide d.kernel + it.lx
  let y := g.gy * groupSide d.kernel + it.ly
  match d.kernel, it.pos with
  | .vec, .v3 word => some (.c, y * d.desc.cWpr + x, word)
  | .tiled, .t7 sum =>
    let q := y * d.desc.cWpr + x / 64
    if sum = true ∧ y < d.desc.aRows ∧ x < d.desc.bCols then
      some (.c, q, d.word .c q ||| onehot (x % 64))
    else none
  | .m4rBuild, .p1 => some (.t, tableIndex d.desc y 0 x, 0)
  | .m4rBuild, .p2 i =>
    if i < 8 then
      some (.t, tableIndex d.desc y (2 ^ i) x,
        if 8 * y + i < d.desc.aCols then d.word .b ((8 * y + i) * d.desc.bWpr + x) else 0)
    else none
  | .m4rBuild, .p3 p key =>
    if p ≤ 8 ∧ key < 256 then
      some (.t, tableIndex d.desc y key x,
        d.word .t (tableIndex d.desc y (lowestSetBit key) x) ^^^
          d.word .t (tableIndex d.desc y (key ^^^ lowestSetBit key) x))
    else none
  | .m4rMul, .q3 acc => some (.c, y * d.desc.cWpr + x, acc)
  | _, _ => none

/-- `k` steps of work-item `n` of group `g`, with no other agent moving. -/
def runItem (d : Device) (g n : Nat) : Nat → Except Fault Device
  | 0 => .ok d
  | k + 1 =>
    match d.stepItem g n with
    | .ok d' => runItem d' g n k
    | .error f => .error f

/-- The run of the host's program has ended (R385). -/
def State.runEnded (s : State) : Bool := s.host.ended && !s.busy

end Sys2Proof.Machine
end

