-- ==== Sys2Proof/Certificates/Slice0/Obligations.lean ====
section
/-! DEFINITION. What is claimed of the unit, one statement each, from the numbered rules of spec/. -/

open Sys2Proof Sys2Proof.Machine

/-! ### Encoding (spec/30_encoding.md) -/

/-- R120, R123, R125. Decoding the word of a command gives the command back, with every operand at every
value. -/
def Obligations.DecodeOfEncode : Prop := ∀ i : Instr, decode (encode i) = some i

/-- R120, R123, R127. A word that decodes is the word of its command: no other word means the same. -/
def Obligations.EncodeOfDecode : Prop :=
  ∀ (w : CmdWord) (i : Instr), decode w = some i → encode i = w

/-- R126. The decoder accepts exactly the words that none of the three cases of R126 makes illegal. -/
def Obligations.DecodesExactlyWellFormedWords : Prop :=
  ∀ w : CmdWord, (decode w).isSome = wordWellFormed w

/-- R123. A word that matches a row of the opcode map encodes that row's command with its fields, and no
two rows match one word. -/
def Obligations.OpcodeMapRowsMatch : Prop :=
  (∀ w : CmdWord,
    (w &&& 0xFFFFF0FF = 0x00000001 → decode w = some (.malloc (rdField w))) ∧
    (w &&& 0xFFFFF0FF = 0x00000002 → decode w = some (.mfree (rdField w))) ∧
    (w &&& 0xFFFF0FFF = 0x00000003 → decode w = some (.mget (raField w))) ∧
    (w &&& 0xFFFFF0FF = 0x00000004 → decode w = some (.mset (rdField w))) ∧
    (w &&& 0xFFFFF0FF = 0x00000005 → decode w = some (.mrand (rdField w))) ∧
    (w &&& 0xFFFF00FF = 0x00000006 → decode w = some (.mtrans (rdField w) (raField w))) ∧
    (w &&& 0xFFF00FFF = 0x00000007 → decode w = some (.meq (raField w) (rbField w))) ∧
    (w &&& 0xFFFF0FFF = 0x00000008 → decode w = some (.mrdw (raField w))) ∧
    (w &&& 0xFFFFF0FF = 0x00000009 → decode w = some (.mwrw (rdField w))) ∧
    (w &&& 0xFFFF0FFF = 0x0000000A → decode w = some (.mdim (raField w))) ∧
    (w &&& 0xFFF000FF = 0x00000010 → decode w = some (.muls (rdField w) (raField w) (rbField w))) ∧
    (w &&& 0xFFF000FF = 0x00000011 → decode w = some (.mulv (rdField w) (raField w) (rbField w))) ∧
    (w &&& 0xFFF000FF = 0x00000012 → decode w = some (.mulvg (rdField w) (raField w) (rbField w))) ∧
    (w &&& 0xFFF000FF = 0x00000013 → decode w = some (.mult (rdField w) (raField w) (rbField w))) ∧
    (w &&& 0xFFF000FF = 0x00000014 → decode w = some (.mul4r (rdField w) (raField w) (rbField w)))) ∧
  ∀ w : CmdWord, (opcodeMap.filter fun r => w &&& r.mask == r.pattern).length ≤ 1

/-- spec/95_test_vectors.md 2.1: words written out from the format, and words it makes illegal. -/
def Obligations.SampleWordsDecode : Prop :=
  decode 0x00000F01 = some (.malloc 15) ∧ decode 0x00002003 = some (.mget 2) ∧
  decode 0x00001206 = some (.mtrans 2 1) ∧ decode 0x00021007 = some (.meq 1 2) ∧
  decode 0x0000F00A = some (.mdim 15) ∧ decode 0x00010210 = some (.muls 2 0 1) ∧
  decode 0x00010412 = some (.mulvg 4 0 1) ∧ decode 0x00032113 = some (.mult 1 2 3) ∧
  decode 0x00001001 = none ∧ decode 0x00000203 = none ∧ decode 0x00100210 = none ∧
  decode 0x00000000 = none ∧ decode 0x0000000B = none ∧ decode 0x00000015 = none

/-! ### The host register block (spec/10_state.md 1) -/

/-- R31. A CMD write while idle latches bits 31:0 and the three arguments and sets BUSY, and nothing else
changes; the CP then executes that command; a write while busy sets OVR; a read of CMD returns 0. -/
def Obligations.CmdWriteIssuesCommand : Prop :=
  (∀ (s : State) (v : Word), s.busy = false →
    s.access (.write 0x00 v) =
      { s with cmd := v.setWidth 32, a0 := s.arg0, a1 := s.arg1, a2 := s.arg2, busy := true }) ∧
  (∀ (s : State) (v : Word) (i : Instr) (rest : List Turn), s.busy = false → s.device = none →
    s.turns = .access (.write 0x00 v) :: .command :: rest → decode (v.setWidth 32) = some i →
    ∃ t u, step s = .next t ∧ t.busy = true ∧ t.turns = .command :: rest ∧
      u = { t with turns := rest } ∧ step t = exec i u) ∧
  (∀ (s : State) (v : Word), s.busy = true →
    s.access (.write 0x00 v) = { s with ovr := true }) ∧
  ∀ s : State, s.readPort 0x00 = 0

/-- R343, R37. A CMD write while BUSY = 1 changes nothing but OVR. OVR is set by no other event, and once
set it stays set until reset. -/
def Obligations.OverrunIsIgnoredAndSticky : Prop :=
  (∀ (s : State) (v : Word) (rest : List Turn), s.busy = true →
    s.turns = .access (.write 0x00 v) :: rest →
    step s = .next { s with ovr := true, turns := rest }) ∧
  (∀ s t : State, s.ovr = true → step s = .next t →
    t.ovr = true ∨ ∃ c rest, s.turns = .reset c :: rest) ∧
  ∀ s t : State, s.ovr = false → step s = .next t → t.ovr = true →
    s.busy = true ∧ ((∃ v rest, s.turns = .access (.write 0x00 v) :: rest) ∨
      ∃ rest st, s.turns = .host :: rest ∧ s.host.program[s.host.position]? = some st ∧
        ((∃ i, st = .command i) ∨ ∃ v, st = .wr .cmd v))

/-- R30, R40. What a read at each offset returns, and where the host finds it. Writes to RESULT, STATUS, CAPS
and unlisted offsets are ignored, reads of CMD and of unlisted offsets return 0, a CMD write uses bits
31:0, a write at an ARG offset changes that register alone, and a read has no side effect on the unit. -/
def Obligations.RegisterBlockAccessRules : Prop :=
  (∀ s : State, s.readPort 0x08 = s.arg0 ∧ s.readPort 0x10 = s.arg1 ∧ s.readPort 0x18 = s.arg2 ∧
    s.readPort 0x20 = s.result ∧ s.readPort 0x28 = statusWord s ∧
    s.readPort 0x30 = capsWord s.config) ∧
  (∀ (s : State) (v : Word), s.access (.write 0x08 v) = { s with arg0 := v } ∧
    s.access (.write 0x10 v) = { s with arg1 := v } ∧
    s.access (.write 0x18 v) = { s with arg2 := v }) ∧
  (∀ (s : State) (offset : Nat) (v : Word), offset ∉ [0x00, 0x08, 0x10, 0x18] →
    s.access (.write offset v) = s) ∧
  (∀ (s : State) (offset : Nat), offset ∉ [0x08, 0x10, 0x18, 0x20, 0x28, 0x30] →
    s.readPort offset = 0) ∧
  (∀ (s : State) (v v' : Word), v.extractLsb' 0 32 = v'.extractLsb' 0 32 →
    s.access (.write 0x00 v) = s.access (.write 0x00 v')) ∧
  (∀ (s : State) (offset : Nat),
    s.access (.read offset) = { s with lastRead := s.readPort offset }) ∧
  ∀ (s : State) (x : Nat) (r : HostReg) (rest : List Turn), s.turns = .host :: rest →
    s.host.program[s.host.position]? = some (.rd x r) →
    ∃ t, step s = .next t ∧ t.host.lookup x = s.readPort (regOffset r) ∧
      t.host.position = s.host.position + 1

/-- R30, R128. The offset each host register stands for, and what each host statement does. WR and a command
mnemonic are one write, RD and each pass of WAIT one read; WAIT stays while BUSY = 1; the others touch no
register of the unit. The model's choices: the first of two equal labels and the fault for a missing one
(log 9); and that the bits of JEQ and JNE are compared, as a number, with the whole value, where bits above
63 count as 0 and a range with hi below lo is 0 (log 26). -/
def Obligations.HostStatementEffects : Prop :=
  (regOffset .cmd = 0x00 ∧ regOffset .arg0 = 0x08 ∧ regOffset .arg1 = 0x10 ∧
    regOffset .arg2 = 0x18 ∧ regOffset .result = 0x20 ∧ regOffset .status = 0x28 ∧
    regOffset .caps = 0x30) ∧
  ∀ (s : State) (rest : List Turn), s.turns = .host :: rest →
    let h := s.host
    let value := fun v : HostValue => match v with
      | .lit w => w
      | .name y => h.lookup y
    let next := { h with position := h.position + 1 }
    let goes := fun h' : HostAgent => step s = .next { s with turns := rest, host := h' }
    let jumps := fun l : Nat =>
      (∀ n, h.LabelAt l n → goes { h with position := n }) ∧
        ((∀ n, ¬h.LabelAt l n) → step s = .fault .noSuchLabel)
    let bits := fun x hi lo => ((h.lookup x).extractLsb' lo (hi + 1 - lo)).toNat
    (h.program[h.position]? = none → goes h) ∧
    ∀ st, h.program[h.position]? = some st →
      match st with
      | .wr r v => step s = .next
          { s.access (.write (regOffset r) (value v)) with turns := rest, host := next }
      | .command i => step s = .next
          { s.access (.write 0x00 ((encode i).setWidth 64)) with turns := rest, host := next }
      | .rd x r => ∃ h', SetsName h h' x (s.readPort (regOffset r)) ∧ step s = .next
          { s with turns := rest, host := h', lastRead := s.readPort (regOffset r) }
      | .wait => step s = .next { s with
          turns := rest, lastRead := s.readPort 0x28, host := if s.busy then h else next }
      | .set x v => ∃ h', SetsName h h' x (value v) ∧ goes h'
      | .add x v => ∃ h', SetsName h h' x (h.lookup x + value v) ∧ goes h'
      | .label _ => goes next
      | .jmp l => jumps l
      | .jeq x hi lo v l => (bits x hi lo = (value v).toNat → jumps l) ∧
          (bits x hi lo ≠ (value v).toNat → goes next)
      | .jne x hi lo v l => (bits x hi lo ≠ (value v).toNat → jumps l) ∧
          (bits x hi lo = (value v).toNat → goes next)
      | .stop => goes { h with position := h.program.length }

/-- R32. The argument registers hold all 64 bits a host writes and no command writes them, whether it runs
in one step or work-item by work-item; a write while a command runs does not reach its latched operands;
the next command takes the values they hold then. -/
def Obligations.ArgumentRegistersAreTheHosts : Prop :=
  (∀ (s : State) (v : Word),
    (s.access (.write 0x08 v)).readPort 0x08 = v ∧
    (s.access (.write 0x10 v)).readPort 0x10 = v ∧
    (s.access (.write 0x18 v)).readPort 0x18 = v) ∧
  (∀ (i : Instr) (s t : State), exec i s = .next t →
    t.arg0 = s.arg0 ∧ t.arg1 = s.arg1 ∧ t.arg2 = s.arg2) ∧
  (∀ (s t : State) (m : Turn) (rest : List Turn), m.ofUnit = true → s.turns = m :: rest →
    step s = .next t → t.arg0 = s.arg0 ∧ t.arg1 = s.arg1 ∧ t.arg2 = s.arg2) ∧
  (∀ (s : State) (offset : Nat) (v : Word), s.busy = true →
    let t := s.access (.write offset v)
    t.cmd = s.cmd ∧ t.a0 = s.a0 ∧ t.a1 = s.a1 ∧ t.a2 = s.a2) ∧
  ∀ (s : State) (v : Word), s.busy = false →
    let t := s.access (.write 0x00 v)
    t.a0 = s.arg0 ∧ t.a1 = s.arg1 ∧ t.a2 = s.arg2

/-- R34. The fields of STATUS, and its reserved bits. -/
def Obligations.StatusFieldsRead : Prop :=
  ∀ s : State, (s.readPort 0x28).getLsbD 0 = s.busy ∧ (s.readPort 0x28).getLsbD 1 = s.err ∧
    (s.readPort 0x28).getLsbD 2 = s.ovr ∧
    (∀ b, 3 ≤ b → b ≤ 7 → (s.readPort 0x28).getLsbD b = false) ∧
    (s.readPort 0x28).extractLsb' 8 8 = s.errCode ∧
    ∀ b, 16 ≤ b → (s.readPort 0x28).getLsbD b = false

/-- R38. The fields of CAPS, and the bits that read 0. -/
def Obligations.CapsFieldsRead : Prop :=
  ∀ s : State, let w := s.readPort 0x30
    w.getLsbD 0 = s.config.capSimd ∧ w.getLsbD 1 = s.config.capDev ∧
    w.getLsbD 2 = s.config.capPipeVec ∧ w.getLsbD 3 = s.config.capPipeTiled ∧
    w.getLsbD 4 = s.config.capPipeM4rBuild ∧ w.getLsbD 5 = s.config.capPipeM4rMul ∧
    w.getLsbD 6 = false ∧ w.getLsbD 7 = false ∧
    (w.extractLsb' 8 8).toNat = s.config.simdL.count ∧ (w.extractLsb' 16 8).toNat = 32 ∧
    (w.extractLsb' 24 8).toNat = 8 ∧ (w.extractLsb' 32 8).toNat = 16 ∧
    (w.extractLsb' 40 8).toNat = 16 ∧ (w.extractLsb' 48 16).toNat = 0

/-! ### Reset (spec/10_state.md 5, spec/70_reset_and_hazards.md 1) -/

/-- R57, R370. Reset, in any state and with any legal configuration, abandons the command in flight and
leaves every piece of state at the value of R57: no slot valid, no device, STATUS and the registers 0. -/
def Obligations.ResetLeavesResetValues : Prop :=
  ∀ (s : State) (c : Config) (rest : List Turn), c.legal = true → s.turns = .reset c :: rest →
    ∃ t, step s = .next t ∧ t.busy = false ∧ t.arg0 = 0 ∧ t.arg1 = 0 ∧ t.arg2 = 0 ∧
      t.result = 0 ∧ t.readPort 0x28 = 0 ∧ t.config = c ∧ t.readPort 0x30 = capsWord c ∧
      (∀ i, t.slot i = none) ∧ t.usage = 0 ∧ t.temp = none ∧ t.device = none

/-- R372. The configuration, and with it CAPS, is constant until the next reset. -/
def Obligations.ConfigurationConstantUntilReset : Prop :=
  ∀ s t : State, step s = .next t →
    (t.config = s.config ∧ t.readPort 0x30 = s.readPort 0x30) ∨
      ∃ c rest, s.turns = .reset c :: rest ∧ t.config = c

/-! ### Steps and completion -/

/-- R125. When the CP moves with a command in flight and no dispatch in progress, the step is exec of the
command the latched word decodes to, at the state without the move just used. The other two clauses are
the model's choice and no rule: that the CP moves when no move is given (log 8), and that withFetchWord
stands for the host's write of the word (log 10). -/
def Obligations.StepRunsDecodedCommand : Prop :=
  (∀ (s : State) (i : Instr) (rest : List Turn), s.busy = true → s.device = none →
    decode s.cmd = some i → s.turns = .command :: rest →
    step s = exec i { s with turns := rest }) ∧
  (∀ (s : State) (i : Instr), s.busy = true → s.device = none → decode s.cmd = some i →
    s.turns = [] → step s = exec i s) ∧
  ∀ (s : State) (w : Nat) (i : Instr), decode (BitVec.ofNat 32 (w % 2 ^ 32)) = some i →
    step (s.withFetchWord 32 w) =
      exec i { s.issue (BitVec.ofNat 32 (w % 2 ^ 32)) with turns := s.turns }

/-- R126, R335. A word that is illegal fails with IllegalCommand and changes nothing beyond STATUS. -/
def Obligations.IllegalWordFails : Prop :=
  ∀ (s : State) (rest : List Turn), s.busy = true → s.device = none → s.temp = none →
    wordWellFormed s.cmd = false → s.turns = .command :: rest →
    step s = .next { s with busy := false, err := true, errCode := 4, turns := rest }

/-- R371, R351. An idle unit keeps all its state: the CP's moves change nothing. -/
def Obligations.IdleUnitKeepsState : Prop :=
  ∀ (s : State) (m : Turn) (rest : List Turn), s.busy = false → s.device = none →
    m ∈ [Turn.command, .launch, .proceed, .deviceFail] → s.turns = m :: rest →
    step s = .next { s with turns := rest }

/-- R36, R35. Every command completes: ERR is written with ERRCODE, BUSY is cleared in that step, nothing
the command held is left, and the outcome does not depend on the ERR and ERRCODE of the command before. So
does every step that ends a command, whichever agent makes it. Only a CMD write sets BUSY, and every step
after which BUSY is 1 leaves RESULT, ERR and ERRCODE at the values of the previous command. -/
def Obligations.EveryCommandCompletes : Prop :=
  (∀ (i : Instr) (s : State),
    (∃ t, exec i s = .next t ∧ Completed t t.errCode) ∧
    ∀ (e : Bool) (c : BitVec 8), exec i { s with err := e, errCode := c } = exec i s) ∧
  (∀ s t : State, s.busy = true → step s = .next t → t.busy = false → Completed t t.errCode) ∧
  (∀ s t : State, s.busy = false → step s = .next t → t.busy = true →
    (∃ v rest, s.turns = .access (.write 0x00 v) :: rest) ∨
      ((s.turns = [] ∨ ∃ rest, s.turns = .host :: rest) ∧ s.hostWrites .cmd)) ∧
  ∀ s t : State, step s = .next t → t.busy = true →
    t.result = s.result ∧ t.err = s.err ∧ t.errCode = s.errCode

/-- R33. RESULT is written only by MGET, MEQ, MRDW and MDIM, and only when they complete without error; a
host cannot write it; and no step of any agent but reset and the end of such a command changes it. -/
def Obligations.ResultWrittenByQueriesOnly : Prop :=
  (∀ (i : Instr) (s t : State), exec i s = .next t → t.result ≠ s.result →
    isQuery i = true ∧ t.errCode = 0) ∧
  (∀ (s : State) (a : HostAccess), (s.access a).result = s.result) ∧
  ∀ s t : State, step s = .next t → t.result ≠ s.result →
    (∃ c rest, s.turns = .reset c :: rest) ∨
      (s.busy = true ∧ t.busy = false ∧ t.errCode = 0 ∧
        ∃ i, decode s.cmd = some i ∧ isQuery i = true)

/-- R32, R33, R37, R47, R122, R204. What every command leaves unchanged: the argument registers, OVR, the
configuration, RESULT unless it is a query, and every slot but its RD, operands of a multiply included.
Every move of the CP, of a work-item, of a barrier and of the environment leaves the same registers, and
the moves inside a dispatch change nothing but the device. -/
def Obligations.CommandFrame : Prop :=
  (∀ (i : Instr) (s t : State), exec i s = .next t →
    KeepsControl s t ∧ (isQuery i = false → t.result = s.result) ∧
    ∀ j, destSlot i ≠ some j → t.slot j = s.slot j) ∧
  (∀ (s t : State) (m : Turn) (rest : List Turn), m.ofUnit = true → s.turns = m :: rest →
    step s = .next t → KeepsControl { s with turns := rest } t) ∧
  ∀ (s t : State) (m : Turn) (rest : List Turn),
    ((∃ g n, m = .workItem g n) ∨ ∃ g, m = .barrier g) → s.turns = m :: rest →
    step s = .next t → t = { s with turns := rest, device := t.device }

/-- R18: a draw is fresh. No step takes back the count of the draws answered or of the dispatches begun,
and no command but MRAND and the multiplies takes a draw. The counts are the model's own (log 3, log 4). -/
def Obligations.DrawsAreFresh : Prop :=
  (∀ s t : State, step s = .next t → s.draws ≤ t.draws ∧ s.dispatches ≤ t.dispatches) ∧
  ∀ (i : Instr) (s t : State), exec i s = .next t → t.draws ≠ s.draws →
    (∃ rd, i = .mrand rd) ∨ ∃ v rd ra rb, i = mulCommand v rd ra rb

/-- R331. Every command completes with 0 or with a code of its rows. -/
def Obligations.ErrorCodesPerCommand : Prop :=
  ∀ (i : Instr) (s t : State), exec i s = .next t → t.errCode = 0 ∨ t.errCode ∈ errorCodes i

/-- R340. After a failure the state is the state before the command but for STATUS, unless the error is
DeviceFault: then the data of a valid RD may differ, and nothing else of the matrix store or RESULT. That a failure
other than DeviceFault changes nothing but STATUS is the spec's own inference (R340, "derived"). -/
def Obligations.FailuresArePrecise : Prop :=
  ∀ (i : Instr) (s t : State), s.device = none → s.temp = none → exec i s = .next t →
    t.errCode ≠ 0 →
      t = { s with busy := false, err := true, errCode := t.errCode } ∨
      (t.errCode = 3 ∧ KeepsControl s t ∧ t.result = s.result ∧ Completed t 3 ∧
        ∀ j, (destSlot i ≠ some j → t.slot j = s.slot j) ∧ (s.slot j = none → t.slot j = none) ∧
          ∀ x, s.slot j = some x → ∃ y, t.slot j = some y ∧ y.rows = x.rows ∧ y.cols = x.cols ∧
            y.wpr = x.wpr)

/-! ### BitMatrix commands (spec/40_bitmatrix.md) -/

/-- R153. MALLOC. -/
def Obligations.MallocCreatesZeroMatrix : Prop :=
  (∀ w : CmdWord, w &&& 0xFFFFF0FF = 0x00000001 → decode w = some (.malloc (rdField w))) ∧
  ∀ (rd : SlotNo) (s : State),
    (s.a0.toNat ≤ s.config.maxDim → s.a1.toNat ≤ s.config.maxDim →
      s.usage - s.slotWords rd + s.a0.toNat * ((s.a1.toNat + 63) / 64) ≤ s.config.hostMemWords →
      ∃ t x, exec (.malloc rd) s = .next t ∧ t.slot rd = some x ∧ x.rows = s.a0.toNat ∧
        x.cols = s.a1.toNat ∧ x.wpr = (s.a1.toNat + 63) / 64 ∧
        x.data = List.replicate (x.rows * x.wpr) 0 ∧ Completed t 0 ∧
        KeepsOtherSlots s t rd ∧ t.result = s.result ∧ KeepsControl s t) ∧
    (s.config.maxDim < s.a0.toNat ∨ s.config.maxDim < s.a1.toNat ∨
        s.config.hostMemWords <
          s.usage - s.slotWords rd + s.a0.toNat * ((s.a1.toNat + 63) / 64) →
      ∃ t, exec (.malloc rd) s = .next t ∧ Completed t 7 ∧ KeepsSlots s t ∧
        t.result = s.result ∧ KeepsControl s t)

/-- R154. MFREE. -/
def Obligations.MfreeDestroysMatrix : Prop :=
  (∀ w : CmdWord, w &&& 0xFFFFF0FF = 0x00000002 → decode w = some (.mfree (rdField w))) ∧
  ∀ (rd : SlotNo) (s : State),
    (∀ x, s.slot rd = some x →
      ∃ t, exec (.mfree rd) s = .next t ∧ t.slot rd = none ∧ t.usage + x.rows * x.wpr = s.usage ∧
        Completed t 0 ∧ KeepsOtherSlots s t rd ∧ t.result = s.result ∧ KeepsControl s t) ∧
    (s.slot rd = none →
      ∃ t, exec (.mfree rd) s = .next t ∧ Completed t 5 ∧ KeepsSlots s t ∧
        t.result = s.result ∧ KeepsControl s t)

/-- R155, R150. MGET: the bit of word r*wpr + c/64 at c%64, 0 out of range. -/
def Obligations.MgetReadsOneBit : Prop :=
  (∀ w : CmdWord, w &&& 0xFFFF0FFF = 0x00000003 → decode w = some (.mget (raField w))) ∧
  ∀ (ra : SlotNo) (s : State),
    (∀ x, s.slot ra = some x →
      ∃ t, exec (.mget ra) s = .next t ∧
        t.result = (if s.a0.toNat < x.rows ∧ s.a1.toNat < x.cols ∧
          (x.data.getD (s.a0.toNat * x.wpr + s.a1.toNat / 64) 0).getLsbD (s.a1.toNat % 64) = true
          then 1 else 0) ∧
        Completed t 0 ∧ KeepsSlots s t ∧ KeepsControl s t) ∧
    (s.slot ra = none →
      ∃ t, exec (.mget ra) s = .next t ∧ Completed t 5 ∧ KeepsSlots s t ∧
        t.result = s.result ∧ KeepsControl s t)

/-- R156, R151. MSET: in range, exactly bit c%64 of word r*wpr + c/64 becomes bit 0 of a2; out of range,
no bit changes. A later Get at (r, c) gives that bit. -/
def Obligations.MsetWritesOneBit : Prop :=
  (∀ w : CmdWord, w &&& 0xFFFFF0FF = 0x00000004 → decode w = some (.mset (rdField w))) ∧
  ∀ (rd : SlotNo) (s : State),
    (∀ x, s.slot rd = some x → x.wf = true →
      ∃ t y, exec (.mset rd) s = .next t ∧ t.slot rd = some y ∧ y.rows = x.rows ∧
        y.cols = x.cols ∧ y.wpr = x.wpr ∧ y.data.length = x.data.length ∧
        (∀ q b, b < 64 → (y.memRead q).getLsbD b =
          if s.a0.toNat < x.rows ∧ s.a1.toNat < x.cols ∧
            q = s.a0.toNat * x.wpr + s.a1.toNat / 64 ∧ b = s.a1.toNat % 64
          then s.a2.getLsbD 0 else (x.memRead q).getLsbD b) ∧
        (∀ r c, y.get r c = if r = s.a0.toNat ∧ c = s.a1.toNat ∧ r < x.rows ∧ c < x.cols
          then s.a2.getLsbD 0 else x.get r c) ∧
        Completed t 0 ∧ KeepsOtherSlots s t rd ∧ t.result = s.result ∧ KeepsControl s t) ∧
    (s.slot rd = none →
      ∃ t, exec (.mset rd) s = .next t ∧ Completed t 5 ∧ KeepsSlots s t ∧
        t.result = s.result ∧ KeepsControl s t)

/-- R157, R18. MRAND: every data word, padding included, is a draw of its own, and the draws taken are used
up; the shape stays. A statement about draws
holds for every value of them; that they are numbered is the model's choice (log 3). -/
def Obligations.MrandDrawsEveryWord : Prop :=
  (∀ w : CmdWord, w &&& 0xFFFFF0FF = 0x00000005 → decode w = some (.mrand (rdField w))) ∧
  ∀ (rd : SlotNo) (s : State),
    (∀ x, s.slot rd = some x →
      ∃ t y, exec (.mrand rd) s = .next t ∧ t.slot rd = some y ∧ y.rows = x.rows ∧
        y.cols = x.cols ∧ y.wpr = x.wpr ∧ y.data.length = x.rows * x.wpr ∧
        (∀ q, q < x.rows * x.wpr → y.memRead q = Config.draw64 (s.draws + q)) ∧
        t.draws = s.draws + x.rows * x.wpr ∧
        Completed t 0 ∧ KeepsOtherSlots s t rd ∧ t.result = s.result ∧ KeepsControl s t) ∧
    (s.slot rd = none →
      ∃ t, exec (.mrand rd) s = .next t ∧ Completed t 5 ∧ KeepsSlots s t ∧
        t.result = s.result ∧ KeepsControl s t ∧ t.draws = s.draws)

/-- R159, R158. MTRANS: shape, bits and cleared padding of the result, with RD = RA allowed; the capacity
failure; and that transposing twice gives a matrix equal under MEQ. The cleared padding and the last are
the spec's own inferences (R158, R159, "derived"). -/
def Obligations.MtransTransposes : Prop :=
  (∀ w : CmdWord, w &&& 0xFFFF00FF = 0x00000006 →
    decode w = some (.mtrans (rdField w) (raField w))) ∧
  (∀ (rd ra : SlotNo) (s : State) (x : BitMatrix), s.slot ra = some x →
    (x.cols ≤ s.config.maxDim → x.rows ≤ s.config.maxDim →
      s.usage - s.slotWords rd + x.cols * ((x.rows + 63) / 64) ≤ s.config.hostMemWords →
      ∃ t y, exec (.mtrans rd ra) s = .next t ∧ t.slot rd = some y ∧ y.rows = x.cols ∧
        y.cols = x.rows ∧ y.wf = true ∧ (∀ c r, y.get c r = x.get r c) ∧
        (∀ c p, c < y.rows → y.cols % 64 ≠ 0 → y.cols % 64 ≤ p → p < 64 →
          (y.memRead (c * y.wpr + (y.wpr - 1))).getLsbD p = false) ∧
        Completed t 0 ∧ KeepsOtherSlots s t rd ∧ t.result = s.result ∧ KeepsControl s t) ∧
    (s.config.maxDim < x.cols ∨ s.config.maxDim < x.rows ∨
        s.config.hostMemWords < s.usage - s.slotWords rd + x.cols * ((x.rows + 63) / 64) →
      ∃ t, exec (.mtrans rd ra) s = .next t ∧ Completed t 7 ∧ KeepsSlots s t ∧
        t.result = s.result ∧ KeepsControl s t)) ∧
  (∀ (rd ra : SlotNo) (s : State), s.slot ra = none →
    ∃ t, exec (.mtrans rd ra) s = .next t ∧ Completed t 5 ∧ KeepsSlots s t ∧
      t.result = s.result ∧ KeepsControl s t) ∧
  ∀ x : BitMatrix, sameBits x (transpose (transpose x)) = true

/-- R160. MEQ: 1 exactly for equal shapes and equal valid bits, so padding never matters; RA is checked
before RB. -/
def Obligations.MeqComparesValidBits : Prop :=
  (∀ w : CmdWord, w &&& 0xFFF00FFF = 0x00000007 →
    decode w = some (.meq (raField w) (rbField w))) ∧
  (∀ (ra rb : SlotNo) (s : State) (x y : BitMatrix), s.slot ra = some x → s.slot rb = some y →
    ∃ t, exec (.meq ra rb) s = .next t ∧ (t.result = 0 ∨ t.result = 1) ∧
      (t.result = 1 ↔ x.rows = y.rows ∧ x.cols = y.cols ∧
        ∀ r c, r < x.rows → c < x.cols → x.get r c = y.get r c) ∧
      Completed t 0 ∧ KeepsSlots s t ∧ KeepsControl s t) ∧
  ∀ (ra rb : SlotNo) (s : State), s.slot ra = none ∨ s.slot rb = none →
    ∃ t, exec (.meq ra rb) s = .next t ∧ Completed t 5 ∧ KeepsSlots s t ∧
      t.result = s.result ∧ KeepsControl s t

/-- R161. MRDW: the raw word, padding bits as stored, 0 out of range. -/
def Obligations.MrdwReadsRawWord : Prop :=
  (∀ w : CmdWord, w &&& 0xFFFF0FFF = 0x00000008 → decode w = some (.mrdw (raField w))) ∧
  ∀ (ra : SlotNo) (s : State),
    (∀ x, s.slot ra = some x → x.wf = true →
      ∃ t, exec (.mrdw ra) s = .next t ∧
        (∀ v, x.data[s.a0.toNat]? = some v → t.result = v) ∧
        (x.rows * x.wpr ≤ s.a0.toNat → t.result = 0) ∧
        Completed t 0 ∧ KeepsSlots s t ∧ KeepsControl s t) ∧
    (s.slot ra = none →
      ∃ t, exec (.mrdw ra) s = .next t ∧ Completed t 5 ∧ KeepsSlots s t ∧
        t.result = s.result ∧ KeepsControl s t)

/-- R162. MWRW: the one word at the index becomes a1, every other word stays; out of range nothing
changes. -/
def Obligations.MwrwWritesRawWord : Prop :=
  (∀ w : CmdWord, w &&& 0xFFFFF0FF = 0x00000009 → decode w = some (.mwrw (rdField w))) ∧
  ∀ (rd : SlotNo) (s : State),
    (∀ x, s.slot rd = some x → x.wf = true →
      ∃ t y, exec (.mwrw rd) s = .next t ∧ t.slot rd = some y ∧ y.rows = x.rows ∧
        y.cols = x.cols ∧ y.wpr = x.wpr ∧ y.data.length = x.data.length ∧
        (s.a0.toNat < x.rows * x.wpr → y.memRead s.a0.toNat = s.a1) ∧
        (∀ q, q ≠ s.a0.toNat → y.memRead q = x.memRead q) ∧
        (x.rows * x.wpr ≤ s.a0.toNat → y = x) ∧
        Completed t 0 ∧ KeepsOtherSlots s t rd ∧ t.result = s.result ∧ KeepsControl s t) ∧
    (s.slot rd = none →
      ∃ t, exec (.mwrw rd) s = .next t ∧ Completed t 5 ∧ KeepsSlots s t ∧
        t.result = s.result ∧ KeepsControl s t)

/-- R163. MDIM: cols in bits 63:32 and rows in bits 31:0 of RESULT, for every shape within MAXDIM. -/
def Obligations.MdimReadsShape : Prop :=
  (∀ w : CmdWord, w &&& 0xFFFF0FFF = 0x0000000A → decode w = some (.mdim (raField w))) ∧
  ∀ (ra : SlotNo) (s : State),
    (∀ x, s.slot ra = some x → s.config.legal = true → s.DimsBounded →
      ∃ t, exec (.mdim ra) s = .next t ∧ (t.result.extractLsb' 32 32).toNat = x.cols ∧
        (t.result.extractLsb' 0 32).toNat = x.rows ∧
        Completed t 0 ∧ KeepsSlots s t ∧ KeepsControl s t) ∧
    (s.slot ra = none →
      ∃ t, exec (.mdim ra) s = .next t ∧ Completed t 5 ∧ KeepsSlots s t ∧
        t.result = s.result ∧ KeepsControl s t)

/-! ### Multiply commands (spec/41_multiply_common.md to spec/45_m4r.md) -/

/-- R201, R206, R207, R331. The front end of every multiply command: which capability bits each needs, the
words its temporary, its fresh destination and its device buffers take, the words in use, and that the first
check that fails decides the error, and then nothing but STATUS changes. The codes are those of R331:
ShapeMismatch 1, BackendUnavailable 2, InvalidSlot 5, AliasedOperands 6, ResourceExhausted 7. -/
def Obligations.MulFrontEndOrder : Prop :=
  (∀ c : Config, backendReady c .muls = true ∧ backendReady c .mulv = c.capSimd ∧
    backendReady c .mulvg = (c.capDev && c.capPipeVec) ∧
    backendReady c .mult = (c.capDev && c.capPipeTiled) ∧
    backendReady c .mul4r = (c.capDev && c.capPipeM4rBuild && c.capPipeM4rMul)) ∧
  (∀ a b : BitMatrix,
    let m := a.rows
    let k := a.cols
    let n := b.cols
    let wprA := (k + 63) / 64
    let wprB := (n + 63) / 64
    (tempWords .muls a b = 0 ∧ tempWords .mulv a b = n * wprA ∧ tempWords .mulvg a b = n * wprA ∧
      tempWords .mult a b = 0 ∧ tempWords .mul4r a b = 0) ∧
    (deviceWords .muls a b = 0 ∧ deviceWords .mulv a b = 0 ∧
      deviceWords .mulvg a b = m * wprA + n * wprA + m * wprB ∧
      deviceWords .mult a b = m * wprA + k * wprB + m * wprB ∧
      deviceWords .mul4r a b = m * wprA + k * wprB + m * wprB + 8 * wprA * 256 * wprB)) ∧
  (∀ (s : State) (rd : SlotNo) (m n : Nat),
    s.freshWords rd m n = (if (s.slot rd).isSome then 0 else m * ((n + 63) / 64)) ∧
    s.usage = ((List.finRange 16).map fun i => match s.slot i with
      | some x => x.rows * x.wpr
      | none => 0).sum) ∧
  ∀ (v : Variant) (rd ra rb : SlotNo) (s : State),
    let fails := fun code : BitVec 8 => exec (mulCommand v rd ra rb) s = .next { s with
      busy := false, err := true, errCode := code, temp := none, device := none }
    (s.slot ra = none → fails 5) ∧
    ∀ a, s.slot ra = some a →
      (s.slot rb = none → fails 5) ∧
      ∀ b, s.slot rb = some b →
        (a.cols ≠ b.rows → fails 1) ∧
        (a.cols = b.rows →
          (rd = ra ∨ rd = rb → fails 6) ∧
          (rd ≠ ra → rd ≠ rb →
            (∀ c, s.slot rd = some c → c.rows ≠ a.rows ∨ c.cols ≠ b.cols → fails 1) ∧
            ((∀ c, s.slot rd = some c → c.rows = a.rows ∧ c.cols = b.cols) →
              (backendReady s.config v = false → fails 2) ∧
              (backendReady s.config v = true →
                s.config.hostMemWords <
                    s.usage + s.freshWords rd a.rows b.cols + tempWords v a b ∨
                  s.config.devMemWords < deviceWords v a b →
                fails 7))))

/-- R230, R203. MULS leaves the product. Here and below, that the padding of a row is one draw, and which
one, is the model's choice (log 3, log 6). -/
def Obligations.MulsComputesProduct : Prop :=
  ∀ (rd ra rb : SlotNo) (s : State) (a b : BitMatrix), Memory.wf s.slots = true →
    MulReady s .muls rd ra rb a b →
    ∃ t, exec (.muls rd ra rb) s = .next t ∧ ProductState s t rd a b

/-- R242, R203, R246. MULV leaves the product, for every number of lanes. -/
def Obligations.MulvComputesProduct : Prop :=
  ∀ (rd ra rb : SlotNo) (s : State) (a b : BitMatrix), Memory.wf s.slots = true →
    MulReady s .mulv rd ra rb a b →
    ∃ t, exec (.mulv rd ra rb) s = .next t ∧ ProductState s t rd a b

/-- R244, R203, R246. MULVG leaves the product when its dispatch is not failed. -/
def Obligations.MulvgComputesProduct : Prop :=
  ∀ (rd ra rb : SlotNo) (s : State) (a b : BitMatrix), Memory.wf s.slots = true →
    MulReady s .mulvg rd ra rb a b → dispatchFails s.config s.dispatches = false →
    ∃ t, exec (.mulvg rd ra rb) s = .next t ∧ ProductState s t rd a b

/-- R260, R203, R270. MULT leaves the product when its dispatch is not failed. -/
def Obligations.MultComputesProduct : Prop :=
  ∀ (rd ra rb : SlotNo) (s : State) (a b : BitMatrix), Memory.wf s.slots = true →
    MulReady s .mult rd ra rb a b → dispatchFails s.config s.dispatches = false →
    ∃ t, exec (.mult rd ra rb) s = .next t ∧ ProductState s t rd a b

/-- R280, R203, R292. MUL4R leaves the product when neither dispatch is failed. -/
def Obligations.Mul4rComputesProduct : Prop :=
  ∀ (rd ra rb : SlotNo) (s : State) (a b : BitMatrix), Memory.wf s.slots = true →
    MulReady s .mul4r rd ra rb a b → dispatchFails s.config s.dispatches = false →
    dispatchFails s.config (s.dispatches + 1) = false →
    ∃ t, exec (.mul4r rd ra rb) s = .next t ∧ ProductState s t rd a b

/-- R211. The five multiply commands leave equal valid bits, those of Prod(A, B), whatever the padding of
A and B and for all dimensions. -/
def Obligations.AllMultipliersAgree : Prop :=
  ∀ (rd ra rb : SlotNo) (s : State) (a b : BitMatrix), Memory.wf s.slots = true →
    s.config.deviceFaults = false → (∀ v, MulReady s v rd ra rb a b) →
    ∃ c : Variant → BitMatrix,
      (∀ v, ∃ t, exec (mulCommand v rd ra rb) s = .next t ∧ t.slot rd = some (c v)) ∧
      (∀ v i j, i < a.rows → j < b.cols → (c v).get i j = prodBit a b i j) ∧
      ∀ v w, sameBits (c v) (c w) = true

/-- R212. The algebraic laws: identity, all-zero operand, k = 0. The spec's own inference ("derived"). -/
def Obligations.AlgebraicLawsOfProducts : Prop :=
  ∀ (v : Variant) (rd ra rb : SlotNo) (s : State) (a b : BitMatrix), Memory.wf s.slots = true →
    s.config.deviceFaults = false → MulReady s v rd ra rb a b →
    ∃ t c, exec (mulCommand v rd ra rb) s = .next t ∧ t.slot rd = some c ∧
      c.rows = a.rows ∧ c.cols = b.cols ∧
      (a.rows = a.cols → (∀ i j, i < a.rows → j < a.cols → a.get i j = decide (i = j)) →
        sameBits c b = true) ∧
      (b.rows = b.cols → (∀ i j, i < b.rows → j < b.cols → b.get i j = decide (i = j)) →
        sameBits c a = true) ∧
      ((∀ i j, a.get i j = false) ∨ (∀ i j, b.get i j = false) ∨ a.cols = 0 →
        ∀ i j, i < a.rows → j < b.cols → c.get i j = false)

/-- R209. A dispatch the environment fails: ERRCODE is DeviceFault, the buffers are released, each data
word of a valid RD is a draw, an invalid RD stays invalid, and nothing else changes. With
DEVICE_FAULTS = 0, and after it is complete, no dispatch fails. Whether the environment fails a dispatch is
a free value, so the statement holds for either answer. The numbering of the draws and of the oracle's
answers is the model's choice (log 3, log 4). -/
def Obligations.DeviceFaultOutcome : Prop :=
  (∀ (v : Variant) (rd ra rb : SlotNo) (s : State) (a b : BitMatrix),
    MulReady s v rd ra rb a b → v = .mulvg ∨ v = .mult ∨ v = .mul4r →
    s.config.deviceFaults = true →
    let failed := Config.dispatchFails s.dispatches ||
      (v == .mul4r && Config.dispatchFails (s.dispatches + 1))
    ∃ t, exec (mulCommand v rd ra rb) s = .next t ∧ Completed t (if failed then 3 else 0) ∧
      KeepsOtherSlots s t rd ∧ t.result = s.result ∧ KeepsControl s t ∧
      t.dispatches = s.dispatches +
        (if v = .mul4r ∧ Config.dispatchFails s.dispatches = false then 2 else 1) ∧
      (failed = true → t.draws = s.draws + s.slotWords rd ∧
        (s.slot rd = none → t.slot rd = none) ∧
        ∀ x, s.slot rd = some x → ∃ y, t.slot rd = some y ∧ y.rows = x.rows ∧ y.cols = x.cols ∧
          y.wpr = x.wpr ∧ y.data.length = x.rows * x.wpr ∧
          ∀ q, q < x.rows * x.wpr → y.memRead q = Config.draw64 (s.draws + q))) ∧
  (∀ (s : State) (d : Device) (rest : List Turn), s.device = some d → d.finished = false →
    s.config.deviceFaults = true → s.turns = .deviceFail :: rest →
    ∃ t, step s = .next t ∧ Completed t 3 ∧ KeepsOtherSlots s t d.dest ∧ t.result = s.result ∧
      KeepsControl { s with turns := rest } t ∧ t.draws = s.draws + s.slotWords d.dest ∧
      (s.slot d.dest = none → t.slot d.dest = none) ∧
      ∀ x, s.slot d.dest = some x → ∃ y, t.slot d.dest = some y ∧ y.rows = x.rows ∧
        y.cols = x.cols ∧ y.wpr = x.wpr ∧ y.data.length = x.rows * x.wpr ∧
        ∀ q, q < x.rows * x.wpr → y.memRead q = Config.draw64 (s.draws + q)) ∧
  (∀ (i : Instr) (s t : State), s.config.deviceFaults = false → exec i s = .next t →
    t.errCode ≠ 3) ∧
  ∀ (s : State) (rest : List Turn),
    s.config.deviceFaults = false ∨ (∃ d, s.device = some d ∧ d.finished = true) →
    s.turns = .deviceFail :: rest → step s = .next { s with turns := rest }

/-- R243. The result of the lanes does not depend on how many there are. The spec's own inference
("derived"). -/
def Obligations.LanesDoNotMatter : Prop :=
  ∀ (l : SimdLanes) (W : Nat) (f : Nat → Word), simdXor l.count W f = xorWords W f

/-- R241. DotParity(i, j) is Prod(A, B)(i, j), whatever the padding of A and B. The spec's own inference
("derived"). -/
def Obligations.DotParityIsProduct : Prop :=
  ∀ a b : BitMatrix, a.wf = true → b.wf = true → a.cols = b.rows →
    ∀ i j, i < a.rows → j < b.cols →
      parity (xorWords a.wpr fun t =>
        a.memRead (i * a.wpr + t) &&& (transpose b).memRead (j * a.wpr + t)) = prodBit a b i j

/-- R285, R286. The table of MUL4R after phase 1: key 0 is the zero vector, a single-bit key is a row of B
or zero, a multi-bit key is the XOR of the entries of its lowest set bit and of the remaining bits. -/
def Obligations.TableEntriesAfterPhaseOne : Prop :=
  ∀ d : Device, d.kernel = .m4rBuild →
    d.bufT.length = 8 * d.desc.aWpr * 256 * d.desc.bWpr →
    ∀ t w, t < 8 * d.desc.aWpr → w < d.desc.bWpr →
      let entry := fun key => d.runKernel.word .t ((t * 256 + key) * d.desc.bWpr + w)
      entry 0 = 0 ∧
      (∀ i, i < 8 → entry (2 ^ i) =
        if 8 * t + i < d.desc.aCols then d.word .b ((8 * t + i) * d.desc.bWpr + w) else 0) ∧
      ∀ key, 0 < key → key < 256 →
        entry key = entry (lowestSetBit key) ^^^ entry (key ^^^ lowestSetBit key)

/-- R292. The word phase 2 of MUL4R stores, from the table of phase 1, is the XOR of the words of the rows
of B that row i of A selects; A's padding selects nothing. The spec's own inference ("derived"). -/
def Obligations.TableLookupIsRowCombination : Prop :=
  ∀ d : Device, d.kernel = .m4rBuild → d.desc.aWpr = wordsPerRow d.desc.aCols →
    d.bufT.length = 8 * d.desc.aWpr * 256 * d.desc.bWpr →
    ∀ i w, w < d.desc.bWpr →
      m4rWord d.runKernel i w =
        xorWords d.desc.aCols fun q =>
          if aBit d i q = true then d.word .b (q * d.desc.bWpr + w) else 0

/-! ### The device, work-item by work-item (spec/20_memory.md, R208, R213, R245, R262) -/

/-- R208, R213, R240, R244, R261, R269, R283. The start of the device phase: the CP's launch of a GPU
multiply that passes its front end uploads A and B, or Transpose(B) for MULVG, zeroes bufC for MULT,
starts the command's first dispatch with a work-item at the kernel's first site for every (x, y) of the
problem, and changes no slot. The model's choices: that dispatches are numbered, by State.dispatches and
dispatchNo (log 4), and that the acquisition and the transfers are one step with the start (log 25). -/
def Obligations.LaunchUploadsOperands : Prop :=
  ∀ (v : Variant) (rd ra rb : SlotNo) (s : State) (a b : BitMatrix) (rest : List Turn),
    v = .mulvg ∨ v = .mult ∨ v = .mul4r → Memory.wf s.slots = true → s.busy = true →
    s.device = none → decode s.cmd = some (mulCommand v rd ra rb) →
    s.turns = .launch :: rest → MulReady s v rd ra rb a b →
    ∃ t d, step s = .next t ∧ t.device = some d ∧ t.busy = true ∧ KeepsSlots s t ∧
      t.result = s.result ∧ t.err = s.err ∧ t.errCode = s.errCode ∧
      KeepsControl { s with turns := rest } t ∧ t.draws = s.draws ∧
      t.dispatches = s.dispatches + 1 ∧ d.dispatchNo = s.dispatches ∧ d.dest = rd ∧
      d.desc = descriptorOf a b ∧ d.bufA = a.data ∧
      (v = .mulvg → d.kernel = .vec ∧
        DispatchStarted d 16 (wordsPerRow b.cols) a.rows .v0) ∧
      (v = .mult → d.kernel = .tiled ∧ DispatchStarted d 32 b.cols a.rows .t0 ∧
        ∀ g ∈ d.groups, g.ta.length = 32 * 32 ∧ g.tb.length = 32 * 32) ∧
      (v = .mul4r → d.kernel = .m4rBuild ∧
        DispatchStarted d 16 (wordsPerRow b.cols) (8 * wordsPerRow a.cols) .p0) ∧
      (v = .mulvg → d.bufBT = (transpose b).data ∧ t.temp = some (transpose b)) ∧
      (v ≠ .mulvg → d.bufB = b.data ∧ t.temp = none) ∧
      (v = .mult → d.bufC = List.replicate (a.rows * wordsPerRow b.cols) 0) ∧
      d.bufC.length = a.rows * wordsPerRow b.cols ∧
      (v = .mul4r → d.bufT.length = 8 * wordsPerRow a.cols * 256 * wordsPerRow b.cols) ∧
      d.size = deviceWords v a b

/-- R93, R94, R208, R289, R293. The CP goes on only after a complete dispatch: from phase 1 of MUL4R to
phase 2, whose grid it starts with every buffer as phase 1 left it, otherwise with the download into RD, the
release of the buffers and completion. The model's choices: that dispatches are numbered, by
State.dispatches and dispatchNo (log 4), one draw a row for the padding (log 6), the numbering of draws
(log 3), and the download in one step with the completion (log 25). -/
def Obligations.ProceedAfterDispatch : Prop :=
  ∀ (s : State) (d : Device) (rest : List Turn), s.device = some d → s.turns = .proceed :: rest →
    (d.finished = false → step s = .next { s with turns := rest }) ∧
    (d.finished = true → d.kernel = .m4rBuild →
      ∃ t e, step s = .next t ∧ t.device = some e ∧ e.kernel = .m4rMul ∧ e.bufA = d.bufA ∧
        e.bufB = d.bufB ∧ e.bufBT = d.bufBT ∧ e.bufC = d.bufC ∧ e.bufT = d.bufT ∧
        e.desc = d.desc ∧ e.dest = d.dest ∧ DispatchStarted e 16 d.desc.cWpr d.desc.aRows .q0 ∧
        e.dispatchNo = s.dispatches ∧ t.dispatches = s.dispatches + 1 ∧ t.draws = s.draws ∧
        t.busy = s.busy ∧ t.result = s.result ∧ t.temp = s.temp ∧ KeepsSlots s t ∧
        KeepsControl { s with turns := rest } t) ∧
    (d.finished = true → d.kernel ≠ .m4rBuild →
      d.bufC.length = d.desc.cRows * wordsPerRow d.desc.cCols →
      ∃ t c, step s = .next t ∧ Completed t 0 ∧ t.slot d.dest = some c ∧
        c.rows = d.desc.cRows ∧ c.cols = d.desc.cCols ∧ c.wf = true ∧
        (∀ i j, i < c.rows → j < c.cols → c.get i j =
          (d.word .c (i * wordsPerRow d.desc.cCols + j / 64)).getLsbD (j % 64)) ∧
        t.draws = s.draws + (if d.desc.cCols % 64 = 0 then 0 else d.desc.cRows) ∧
        KeepsOtherSlots s t d.dest ∧ t.result = s.result ∧
        KeepsControl { s with turns := rest } t)

/-- R95, R99, R245, R268, R284, R290. The frame of a work-item's step. It stores at most one device word,
the one storedWord computes, and leaves there the word that it computes; every other word of every buffer,
every other group and every other work-item stay. A site of which storedWord gives nothing stores nothing.
That the kernels keep to this is the spec's own inference (R95, "derived"). -/
def Obligations.WorkItemWriteDiscipline : Prop :=
  (∀ (d d' : Device) (gi n : Nat) (g : Group) (it : WorkItem), d.groups[gi]? = some g →
    g.items[n]? = some it → d.stepItem gi n = .ok d' →
    (storedWord d g it = none → d'.bufA = d.bufA ∧ d'.bufB = d.bufB ∧ d'.bufBT = d.bufBT ∧
      d'.bufC = d.bufC ∧ d'.bufT = d.bufT) ∧
    (∀ x q v, storedWord d g it = some (x, q, v) → d'.word x q = v ∧
      ∀ y p, (y ≠ x ∨ p ≠ q) → d'.word y p = d.word y p) ∧
    (∀ y, (d'.buf y).length = (d.buf y).length) ∧
    d'.bufA = d.bufA ∧ d'.bufB = d.bufB ∧ d'.bufBT = d.bufBT ∧
    (d.kernel ≠ .m4rBuild → d'.bufT = d.bufT) ∧ (d.kernel = .m4rBuild → d'.bufC = d.bufC) ∧
    d'.desc = d.desc ∧ d'.kernel = d.kernel ∧ d'.dest = d.dest ∧ d'.dispatchNo = d.dispatchNo ∧
    d'.groups.length = d.groups.length ∧ (∀ h, h ≠ gi → d'.groups[h]? = d.groups[h]?) ∧
    ∃ g', d'.groups[gi]? = some g' ∧ g'.gx = g.gx ∧ g'.gy = g.gy ∧
      g'.generation = g.generation ∧ (∀ m, m ≠ n → g'.items[m]? = g.items[m]?) ∧
      (∃ p, g'.items[n]? = some { it with pos := p }) ∧
      (d.kernel ≠ .tiled → g'.ta = g.ta ∧ g'.tb = g.tb ∧ g'.waiting = g.waiting)) ∧
  ∀ (d : Device) (gi n : Nat), (∀ g, d.groups[gi]? = some g → g.items[n]? = none) →
    d.stepItem gi n = .ok d

/-- R261 to R264, R266, R268. A step of a work-item of MULT at each of its sites but the barriers: T0 and T1
with the bound ceil_div(k, 32) on the tile steps; T2 and T3 write the cell Ta[local_row][local_col] or
Tb[local_col][local_row] with the bit of A or B, 0 if out of bounds; T5 reads Ta[local_row][t] and
Tb[local_col][t] for t below 32; T7 ORs the bit into the word of bufC. -/
def Obligations.TiledSites : Prop :=
  ∀ (d : Device) (gi n : Nat) (g : Group) (it : WorkItem) (sum : Bool) (s : Nat),
    d.kernel = .tiled → d.groups[gi]? = some g → g.items[n]? = some it →
    d.bufA.length = d.desc.aRows * d.desc.aWpr → d.desc.aWpr = wordsPerRow d.desc.aCols →
    d.bufB.length = d.desc.aCols * d.desc.bWpr → d.desc.bWpr = wordsPerRow d.desc.bCols →
    d.bufC.length = d.desc.aRows * d.desc.cWpr → d.desc.cWpr = wordsPerRow d.desc.bCols →
    let row := g.gy * 32 + it.ly
    let col := g.gx * 32 + it.lx
    let moved := fun (h : Group) (p : Pos) => { d with groups := d.groups.set gi { h with
      items := g.items.set n { it with pos := p } } }
    (it.pos = .t0 → d.stepItem gi n = .ok (moved g (.t1 false 0))) ∧
    (it.pos = .t1 sum s → d.stepItem gi n =
      .ok (moved g (if s < (d.desc.aCols + 31) / 32 then .t2 sum s else .t7 sum))) ∧
    (it.pos = .t2 sum s → d.stepItem gi n =
      let c := s * 32 + it.lx
      let bit := if row < d.desc.aRows ∧ c < d.desc.aCols
        then (d.bufA.getD (row * d.desc.aWpr + c / 64) 0).getLsbD (c % 64) else false
      .ok (moved { g with ta := g.ta.set (it.ly * 32 + it.lx) bit } (.t3 sum s))) ∧
    (it.pos = .t3 sum s → d.stepItem gi n =
      let r := s * 32 + it.ly
      let bit := if r < d.desc.aCols ∧ col < d.desc.bCols
        then (d.bufB.getD (r * d.desc.bWpr + col / 64) 0).getLsbD (col % 64) else false
      .ok (moved { g with tb := g.tb.set (it.lx * 32 + it.ly) bit } (.t4 sum s))) ∧
    (∀ t, it.pos = .t5 sum s t → d.stepItem gi n =
      .ok (moved g (if t < 32
        then .t5 (sum ^^ (g.ta.getD (it.ly * 32 + t) false && g.tb.getD (it.lx * 32 + t) false))
          s (t + 1)
        else .t6 sum s))) ∧
    (it.pos = .t7 sum → d.stepItem gi n =
      let q := row * d.desc.cWpr + col / 64
      .ok { moved g .done with
        bufC := if sum = true ∧ row < d.desc.aRows ∧ col < d.desc.bCols
          then d.bufC.set q (d.bufC.getD q 0 ||| 1#64 <<< (col % 64)) else d.bufC })

/-- R97. The barrier: a work-item at T4 or T6 stops there and is counted; when every work-item of the group
waits at one site in the group's generation, one step releases all of them together, resets the counter
and increments the generation; in every other case, a mismatch of sites or a work-item that never comes
among them, the move changes nothing. A group in which moreover no work-item can step is stuck: no move
of its work-items or of its barrier changes anything, and the dispatch is not complete. -/
def Obligations.BarrierReleasesTogether : Prop :=
  (∀ (d : Device) (g : Group) (it : WorkItem) (gi n : Nat) (sum : Bool) (u : Nat),
    d.kernel = .tiled → d.groups[gi]? = some g → g.items[n]? = some it →
    let arrived := fun p : Pos => { d with groups := d.groups.set gi { g with
      items := g.items.set n { it with pos := p }
      waiting := g.waiting + 1 } }
    (it.pos = .t4 sum u → d.stepItem gi n = .ok (arrived (.t4Wait sum u g.generation))) ∧
    (it.pos = .t6 sum u → d.stepItem gi n = .ok (arrived (.t6Wait sum u g.generation)))) ∧
  ∀ (s : State) (d : Device) (g : Group) (gi : Nat) (rest : List Turn), s.device = some d →
    s.turns = .barrier gi :: rest → d.groups[gi]? = some g → g.items ≠ [] →
    (g.waiting = g.items.length → ∀ next : Pos → Pos,
      ((∀ it ∈ g.items, ∃ sum u, it.pos = .t4Wait sum u g.generation ∧
          next it.pos = .t5 sum u 0) ∨
        (∀ it ∈ g.items, ∃ sum u, it.pos = .t6Wait sum u g.generation ∧
          next it.pos = .t1 sum (u + 1))) →
      step s = .next { s with
        turns := rest
        device := some { d with groups := d.groups.set gi { g with
          items := g.items.map fun it => { it with pos := next it.pos }
          waiting := 0
          generation := g.generation + 1 } } }) ∧
    (g.waiting ≠ g.items.length ∨
        ((∃ it ∈ g.items, ∀ sum u, it.pos ≠ .t4Wait sum u g.generation) ∧
          ∃ it ∈ g.items, ∀ sum u, it.pos ≠ .t6Wait sum u g.generation) →
      step s = .next { s with turns := rest } ∧
        ((∀ it ∈ g.items, it.pos.canStep = false) → (∃ it ∈ g.items, it.pos ≠ .done) →
          d.finished = false ∧ ∀ n, d.stepItem gi n = .ok d))

/-- R98, R89. The order of fetch-ors does not matter, and each word ends as its old value ORed with every
mask applied to it. The spec's own inference ("derived"). -/
def Obligations.FetchOrsCommute : Prop :=
  ∀ (d : Device) (x : Buf) (ops ops' : List (Nat × Word)), ops.Perm ops' →
    ops.foldl (fun e o => e.fetchOr x o.1 o.2) d = ops'.foldl (fun e o => e.fetchOr x o.1 o.2) d ∧
    ∀ q, d.inRange x q = true →
      (ops.foldl (fun e o => e.fetchOr x o.1 o.2) d).word x q =
        (ops.filter fun o => o.1 == q).foldl (fun w o => w ||| o.2) (d.word x q)

/-- R245. A work-item of MULVG, run from V0 to its end, stores its one word, the packed parities, and
reads no word outside its buffers; one outside the problem finishes and stores nothing. -/
def Obligations.VecWorkItemStoresItsWord : Prop :=
  ∀ (d : Device) (gi n : Nat) (g : Group) (it : WorkItem), d.kernel = .vec →
    d.groups[gi]? = some g → g.items[n]? = some it → it.pos = .v0 →
    d.bufA.length = d.desc.aRows * d.desc.aWpr → d.bufBT.length = d.desc.bCols * d.desc.aWpr →
    d.bufC.length = d.desc.aRows * d.desc.cWpr →
    let w := g.gx * 16 + it.lx
    let i := g.gy * 16 + it.ly
    ∃ k d' g', runItem d gi n k = .ok d' ∧ d'.groups[gi]? = some g' ∧
      g'.items[n]? = some { it with pos := .done } ∧
      d'.bufC = if i < d.desc.aRows ∧ w < d.desc.cWpr
        then d.bufC.set (i * d.desc.cWpr + w) (vecWord d i w) else d.bufC

/-- R284. A work-item of phase 1 of MUL4R, run from P0 to its end, stores the 256 entries of its table in
its word column, with the values of R288's closed form (log 16), and no other word of bufT, and reads no
word outside its buffers; one outside the problem finishes and stores nothing. That the entries have these
values is the spec's own inference (R288, "derived" from R285, R286 and R287). -/
def Obligations.BuildWorkItemFillsItsTable : Prop :=
  ∀ (d : Device) (gi n : Nat) (g : Group) (it : WorkItem), d.kernel = .m4rBuild →
    d.groups[gi]? = some g → g.items[n]? = some it → it.pos = .p0 →
    d.bufB.length = d.desc.aCols * d.desc.bWpr →
    d.bufT.length = 8 * d.desc.aWpr * 256 * d.desc.bWpr →
    let w := g.gx * 16 + it.lx
    let t := g.gy * 16 + it.ly
    ∃ k d' g', runItem d gi n k = .ok d' ∧ d'.groups[gi]? = some g' ∧
      g'.items[n]? = some { it with pos := .done } ∧ d'.bufC = d.bufC ∧
      if w < d.desc.bWpr ∧ t < 8 * d.desc.aWpr then
        d'.bufT.length = d.bufT.length ∧
        (∀ key, key < 256 → d'.word .t (tableIndex d.desc t key w) = tableEntry d t key w) ∧
        ∀ q, (∀ key, key < 256 → q ≠ tableIndex d.desc t key w) → d'.word .t q = d.word .t q
      else d'.bufT = d.bufT

/-- R287, R284. NextSamePopcount of a key is the least greater number with the same popcount, and the lowest
set bit of a key is 2^i for the least i whose bit is set in the key. -/
def Obligations.KeyOrder : Prop :=
  ∀ key, 0 < key → key < 256 →
    (let next := nextSamePopcount key
     key < next ∧ popcount (BitVec.ofNat 64 next) = popcount (BitVec.ofNat 64 key) ∧
       ∀ m, key < m → m < next → popcount (BitVec.ofNat 64 m) ≠ popcount (BitVec.ofNat 64 key)) ∧
    ∃ i, i < 8 ∧ lowestSetBit key = 2 ^ i ∧ key.testBit i = true ∧
      ∀ j, j < i → key.testBit j = false

/-- R290, R291. A work-item of phase 2 of MUL4R, run from Q0 to its end, stores its one word, the XOR of
the table entries its chunks select, and reads no word outside its buffers; one outside the problem
finishes and stores nothing. -/
def Obligations.M4rWorkItemStoresItsWord : Prop :=
  ∀ (d : Device) (gi n : Nat) (g : Group) (it : WorkItem), d.kernel = .m4rMul →
    d.groups[gi]? = some g → g.items[n]? = some it → it.pos = .q0 →
    d.bufA.length = d.desc.aRows * d.desc.aWpr →
    d.bufT.length = 8 * d.desc.aWpr * 256 * d.desc.bWpr → d.desc.cWpr = d.desc.bWpr →
    d.bufC.length = d.desc.aRows * d.desc.cWpr →
    let w := g.gx * 16 + it.lx
    let i := g.gy * 16 + it.ly
    ∃ k d' g', runItem d gi n k = .ok d' ∧ d'.groups[gi]? = some g' ∧
      g'.items[n]? = some { it with pos := .done } ∧
      d'.bufC = if w < d.desc.cWpr ∧ i < d.desc.aRows
        then d.bufC.set (i * d.desc.cWpr + w) (m4rWord d i w) else d.bufC

/-! ### Invariants and isolation -/

/-- The invariant holds after reset, for every legal configuration, and at the machine's reset state
(whose configuration is the model's choice, log 2). -/
def Obligations.InvariantAtReset : Prop :=
  (∀ c : Config, c.legal = true → (State.resetWith c).Inv) ∧ State.reset.Inv

/-- R39, R42, R45, R46, R48, R331. Every step of every agent keeps the invariant: the layout and bounds of
every matrix, the capacity of the store and of device memory, a known error code, ERR with ERRCODE, and a
device only while a command is in flight. -/
def Obligations.StepKeepsInvariant : Prop :=
  ∀ s t : State, s.Inv → step s = .next t → t.Inv

/-- R80, R376. No host access and no host statement reaches the matrix store, the device or RESULT, and
while a command runs none reaches the command and its latched operands. -/
def Obligations.HostCannotReachTheStore : Prop :=
  ∀ (s t : State) (m : Turn) (rest : List Turn), (m = .host ∨ ∃ a, m = .access a) →
    s.turns = m :: rest → step s = .next t →
    t.slots = s.slots ∧ t.device = s.device ∧ t.temp = s.temp ∧ t.result = s.result ∧
    (s.busy = true → t.busy = true ∧ t.cmd = s.cmd ∧ t.a0 = s.a0 ∧ t.a1 = s.a1 ∧ t.a2 = s.a2)
end

