-- ==== Sys2Proof/Laws/Bits.lean ====
section
/-! SUPPORT. The bits of the words that Machine/Bits.lean builds, and the parity of an XOR. -/

namespace Sys2Proof.Machine

@[simp] theorem getLsbD_onehot (b i : Nat) :
    (onehot b).getLsbD i = (decide (i = b) && decide (b < 64)) := by
  by_cases hi : i < 64
  · by_cases hb : i < b
    · have : i ≠ b := by omega
      simp [onehot, hb, this]
    · by_cases he : i = b
      · subst he
        simp [onehot, hi]
      · have : i - b ≠ 0 := by omega
        simp [onehot, he, this]
  · have h2 : ¬(i = b ∧ b < 64) := by omega
    rw [BitVec.getLsbD_of_ge _ _ (by omega)]
    simpa using h2

@[simp] theorem getElem_onehot (b i : Nat) (hi : i < 64) : (onehot b)[i] = decide (i = b) := by
  rw [← BitVec.getLsbD_eq_getElem, getLsbD_onehot]
  by_cases h : i = b
  · simp [← h, hi]
  · simp [h]

@[simp] theorem getLsbD_lowMask (n i : Nat) (hn : n < 64) :
    (lowMask n).getLsbD i = decide (i < n) := by
  have h64 : 2 ^ n ≤ 2 ^ 64 := Nat.pow_le_pow_right (by omega) (by omega)
  have hpos : 0 < 2 ^ n := Nat.two_pow_pos n
  rw [lowMask, BitVec.getLsbD_ofNat, Nat.testBit_two_pow_sub_one]
  by_cases h : i < n
  · simp [h]; omega
  · simp [h]

/-- The bits of a merged word: the low `n` from `w`, the others from `d`. -/
theorem getLsbD_mergeHigh (n : Nat) (w d : Word) (i : Nat) (hn : n < 64) :
    (mergeHigh n w d).getLsbD i = if i < n then w.getLsbD i else d.getLsbD i := by
  by_cases hi : i < 64
  · rw [mergeHigh, BitVec.getLsbD_or, BitVec.getLsbD_and, BitVec.getLsbD_and, BitVec.getLsbD_not,
      getLsbD_lowMask n i hn]
    by_cases h : i < n <;> simp [h, hi]
  · rw [BitVec.getLsbD_of_ge _ _ (by omega), BitVec.getLsbD_of_ge w _ (by omega),
      BitVec.getLsbD_of_ge d _ (by omega)]
    simp

/-- Bit `i` of a fold that sets bit `b` wherever `f b` holds. -/
theorem getLsbD_foldl_setBits (f : Nat → Bool) (l : List Nat) (w : Word) (i : Nat) (hi : i < 64) :
    (l.foldl (fun w b => if f b then w ||| onehot b else w) w).getLsbD i =
      (w.getLsbD i || (decide (i ∈ l) && f i)) := by
  induction l generalizing w with
  | nil => simp
  | cons b l ih =>
    rw [List.foldl_cons, ih]
    by_cases hb : i = b
    · subst hb
      cases hf : f i <;> simp [hi]
    · cases hf : f b <;> simp [hb]

/-- Bit `i` of a packed word. -/
theorem getLsbD_packBits (f : Nat → Bool) (i : Nat) (hi : i < 64) :
    (packBits f).getLsbD i = f i := by
  rw [packBits, getLsbD_foldl_setBits f _ 0 i hi]
  simp [hi]

/-! ### XOR over an index range -/

@[simp] theorem xorBits_zero (f : Nat → Bool) : xorBits 0 f = false := rfl

theorem xorBits_succ (n : Nat) (f : Nat → Bool) : xorBits (n + 1) f = (xorBits n f ^^ f n) := by
  simp [xorBits, List.range_succ]

@[simp] theorem xorWords_zero (f : Nat → Word) : xorWords 0 f = 0 := rfl

theorem xorWords_succ (n : Nat) (f : Nat → Word) : xorWords (n + 1) f = xorWords n f ^^^ f n := by
  simp [xorWords, List.range_succ]

theorem xorBits_congr {n : Nat} {f g : Nat → Bool} (h : ∀ t < n, f t = g t) :
    xorBits n f = xorBits n g := by
  induction n with
  | zero => rfl
  | succ n ih => rw [xorBits_succ, xorBits_succ, ih fun t ht => h t (by omega), h n (by omega)]

theorem xorWords_congr {n : Nat} {f g : Nat → Word} (h : ∀ t < n, f t = g t) :
    xorWords n f = xorWords n g := by
  induction n with
  | zero => rfl
  | succ n ih => rw [xorWords_succ, xorWords_succ, ih fun t ht => h t (by omega), h n (by omega)]

/-- Bit `i` of an XOR of words is the XOR of their bits `i`. -/
theorem getLsbD_xorWords (n : Nat) (f : Nat → Word) (i : Nat) :
    (xorWords n f).getLsbD i = xorBits n fun t => (f t).getLsbD i := by
  induction n with
  | zero => simp
  | succ n ih => simp [xorWords_succ, xorBits_succ, ih]

theorem xorBits_false (n : Nat) : xorBits n (fun _ => false) = false := by
  induction n with
  | zero => rfl
  | succ n ih => simp [xorBits_succ, ih]

theorem xorBits_xor (n : Nat) (f g : Nat → Bool) :
    xorBits n (fun t => f t ^^ g t) = (xorBits n f ^^ xorBits n g) := by
  induction n with
  | zero => rfl
  | succ n ih =>
    rw [xorBits_succ, ih, xorBits_succ, xorBits_succ]
    cases xorBits n f <;> cases xorBits n g <;> cases f n <;> cases g n <;> rfl

/-- The order of two XORs can be exchanged. -/
theorem xorBits_comm (m n : Nat) (f : Nat → Nat → Bool) :
    (xorBits m fun i => xorBits n fun j => f i j) = xorBits n fun j => xorBits m fun i => f i j := by
  induction m with
  | zero => simp [xorBits_false]
  | succ m ih => simp only [xorBits_succ, ih, ← xorBits_xor]

/-- An XOR over `m * n` indexes in `m` runs of `n`. -/
theorem xorBits_mul (m n : Nat) (f : Nat → Bool) :
    xorBits (m * n) f = xorBits m fun i => xorBits n fun j => f (i * n + j) := by
  induction m with
  | zero => simp
  | succ m ih =>
    rw [xorBits_succ, ← ih, Nat.succ_mul]
    generalize m * n = a
    clear ih
    induction n with
    | zero => simp
    | succ n ih =>
      rw [xorBits_succ, ← Bool.xor_assoc, ← ih, ← Nat.add_assoc, xorBits_succ]

/-- Terms that are 0 past `n` add nothing. -/
theorem xorBits_extend {n k : Nat} (h : n ≤ k) (f : Nat → Bool) (hz : ∀ t, n ≤ t → f t = false) :
    xorBits k f = xorBits n f := by
  obtain ⟨d, rfl⟩ := Nat.exists_eq_add_of_le h
  induction d with
  | zero => rfl
  | succ d ih => rw [← Nat.add_assoc, xorBits_succ, ih (by omega), hz _ (by omega)]; simp

/-! ### Parity -/

theorem foldl_xor_countP (p : Nat → Bool) (l : List Nat) (x : Bool) :
    l.foldl (fun y b => y ^^ p b) x = (x ^^ (l.countP p % 2 == 1)) := by
  induction l generalizing x with
  | nil => simp
  | cons b l ih =>
    rw [List.foldl_cons, ih]
    cases hp : p b
    · simp [hp]
    · rw [List.countP_cons_of_pos hp]
      rcases Nat.mod_two_eq_zero_or_one (l.countP p) with h | h
      · have h1 : (l.countP p + 1) % 2 = 1 := by omega
        simp [h, h1]
      · have h1 : (l.countP p + 1) % 2 = 0 := by omega
        simp [h, h1]

/-- The parity of a word is the XOR of its bits (R16, R20). -/
theorem parity_eq (w : Word) : parity w = xorBits 64 fun b => w.getLsbD b := by
  rw [xorBits, foldl_xor_countP]
  simp [parity, popcount]

/-- The parity of an XOR of words is the XOR of their parities. -/
theorem parity_xorWords (n : Nat) (f : Nat → Word) :
    parity (xorWords n f) = xorBits n fun t => parity (f t) := by
  simp only [parity_eq, getLsbD_xorWords]
  exact xorBits_comm 64 n fun b t => (f t).getLsbD b

end Sys2Proof.Machine
end

