-- ==== Sys2Proof/Laws/Matrix.lean ====
section
/-! SUPPORT. The bits and words of a BitMatrix after each operation on it: Get after Set, the double loop
of Sets, Transpose, and the layout of R42. -/

namespace Sys2Proof.Machine

/-! ### Layout -/

theorem BitMatrix.wf_iff (x : BitMatrix) :
    x.wf = true ↔ x.wpr = wordsPerRow x.cols ∧ x.data.length = x.rows * x.wpr := by
  simp [BitMatrix.wf]

/-- The word of a valid column lies in its row. -/
theorem col_div_lt {c cols : Nat} (h : c < cols) : c / 64 < wordsPerRow cols := by
  simp only [wordsPerRow, ceilDiv]; omega

/-- The word of a valid bit lies in the data. -/
theorem word_lt {r c rows wpr : Nat} (hr : r < rows) (hc : c < wpr) : r * wpr + c < rows * wpr := by
  have : (r + 1) * wpr ≤ rows * wpr := Nat.mul_le_mul_right _ hr
  rw [Nat.succ_mul] at this
  omega

/-- A row and a word column are determined by their word index. -/
theorem word_index_inj {r c r' c' wpr : Nat} (hc : c < wpr) (hc' : c' < wpr)
    (h : r * wpr + c = r' * wpr + c') : r = r' ∧ c = c' := by
  have hr : r = r' := by
    have h1 : (r * wpr + c) / wpr = r := by
      rw [Nat.mul_comm, Nat.mul_add_div (by omega), Nat.div_eq_of_lt hc]; rfl
    have h2 : (r' * wpr + c') / wpr = r' := by
      rw [Nat.mul_comm, Nat.mul_add_div (by omega), Nat.div_eq_of_lt hc']; rfl
    rw [← h1, ← h2, h]
  subst hr
  exact ⟨rfl, by omega⟩

theorem zeroMatrix_wf (rows cols : Nat) : (zeroMatrix rows cols).wf = true := by
  simp [BitMatrix.wf, zeroMatrix]

@[simp] theorem zeroMatrix_memRead (rows cols q : Nat) : (zeroMatrix rows cols).memRead q = 0 := by
  simp only [BitMatrix.memRead, zeroMatrix, List.getD_eq_getElem?_getD, List.getElem?_replicate]
  split <;> rfl

@[simp] theorem zeroMatrix_get (rows cols r c : Nat) : (zeroMatrix rows cols).get r c = false := by
  simp [BitMatrix.get]

/-! ### Words -/

theorem BitMatrix.memRead_memWrite (x : BitMatrix) (q p : Nat) (v : Word) :
    (x.memWrite q v).memRead p = if p = q ∧ q < x.data.length then v else x.memRead p := by
  simp only [BitMatrix.memRead, BitMatrix.memWrite, List.getD_eq_getElem?_getD, List.getElem?_set]
  by_cases h : q = p
  · subst h
    by_cases hq : q < x.data.length <;> simp [hq]
  · have : ¬(p = q ∧ q < x.data.length) := fun e => h e.1.symm
    simp [h, this]

@[simp] theorem BitMatrix.memWrite_rows (x : BitMatrix) (q : Nat) (v : Word) :
    (x.memWrite q v).rows = x.rows := rfl

@[simp] theorem BitMatrix.memWrite_cols (x : BitMatrix) (q : Nat) (v : Word) :
    (x.memWrite q v).cols = x.cols := rfl

@[simp] theorem BitMatrix.memWrite_wpr (x : BitMatrix) (q : Nat) (v : Word) :
    (x.memWrite q v).wpr = x.wpr := rfl

@[simp] theorem BitMatrix.memWrite_length (x : BitMatrix) (q : Nat) (v : Word) :
    (x.memWrite q v).data.length = x.data.length := by
  simp [BitMatrix.memWrite]

/-! ### Set -/

@[simp] theorem BitMatrix.set_rows (x : BitMatrix) (r c : Nat) (v : Bool) :
    (x.set r c v).rows = x.rows := by
  unfold BitMatrix.set; split <;> rfl

@[simp] theorem BitMatrix.set_cols (x : BitMatrix) (r c : Nat) (v : Bool) :
    (x.set r c v).cols = x.cols := by
  unfold BitMatrix.set; split <;> rfl

@[simp] theorem BitMatrix.set_wpr (x : BitMatrix) (r c : Nat) (v : Bool) :
    (x.set r c v).wpr = x.wpr := by
  unfold BitMatrix.set; split <;> rfl

@[simp] theorem BitMatrix.set_length (x : BitMatrix) (r c : Nat) (v : Bool) :
    (x.set r c v).data.length = x.data.length := by
  unfold BitMatrix.set; split <;> simp

@[simp] theorem BitMatrix.set_wf (x : BitMatrix) (r c : Nat) (v : Bool) :
    (x.set r c v).wf = x.wf := by
  simp [BitMatrix.wf]

/-- Every bit of every word after Set: the one bit it names is the value, all others, padding included,
stay (R151). -/
theorem BitMatrix.getLsbD_set (x : BitMatrix) (hx : x.wf = true) (r c : Nat) (v : Bool)
    (q b : Nat) (hb : b < 64) :
    ((x.set r c v).memRead q).getLsbD b =
      if r < x.rows ∧ c < x.cols ∧ q = r * x.wpr + c / 64 ∧ b = c % 64 then v
      else (x.memRead q).getLsbD b := by
  obtain ⟨hwpr, hlen⟩ := x.wf_iff.mp hx
  unfold BitMatrix.set
  by_cases hr : x.rows ≤ r ∨ x.cols ≤ c
  · rw [if_pos hr, if_neg (by omega)]
  · rw [if_neg hr]
    have hrc : r < x.rows ∧ c < x.cols := by omega
    have hc : c / 64 < x.wpr := hwpr ▸ col_div_lt hrc.2
    have hq : r * x.wpr + c / 64 < x.data.length := hlen ▸ word_lt hrc.1 hc
    simp only [BitMatrix.memRead_memWrite, hq, and_true, hrc.1, hrc.2, true_and]
    by_cases h : q = r * x.wpr + c / 64
    · subst h
      have hc64 : c % 64 < 64 := Nat.mod_lt _ (by omega)
      by_cases hbc : b = c % 64
      · subst hbc
        cases v <;> simp [hc64]
      · cases v <;> simp [hbc, hb]
    · simp [h]

/-- Get after Set (R150, R151). -/
theorem BitMatrix.get_set (x : BitMatrix) (hx : x.wf = true) (r c : Nat) (v : Bool) (i j : Nat) :
    (x.set r c v).get i j =
      if r < x.rows ∧ c < x.cols ∧ i = r ∧ j = c then v else x.get i j := by
  obtain ⟨hwpr, _⟩ := x.wf_iff.mp hx
  unfold BitMatrix.get
  simp only [BitMatrix.set_rows, BitMatrix.set_cols, BitMatrix.set_wpr]
  by_cases hij : x.rows ≤ i ∨ x.cols ≤ j
  · rw [if_pos hij, if_pos hij, if_neg]
    rintro ⟨h1, h2, rfl, rfl⟩
    omega
  · rw [if_neg hij, if_neg hij, x.getLsbD_set hx r c v _ _ (Nat.mod_lt _ (by omega))]
    by_cases h : r < x.rows ∧ c < x.cols
    · have hc : c / 64 < x.wpr := hwpr ▸ col_div_lt h.2
      have hj : j / 64 < x.wpr := hwpr ▸ col_div_lt (by omega)
      have key : (i * x.wpr + j / 64 = r * x.wpr + c / 64 ∧ j % 64 = c % 64) ↔ (i = r ∧ j = c) := by
        constructor
        · rintro ⟨h1, h2⟩
          obtain ⟨h3, h4⟩ := word_index_inj hj hc h1
          exact ⟨h3, by omega⟩
        · rintro ⟨rfl, rfl⟩
          exact ⟨rfl, rfl⟩
      simp only [h.1, h.2, true_and, key]
    · rw [if_neg fun e => h ⟨e.1, e.2.1⟩, if_neg fun e => h ⟨e.1, e.2.1⟩]

/-! ### The double loop of Sets (R230, R242) -/

/-- A fold of Sets along row `i` keeps the layout and sets columns below `n`. -/
theorem fillRow_spec (f : Nat → Bool) (i n : Nat) (x : BitMatrix) (hx : x.wf = true) :
    let y := (List.range n).foldl (fun z j => z.set i j (f j)) x
    y.rows = x.rows ∧ y.cols = x.cols ∧ y.wpr = x.wpr ∧ y.wf = true ∧
      ∀ r c, y.get r c = if r = i ∧ c < n ∧ r < x.rows ∧ c < x.cols then f c else x.get r c := by
  induction n with
  | zero => simp [hx]
  | succ n ih =>
    obtain ⟨h1, h2, h3, h4, h5⟩ := ih
    simp only [List.range_succ, List.foldl_append, List.foldl_cons, List.foldl_nil]
    refine ⟨by simp [h1], by simp [h2], by simp [h3], by simp [h4], fun r c => ?_⟩
    rw [BitMatrix.get_set _ h4, h5, h1, h2]
    by_cases hc : c = n
    · subst hc
      by_cases hr : r = i
      · subst hr
        simp
      · simp [hr]
    · have : (c < n + 1) ↔ c < n := by omega
      simp [hc, this]

/-- What the double loop of Sets leaves (R230, R242): the bits below (m, n) are `f`'s, the rest and the
layout stay. -/
theorem fillBits_spec (m n : Nat) (f : Nat → Nat → Bool) (x : BitMatrix) (hx : x.wf = true) :
    (fillBits m n f x).rows = x.rows ∧ (fillBits m n f x).cols = x.cols ∧
      (fillBits m n f x).wpr = x.wpr ∧ (fillBits m n f x).wf = true ∧
      ∀ r c, (fillBits m n f x).get r c =
        if r < m ∧ c < n ∧ r < x.rows ∧ c < x.cols then f r c else x.get r c := by
  induction m with
  | zero => simp [fillBits, hx]
  | succ m ih =>
    have step : fillBits (m + 1) n f x =
        (List.range n).foldl (fun z j => z.set m j (f m j)) (fillBits m n f x) := by
      simp [fillBits, List.range_succ]
    obtain ⟨h1, h2, h3, h4, h5⟩ := ih
    obtain ⟨k1, k2, k3, k4, k5⟩ := fillRow_spec (f m) m n _ h4
    rw [← step] at k1 k2 k3 k4 k5
    refine ⟨k1.trans h1, k2.trans h2, k3.trans h3, k4, fun r c => ?_⟩
    rw [k5, h5, h1, h2]
    by_cases hr : r = m
    · subst hr
      simp
    · have : (r < m + 1) ↔ r < m := by omega
      simp [hr, this]

/-! ### Transpose (R158) -/

/-- A fold of the inner loop of Transpose along source row `r`. -/
theorem transposeRow_spec (x : BitMatrix) (r n : Nat) (y : BitMatrix) (hy : y.wf = true)
    (hf : ∀ c, y.get c r = false) :
    let z := (List.range n).foldl (fun z c => if x.get r c then z.set c r true else z) y
    z.rows = y.rows ∧ z.cols = y.cols ∧ z.wpr = y.wpr ∧ z.wf = true ∧
      (∀ c i, z.get c i =
        if i = r ∧ c < n ∧ c < y.rows ∧ i < y.cols then x.get r c else y.get c i) ∧
      ∀ q b, b < 64 → (z.memRead q).getLsbD b = true → (y.memRead q).getLsbD b = true ∨
        ∃ c, c < y.rows ∧ r < y.cols ∧ q = c * y.wpr + r / 64 ∧ b = r % 64 := by
  induction n with
  | zero => simp [hy]; intro q b _ h; exact Or.inl h
  | succ n ih =>
    obtain ⟨h1, h2, h3, h4, h5, h6⟩ := ih
    simp only [List.range_succ, List.foldl_append, List.foldl_cons, List.foldl_nil]
    by_cases hg : x.get r n = true
    · simp only [hg, if_true]
      refine ⟨by simp [h1], by simp [h2], by simp [h3], by simp [h4], fun c i => ?_,
        fun q b hb hq => ?_⟩
      · rw [BitMatrix.get_set _ h4, h5, h1, h2]
        by_cases hc : c = n
        · subst hc
          by_cases hi : i = r
          · subst hi
            simp [hg]
          · simp [hi]
        · have : (c < n + 1) ↔ c < n := by omega
          simp [hc, this]
      · rw [BitMatrix.getLsbD_set _ h4 _ _ _ _ _ hb, h1, h2, h3] at hq
        split at hq
        · rename_i e
          exact Or.inr ⟨n, e.1, e.2.1, e.2.2⟩
        · exact h6 q b hb hq
    · simp only [hg, Bool.false_eq_true, if_false]
      refine ⟨h1, h2, h3, h4, fun c i => ?_, h6⟩
      rw [h5]
      by_cases hc : c = n
      · subst hc
        by_cases hi : i = r
        · subst hi
          simp [hf, hg]
        · simp [hi]
      · have : (c < n + 1) ↔ c < n := by omega
        simp [this]

/-- What Transpose leaves: shape, layout, bits, and no padding bit set (R158). -/
theorem transpose_spec (x : BitMatrix) :
    (transpose x).rows = x.cols ∧ (transpose x).cols = x.rows ∧ (transpose x).wf = true ∧
      (∀ c r, (transpose x).get c r = x.get r c) ∧
      ∀ q b, b < 64 → ((transpose x).memRead q).getLsbD b = true →
        ∃ c r, c < x.cols ∧ r < x.rows ∧ q = c * wordsPerRow x.rows + r / 64 ∧ b = r % 64 := by
  have gen : ∀ m, m ≤ x.rows →
      let y := (List.range m).foldl (fun y r => (List.range x.cols).foldl
        (fun z c => if x.get r c then z.set c r true else z) y) (zeroMatrix x.cols x.rows)
      y.rows = x.cols ∧ y.cols = x.rows ∧ y.wpr = wordsPerRow x.rows ∧ y.wf = true ∧
        (∀ c r, y.get c r = if r < m then x.get r c else false) ∧
        ∀ q b, b < 64 → (y.memRead q).getLsbD b = true →
          ∃ c r, c < x.cols ∧ r < x.rows ∧ q = c * wordsPerRow x.rows + r / 64 ∧ b = r % 64 := by
    intro m
    induction m with
    | zero =>
      intro _
      refine ⟨rfl, rfl, rfl, zeroMatrix_wf _ _, by simp, fun q b _ h => ?_⟩
      simp at h
    | succ m ih =>
      intro hm
      obtain ⟨h1, h2, h3, h4, h5, h6⟩ := ih (by omega)
      simp only [List.range_succ, List.foldl_append, List.foldl_cons, List.foldl_nil]
      obtain ⟨k1, k2, k3, k4, k5, k6⟩ := transposeRow_spec x m x.cols _ h4 (by simp [h5])
      refine ⟨k1.trans h1, k2.trans h2, k3.trans h3, k4, fun c r => ?_, fun q b hb hq => ?_⟩
      · rw [k5, h5, h1, h2]
        by_cases hr : r = m
        · subst hr
          by_cases hc : c < x.cols
          · simp [hc, Nat.lt_of_succ_le hm]
          · simp [hc, BitMatrix.get, Nat.le_of_not_lt hc]
        · have : (r < m + 1) ↔ r < m := by omega
          simp [hr, this]
      · rcases k6 q b hb hq with h | ⟨c, hc, hr, hq', hb'⟩
        · exact h6 q b hb h
        · exact ⟨c, m, h1 ▸ hc, h2 ▸ hr, h3 ▸ hq', hb'⟩
  obtain ⟨h1, h2, _, h4, h5, h6⟩ := gen x.rows (Nat.le_refl _)
  refine ⟨h1, h2, h4, fun c r => ?_, h6⟩
  rw [show (transpose x).get c r = _ from h5 c r]
  by_cases hr : r < x.rows
  · simp [hr]
  · simp [hr, BitMatrix.get, Nat.le_of_not_lt hr]

end Sys2Proof.Machine
end

