-- ==== Sys2Proof/Laws/State.lean ====
section
/-! SUPPORT. One lemma per field for each update of the state, true by rfl, so that no proof unfolds a
record update. -/

namespace Sys2Proof.Machine

variable (s : State)

/-! ### setSlot -/

@[simp] theorem State.setSlot_config (i : SlotNo) (x : Option BitMatrix) : (s.setSlot i x).config = s.config := rfl
@[simp] theorem State.setSlot_arg0 (i : SlotNo) (x : Option BitMatrix) : (s.setSlot i x).arg0 = s.arg0 := rfl
@[simp] theorem State.setSlot_arg1 (i : SlotNo) (x : Option BitMatrix) : (s.setSlot i x).arg1 = s.arg1 := rfl
@[simp] theorem State.setSlot_arg2 (i : SlotNo) (x : Option BitMatrix) : (s.setSlot i x).arg2 = s.arg2 := rfl
@[simp] theorem State.setSlot_result (i : SlotNo) (x : Option BitMatrix) : (s.setSlot i x).result = s.result := rfl
@[simp] theorem State.setSlot_busy (i : SlotNo) (x : Option BitMatrix) : (s.setSlot i x).busy = s.busy := rfl
@[simp] theorem State.setSlot_err (i : SlotNo) (x : Option BitMatrix) : (s.setSlot i x).err = s.err := rfl
@[simp] theorem State.setSlot_ovr (i : SlotNo) (x : Option BitMatrix) : (s.setSlot i x).ovr = s.ovr := rfl
@[simp] theorem State.setSlot_errCode (i : SlotNo) (x : Option BitMatrix) : (s.setSlot i x).errCode = s.errCode := rfl
@[simp] theorem State.setSlot_cmd (i : SlotNo) (x : Option BitMatrix) : (s.setSlot i x).cmd = s.cmd := rfl
@[simp] theorem State.setSlot_a0 (i : SlotNo) (x : Option BitMatrix) : (s.setSlot i x).a0 = s.a0 := rfl
@[simp] theorem State.setSlot_a1 (i : SlotNo) (x : Option BitMatrix) : (s.setSlot i x).a1 = s.a1 := rfl
@[simp] theorem State.setSlot_a2 (i : SlotNo) (x : Option BitMatrix) : (s.setSlot i x).a2 = s.a2 := rfl
@[simp] theorem State.setSlot_slots (i : SlotNo) (x : Option BitMatrix) : (s.setSlot i x).slots = s.slots.set i.val x := rfl
@[simp] theorem State.setSlot_temp (i : SlotNo) (x : Option BitMatrix) : (s.setSlot i x).temp = s.temp := rfl
@[simp] theorem State.setSlot_device (i : SlotNo) (x : Option BitMatrix) : (s.setSlot i x).device = s.device := rfl
@[simp] theorem State.setSlot_host (i : SlotNo) (x : Option BitMatrix) : (s.setSlot i x).host = s.host := rfl
@[simp] theorem State.setSlot_lastRead (i : SlotNo) (x : Option BitMatrix) : (s.setSlot i x).lastRead = s.lastRead := rfl
@[simp] theorem State.setSlot_turns (i : SlotNo) (x : Option BitMatrix) : (s.setSlot i x).turns = s.turns := rfl
@[simp] theorem State.setSlot_draws (i : SlotNo) (x : Option BitMatrix) : (s.setSlot i x).draws = s.draws := rfl
@[simp] theorem State.setSlot_dispatches (i : SlotNo) (x : Option BitMatrix) : (s.setSlot i x).dispatches = s.dispatches := rfl

/-! ### complete -/

@[simp] theorem State.complete_config (k : BitVec 8) : (s.complete k).config = s.config := rfl
@[simp] theorem State.complete_arg0 (k : BitVec 8) : (s.complete k).arg0 = s.arg0 := rfl
@[simp] theorem State.complete_arg1 (k : BitVec 8) : (s.complete k).arg1 = s.arg1 := rfl
@[simp] theorem State.complete_arg2 (k : BitVec 8) : (s.complete k).arg2 = s.arg2 := rfl
@[simp] theorem State.complete_result (k : BitVec 8) : (s.complete k).result = s.result := rfl
@[simp] theorem State.complete_busy (k : BitVec 8) : (s.complete k).busy = false := rfl
@[simp] theorem State.complete_err (k : BitVec 8) : (s.complete k).err = (k != 0) := rfl
@[simp] theorem State.complete_ovr (k : BitVec 8) : (s.complete k).ovr = s.ovr := rfl
@[simp] theorem State.complete_errCode (k : BitVec 8) : (s.complete k).errCode = k := rfl
@[simp] theorem State.complete_cmd (k : BitVec 8) : (s.complete k).cmd = s.cmd := rfl
@[simp] theorem State.complete_a0 (k : BitVec 8) : (s.complete k).a0 = s.a0 := rfl
@[simp] theorem State.complete_a1 (k : BitVec 8) : (s.complete k).a1 = s.a1 := rfl
@[simp] theorem State.complete_a2 (k : BitVec 8) : (s.complete k).a2 = s.a2 := rfl
@[simp] theorem State.complete_slots (k : BitVec 8) : (s.complete k).slots = s.slots := rfl
@[simp] theorem State.complete_temp (k : BitVec 8) : (s.complete k).temp = none := rfl
@[simp] theorem State.complete_device (k : BitVec 8) : (s.complete k).device = none := rfl
@[simp] theorem State.complete_host (k : BitVec 8) : (s.complete k).host = s.host := rfl
@[simp] theorem State.complete_lastRead (k : BitVec 8) : (s.complete k).lastRead = s.lastRead := rfl
@[simp] theorem State.complete_turns (k : BitVec 8) : (s.complete k).turns = s.turns := rfl
@[simp] theorem State.complete_draws (k : BitVec 8) : (s.complete k).draws = s.draws := rfl
@[simp] theorem State.complete_dispatches (k : BitVec 8) : (s.complete k).dispatches = s.dispatches := rfl

/-! ### succeed -/

@[simp] theorem State.succeed_config : (s.succeed).config = s.config := rfl
@[simp] theorem State.succeed_arg0 : (s.succeed).arg0 = s.arg0 := rfl
@[simp] theorem State.succeed_arg1 : (s.succeed).arg1 = s.arg1 := rfl
@[simp] theorem State.succeed_arg2 : (s.succeed).arg2 = s.arg2 := rfl
@[simp] theorem State.succeed_result : (s.succeed).result = s.result := rfl
@[simp] theorem State.succeed_busy : (s.succeed).busy = false := rfl
@[simp] theorem State.succeed_err : (s.succeed).err = false := rfl
@[simp] theorem State.succeed_ovr : (s.succeed).ovr = s.ovr := rfl
@[simp] theorem State.succeed_errCode : (s.succeed).errCode = 0 := rfl
@[simp] theorem State.succeed_cmd : (s.succeed).cmd = s.cmd := rfl
@[simp] theorem State.succeed_a0 : (s.succeed).a0 = s.a0 := rfl
@[simp] theorem State.succeed_a1 : (s.succeed).a1 = s.a1 := rfl
@[simp] theorem State.succeed_a2 : (s.succeed).a2 = s.a2 := rfl
@[simp] theorem State.succeed_slots : (s.succeed).slots = s.slots := rfl
@[simp] theorem State.succeed_temp : (s.succeed).temp = none := rfl
@[simp] theorem State.succeed_device : (s.succeed).device = none := rfl
@[simp] theorem State.succeed_host : (s.succeed).host = s.host := rfl
@[simp] theorem State.succeed_lastRead : (s.succeed).lastRead = s.lastRead := rfl
@[simp] theorem State.succeed_turns : (s.succeed).turns = s.turns := rfl
@[simp] theorem State.succeed_draws : (s.succeed).draws = s.draws := rfl
@[simp] theorem State.succeed_dispatches : (s.succeed).dispatches = s.dispatches := rfl

/-! ### raise -/

@[simp] theorem State.raise_config (e : CmdError) : (s.raise e).config = s.config := rfl
@[simp] theorem State.raise_arg0 (e : CmdError) : (s.raise e).arg0 = s.arg0 := rfl
@[simp] theorem State.raise_arg1 (e : CmdError) : (s.raise e).arg1 = s.arg1 := rfl
@[simp] theorem State.raise_arg2 (e : CmdError) : (s.raise e).arg2 = s.arg2 := rfl
@[simp] theorem State.raise_result (e : CmdError) : (s.raise e).result = s.result := rfl
@[simp] theorem State.raise_busy (e : CmdError) : (s.raise e).busy = false := rfl
@[simp] theorem State.raise_err (e : CmdError) : (s.raise e).err = (errorCode e != 0) := rfl
@[simp] theorem State.raise_ovr (e : CmdError) : (s.raise e).ovr = s.ovr := rfl
@[simp] theorem State.raise_errCode (e : CmdError) : (s.raise e).errCode = errorCode e := rfl
@[simp] theorem State.raise_cmd (e : CmdError) : (s.raise e).cmd = s.cmd := rfl
@[simp] theorem State.raise_a0 (e : CmdError) : (s.raise e).a0 = s.a0 := rfl
@[simp] theorem State.raise_a1 (e : CmdError) : (s.raise e).a1 = s.a1 := rfl
@[simp] theorem State.raise_a2 (e : CmdError) : (s.raise e).a2 = s.a2 := rfl
@[simp] theorem State.raise_slots (e : CmdError) : (s.raise e).slots = s.slots := rfl
@[simp] theorem State.raise_temp (e : CmdError) : (s.raise e).temp = none := rfl
@[simp] theorem State.raise_device (e : CmdError) : (s.raise e).device = none := rfl
@[simp] theorem State.raise_host (e : CmdError) : (s.raise e).host = s.host := rfl
@[simp] theorem State.raise_lastRead (e : CmdError) : (s.raise e).lastRead = s.lastRead := rfl
@[simp] theorem State.raise_turns (e : CmdError) : (s.raise e).turns = s.turns := rfl
@[simp] theorem State.raise_draws (e : CmdError) : (s.raise e).draws = s.draws := rfl
@[simp] theorem State.raise_dispatches (e : CmdError) : (s.raise e).dispatches = s.dispatches := rfl

/-! ### answer -/

@[simp] theorem State.answer_config (v : Word) : (s.answer v).config = s.config := rfl
@[simp] theorem State.answer_arg0 (v : Word) : (s.answer v).arg0 = s.arg0 := rfl
@[simp] theorem State.answer_arg1 (v : Word) : (s.answer v).arg1 = s.arg1 := rfl
@[simp] theorem State.answer_arg2 (v : Word) : (s.answer v).arg2 = s.arg2 := rfl
@[simp] theorem State.answer_result (v : Word) : (s.answer v).result = v := rfl
@[simp] theorem State.answer_busy (v : Word) : (s.answer v).busy = false := rfl
@[simp] theorem State.answer_err (v : Word) : (s.answer v).err = false := rfl
@[simp] theorem State.answer_ovr (v : Word) : (s.answer v).ovr = s.ovr := rfl
@[simp] theorem State.answer_errCode (v : Word) : (s.answer v).errCode = 0 := rfl
@[simp] theorem State.answer_cmd (v : Word) : (s.answer v).cmd = s.cmd := rfl
@[simp] theorem State.answer_a0 (v : Word) : (s.answer v).a0 = s.a0 := rfl
@[simp] theorem State.answer_a1 (v : Word) : (s.answer v).a1 = s.a1 := rfl
@[simp] theorem State.answer_a2 (v : Word) : (s.answer v).a2 = s.a2 := rfl
@[simp] theorem State.answer_slots (v : Word) : (s.answer v).slots = s.slots := rfl
@[simp] theorem State.answer_temp (v : Word) : (s.answer v).temp = none := rfl
@[simp] theorem State.answer_device (v : Word) : (s.answer v).device = none := rfl
@[simp] theorem State.answer_host (v : Word) : (s.answer v).host = s.host := rfl
@[simp] theorem State.answer_lastRead (v : Word) : (s.answer v).lastRead = s.lastRead := rfl
@[simp] theorem State.answer_turns (v : Word) : (s.answer v).turns = s.turns := rfl
@[simp] theorem State.answer_draws (v : Word) : (s.answer v).draws = s.draws := rfl
@[simp] theorem State.answer_dispatches (v : Word) : (s.answer v).dispatches = s.dispatches := rfl

/-! ### finishWith -/

@[simp] theorem State.finishWith_config (i : SlotNo) (x : BitMatrix) : (s.finishWith i x).config = s.config := rfl
@[simp] theorem State.finishWith_arg0 (i : SlotNo) (x : BitMatrix) : (s.finishWith i x).arg0 = s.arg0 := rfl
@[simp] theorem State.finishWith_arg1 (i : SlotNo) (x : BitMatrix) : (s.finishWith i x).arg1 = s.arg1 := rfl
@[simp] theorem State.finishWith_arg2 (i : SlotNo) (x : BitMatrix) : (s.finishWith i x).arg2 = s.arg2 := rfl
@[simp] theorem State.finishWith_result (i : SlotNo) (x : BitMatrix) : (s.finishWith i x).result = s.result := rfl
@[simp] theorem State.finishWith_busy (i : SlotNo) (x : BitMatrix) : (s.finishWith i x).busy = false := rfl
@[simp] theorem State.finishWith_err (i : SlotNo) (x : BitMatrix) : (s.finishWith i x).err = false := rfl
@[simp] theorem State.finishWith_ovr (i : SlotNo) (x : BitMatrix) : (s.finishWith i x).ovr = s.ovr := rfl
@[simp] theorem State.finishWith_errCode (i : SlotNo) (x : BitMatrix) : (s.finishWith i x).errCode = 0 := rfl
@[simp] theorem State.finishWith_cmd (i : SlotNo) (x : BitMatrix) : (s.finishWith i x).cmd = s.cmd := rfl
@[simp] theorem State.finishWith_a0 (i : SlotNo) (x : BitMatrix) : (s.finishWith i x).a0 = s.a0 := rfl
@[simp] theorem State.finishWith_a1 (i : SlotNo) (x : BitMatrix) : (s.finishWith i x).a1 = s.a1 := rfl
@[simp] theorem State.finishWith_a2 (i : SlotNo) (x : BitMatrix) : (s.finishWith i x).a2 = s.a2 := rfl
@[simp] theorem State.finishWith_slots (i : SlotNo) (x : BitMatrix) : (s.finishWith i x).slots = s.slots.set i.val (some x) := rfl
@[simp] theorem State.finishWith_temp (i : SlotNo) (x : BitMatrix) : (s.finishWith i x).temp = none := rfl
@[simp] theorem State.finishWith_device (i : SlotNo) (x : BitMatrix) : (s.finishWith i x).device = none := rfl
@[simp] theorem State.finishWith_host (i : SlotNo) (x : BitMatrix) : (s.finishWith i x).host = s.host := rfl
@[simp] theorem State.finishWith_lastRead (i : SlotNo) (x : BitMatrix) : (s.finishWith i x).lastRead = s.lastRead := rfl
@[simp] theorem State.finishWith_turns (i : SlotNo) (x : BitMatrix) : (s.finishWith i x).turns = s.turns := rfl
@[simp] theorem State.finishWith_draws (i : SlotNo) (x : BitMatrix) : (s.finishWith i x).draws = s.draws := rfl
@[simp] theorem State.finishWith_dispatches (i : SlotNo) (x : BitMatrix) : (s.finishWith i x).dispatches = s.dispatches := rfl

end Sys2Proof.Machine
end

