-- ==== Sys2Proof/Laws/Memory.lean ====
section
/-! SUPPORT. The matrix store: reading a slot after writing one, its form, and its usage. -/

namespace Sys2Proof.Machine

theorem State.slot_setSlot (s : State) (i j : SlotNo) (x : Option BitMatrix) :
    (s.setSlot i x).slot j = if i = j then x else s.slot j := by
  simp [State.slot, Vector.getElem_set, Fin.ext_iff]

@[simp] theorem State.slot_setSlot_self (s : State) (i : SlotNo) (x : Option BitMatrix) :
    (s.setSlot i x).slot i = x := by
  simp [State.slot_setSlot]

@[simp] theorem State.slot_setSlot_ne (s : State) {i j : SlotNo} (x : Option BitMatrix)
    (h : j ≠ i) : (s.setSlot i x).slot j = s.slot j := by
  simp [State.slot_setSlot, Ne.symm h]

@[simp] theorem State.slot_complete (s : State) (k : BitVec 8) (j : SlotNo) :
    (s.complete k).slot j = s.slot j := rfl

@[simp] theorem State.slot_succeed (s : State) (j : SlotNo) : s.succeed.slot j = s.slot j := rfl

@[simp] theorem State.slot_raise (s : State) (e : CmdError) (j : SlotNo) :
    (s.raise e).slot j = s.slot j := rfl

@[simp] theorem State.slot_answer (s : State) (v : Word) (j : SlotNo) :
    (s.answer v).slot j = s.slot j := rfl

theorem State.slot_finishWith (s : State) (i j : SlotNo) (x : BitMatrix) :
    (s.finishWith i x).slot j = if i = j then some x else s.slot j :=
  s.slot_setSlot i j (some x)

@[simp] theorem State.slot_finishWith_self (s : State) (i : SlotNo) (x : BitMatrix) :
    (s.finishWith i x).slot i = some x := s.slot_setSlot_self i (some x)

@[simp] theorem State.slot_finishWith_ne (s : State) {i j : SlotNo} (x : BitMatrix) (h : j ≠ i) :
    (s.finishWith i x).slot j = s.slot j := s.slot_setSlot_ne (some x) h

/-! ### The form of the store (R42) -/

/-- The store has its form exactly when every valid slot has the layout of R42. -/
theorem Memory.wf_iff (m : Memory) :
    Memory.wf m = true ↔ ∀ (i : Nat) (h : i < 16) (x : BitMatrix), m[i] = some x → x.wf = true := by
  simp only [Memory.wf, List.all_eq_true, Vector.mem_toList_iff]
  constructor
  · intro hm i h x hx
    have := hm m[i] (Vector.getElem_mem h)
    simpa [hx] using this
  · intro hm o ho
    obtain ⟨i, h, rfl⟩ := Vector.mem_iff_getElem.mp ho
    cases hx : m[i] with
    | none => rfl
    | some x => exact hm i h x hx

/-- A matrix read from a store of the right form has the layout of R42. -/
theorem State.wf_of_slot {s : State} (hm : Memory.wf s.slots = true) {i : SlotNo} {x : BitMatrix}
    (hx : s.slot i = some x) : x.wf = true :=
  (Memory.wf_iff _).mp hm i.val i.isLt x hx

/-- Putting a matrix of the right layout, or none, in a slot keeps the form. -/
theorem State.wf_setSlot {s : State} (hm : Memory.wf s.slots = true) (i : SlotNo)
    {x : Option BitMatrix} (hx : ∀ y, x = some y → y.wf = true) :
    Memory.wf (s.setSlot i x).slots = true := by
  rw [Memory.wf_iff] at hm ⊢
  intro j h y hy
  simp only [State.setSlot_slots, Vector.getElem_set] at hy
  split at hy
  · exact hx y hy
  · exact hm j h y hy

/-- The empty store of reset has the form. -/
theorem State.wf_resetWith (c : Config) : Memory.wf (State.resetWith c).slots = true := by
  rw [Memory.wf_iff]
  intro i h x hx
  simp [State.resetWith] at hx

/-! ### Usage (R45) -/

/-- Words counted for a slot's contents. -/
def optionWords (o : Option BitMatrix) : Nat :=
  match o with
  | some x => x.words
  | none => 0

theorem State.usage_eq (s : State) : s.usage = (s.slots.toList.map optionWords).sum := rfl

theorem State.slotWords_eq (s : State) (i : SlotNo) : s.slotWords i = optionWords (s.slot i) := rfl

theorem sum_map_set {α : Type} (f : α → Nat) (l : List α) (i : Nat) (h : i < l.length) (x : α) :
    ((l.set i x).map f).sum + f l[i] = (l.map f).sum + f x := by
  induction l generalizing i with
  | nil => simp at h
  | cons a l ih =>
    cases i with
    | zero => simp; omega
    | succ i =>
      have := ih i (by simpa using h)
      simp only [List.set_cons_succ, List.map_cons, List.sum_cons, List.getElem_cons_succ]
      omega

/-- The usage after a slot is written: the old words of the slot leave, the new ones come. -/
theorem State.usage_setSlot (s : State) (i : SlotNo) (x : Option BitMatrix) :
    (s.setSlot i x).usage + s.slotWords i = s.usage + optionWords x := by
  have h : i.val < s.slots.toList.length := by simp
  have key := sum_map_set optionWords s.slots.toList i.val h x
  rw [State.usage_eq, State.usage_eq, State.slotWords_eq]
  simpa [State.slot, Vector.toList_set] using key

/-- A slot's words are part of the usage. -/
theorem State.slotWords_le_usage (s : State) (i : SlotNo) : s.slotWords i ≤ s.usage := by
  have := s.usage_setSlot i none
  simp [optionWords] at this
  omega

end Sys2Proof.Machine
end

