-- ==== Sys2Proof/Laws/Ops.lean ====
section
/-! SUPPORT. One lemma for each shared operation that says what it can do: operand slots, construction of
a matrix, the front end of the multiply commands, the drawn padding and the product's post-state; and that
each of them keeps the form of the matrix store. -/

namespace Sys2Proof.Machine

/-! ### Operand slots (R336) -/

theorem State.withSlot_some {s : State} {i : SlotNo} {x : BitMatrix} (h : s.slot i = some x)
    (f : BitMatrix → State) : s.withSlot i f = f x := by
  simp [State.withSlot, h]

theorem State.withSlot_none {s : State} {i : SlotNo} (h : s.slot i = none)
    (f : BitMatrix → State) : s.withSlot i f = s.raise .invalidSlot := by
  simp [State.withSlot, h]

/-! ### NewMatrix and construction (R152) -/

/-- NewMatrix succeeds exactly when the shape is within MAXDIM and the store has room. -/
theorem State.newMatrix_eq (s : State) (rows cols freed : Nat) :
    s.newMatrix rows cols freed =
      if rows ≤ s.config.maxDim ∧ cols ≤ s.config.maxDim ∧
          s.usage - freed + rows * wordsPerRow cols ≤ s.config.hostMemWords then
        .ok (zeroMatrix rows cols)
      else .error .resourceExhausted := by
  unfold State.newMatrix
  by_cases h1 : s.config.maxDim < rows ∨ s.config.maxDim < cols
  · rw [if_pos h1, if_neg (by omega)]
  · rw [if_neg h1]
    by_cases h2 : s.config.hostMemWords < s.usage - freed + rows * wordsPerRow cols
    · rw [if_pos h2, if_neg (by omega)]
    · rw [if_neg h2, if_pos (by omega)]

/-- Construction in a slot: the built matrix and success, or ResourceExhausted and nothing else. -/
theorem State.constructIn_eq (s : State) (rd : SlotNo) (rows cols : Nat)
    (build : BitMatrix → BitMatrix) :
    s.constructIn rd rows cols build =
      if rows ≤ s.config.maxDim ∧ cols ≤ s.config.maxDim ∧
          s.usage - s.slotWords rd + rows * wordsPerRow cols ≤ s.config.hostMemWords then
        s.finishWith rd (build (zeroMatrix rows cols))
      else s.raise .resourceExhausted := by
  unfold State.constructIn
  rw [State.newMatrix_eq]
  by_cases h : rows ≤ s.config.maxDim ∧ cols ≤ s.config.maxDim ∧
      s.usage - s.slotWords rd + rows * wordsPerRow cols ≤ s.config.hostMemWords
  · simp only [if_pos h]
  · simp only [if_neg h]

/-! ### The front end of the multiply commands (R201) -/

/-- All checks of the front end pass. -/
theorem State.mulChecks_eq_none (s : State) (v : Variant) (rd ra rb : SlotNo) (a b : BitMatrix) :
    s.mulChecks v rd ra rb a b = none ↔
      a.cols = b.rows ∧ rd ≠ ra ∧ rd ≠ rb ∧ s.destFits rd a.rows b.cols = true ∧
        backendReady s.config v = true ∧ s.hostFits v rd a b = true ∧ s.devFits v a b = true := by
  unfold State.mulChecks
  by_cases h1 : a.cols = b.rows <;> by_cases h2 : rd = ra <;> by_cases h3 : rd = rb <;>
    cases h4 : s.destFits rd a.rows b.cols <;> cases h5 : backendReady s.config v <;>
    cases h6 : s.hostFits v rd a b <;> cases h7 : s.devFits v a b <;> simp_all

/-- The front end only finds the errors R201 lists. -/
theorem State.mulChecks_error {s : State} {v : Variant} {rd ra rb : SlotNo} {a b : BitMatrix}
    {e : CmdError} (h : s.mulChecks v rd ra rb a b = some e) :
    e = .shapeMismatch ∨ e = .aliasedOperands ∨ e = .backendUnavailable ∨
      e = .resourceExhausted := by
  unfold State.mulChecks at h
  repeat' split at h
  all_goals simp_all

/-- A multiply whose checks pass goes on with its operands. -/
theorem State.multiply_ok {s : State} {v : Variant} {rd ra rb : SlotNo} {a b : BitMatrix}
    (ha : s.slot ra = some a) (hb : s.slot rb = some b)
    (hc : s.mulChecks v rd ra rb a b = none) (f : BitMatrix → BitMatrix → State) :
    s.multiply v rd ra rb f = f a b := by
  simp [State.multiply, State.withSlot_some ha, State.withSlot_some hb, hc]

/-- What a multiply can do: fail before anything changes, or go on with valid operands that passed every
check. -/
theorem State.multiply_cases (s : State) (v : Variant) (rd ra rb : SlotNo)
    (f : BitMatrix → BitMatrix → State) :
    (∃ e, s.multiply v rd ra rb f = s.raise e ∧ e ≠ .deviceFault ∧ e ≠ .illegalCommand ∧
        (v = .muls → e ≠ .backendUnavailable)) ∨
      ∃ a b, s.slot ra = some a ∧ s.slot rb = some b ∧ s.mulChecks v rd ra rb a b = none ∧
        s.multiply v rd ra rb f = f a b := by
  cases ha : s.slot ra with
  | none => exact .inl ⟨.invalidSlot, by simp [State.multiply, State.withSlot_none ha], by simp,
      by simp, by simp⟩
  | some a =>
    cases hb : s.slot rb with
    | none => exact .inl ⟨.invalidSlot, by
        simp [State.multiply, State.withSlot_some ha, State.withSlot_none hb], by simp, by simp,
        by simp⟩
    | some b =>
      cases hc : s.mulChecks v rd ra rb a b with
      | none => exact .inr ⟨a, b, rfl, rfl, hc, State.multiply_ok ha hb hc f⟩
      | some e =>
        refine .inl ⟨e, by simp [State.multiply, State.withSlot_some ha, State.withSlot_some hb, hc],
          ?_, ?_, ?_⟩
        · rcases State.mulChecks_error hc with rfl | rfl | rfl | rfl <;> simp
        · rcases State.mulChecks_error hc with rfl | rfl | rfl | rfl <;> simp
        · rintro rfl rfl
          unfold State.mulChecks at hc
          repeat' split at hc
          all_goals simp_all [backendReady]

/-! ### Padding draws (R203) -/

@[simp] theorem length_drawPadding (base cols : Nat) (data : List Word) :
    (drawPadding base cols data).length = data.length := by
  unfold drawPadding; split <;> simp

@[simp] theorem length_drawWords (base n : Nat) : (drawWords base n).length = n := by
  simp [drawWords]

/-- Word `q` after the padding is drawn. -/
theorem getD_drawPadding (base cols : Nat) (data : List Word) (q : Nat) (hq : q < data.length) :
    (drawPadding base cols data).getD q 0 =
      if cols % 64 ≠ 0 ∧ q % wordsPerRow cols = wordsPerRow cols - 1 then
        mergeHigh (cols % 64) (data.getD q 0) (Config.draw64 (base + q / wordsPerRow cols))
      else data.getD q 0 := by
  unfold drawPadding
  by_cases h : cols % 64 = 0
  · simp [h]
  · simp only [h, if_false, List.getD_eq_getElem?_getD, List.getElem?_mapIdx, not_false_eq_true,
      true_and, ne_eq]
    rw [List.getElem?_eq_getElem hq]
    simp

/-- Drawing the padding changes no valid bit. -/
theorem get_drawPadding (base : Nat) (x : BitMatrix) (hx : x.wf = true) (r c : Nat) :
    BitMatrix.get { x with data := drawPadding base x.cols x.data } r c = x.get r c := by
  obtain ⟨hwpr, hlen⟩ := x.wf_iff.mp hx
  unfold BitMatrix.get
  by_cases h : x.rows ≤ r ∨ x.cols ≤ c
  · simp [h]
  · have hc : c / 64 < x.wpr := hwpr ▸ col_div_lt (by omega)
    have hq : r * x.wpr + c / 64 < x.data.length := hlen ▸ word_lt (by omega) hc
    simp only [h, if_false, BitMatrix.memRead, getD_drawPadding _ _ _ _ hq]
    split
    · rename_i hp
      rw [getLsbD_mergeHigh _ _ _ _ (Nat.mod_lt _ (by omega)), if_pos]
      have hmod : (r * x.wpr + c / 64) % x.wpr = c / 64 := by
        rw [Nat.mul_comm, Nat.mul_add_mod, Nat.mod_eq_of_lt hc]
      rw [← hwpr, hmod] at hp
      have : x.wpr = (x.cols + 64 - 1) / 64 := hwpr
      omega
    · rfl

/-! ### The post-state of a product (R203) -/

@[simp] theorem State.commitProduct_slot_self (s : State) (rd : SlotNo) (m n : Nat)
    (data : List Word) :
    (s.commitProduct rd m n data).slot rd =
      some { rows := m, cols := n, wpr := wordsPerRow n, data := drawPadding s.draws n data } := by
  simp [State.commitProduct]

@[simp] theorem State.commitProduct_slot_ne (s : State) {rd i : SlotNo} (m n : Nat)
    (data : List Word) (h : i ≠ rd) : (s.commitProduct rd m n data).slot i = s.slot i := by
  rw [State.commitProduct, State.slot_finishWith_ne _ _ h]
  rfl

/-! ### The form of the store under each memory operation (R42) -/

theorem BitMatrix.memWrite_wf (x : BitMatrix) (q : Nat) (v : Word) :
    (x.memWrite q v).wf = x.wf := by
  simp [BitMatrix.wf]

theorem drawWords_wf {x : BitMatrix} (hx : x.wf = true) (base : Nat) :
    BitMatrix.wf { x with data := drawWords base x.words } = true := by
  obtain ⟨h, _⟩ := x.wf_iff.mp hx
  simp [BitMatrix.wf, h, BitMatrix.words]

theorem State.wf_finishWith {s : State} (hm : Memory.wf s.slots = true) (i : SlotNo)
    {x : BitMatrix} (hx : x.wf = true) : Memory.wf (s.finishWith i x).slots = true :=
  s.wf_setSlot hm i (x := some x) fun y hy => by cases hy; exact hx

theorem State.wf_constructIn {s : State} (hm : Memory.wf s.slots = true) (rd : SlotNo)
    (rows cols : Nat) {build : BitMatrix → BitMatrix}
    (hb : (build (zeroMatrix rows cols)).wf = true) :
    Memory.wf (s.constructIn rd rows cols build).slots = true := by
  rw [State.constructIn_eq]
  split
  · exact State.wf_finishWith hm rd hb
  · exact hm

theorem State.wf_commitProduct {s : State} (hm : Memory.wf s.slots = true) (rd : SlotNo)
    {m n : Nat} {data : List Word} (hd : data.length = m * wordsPerRow n) :
    Memory.wf (s.commitProduct rd m n data).slots = true := by
  refine State.wf_finishWith (s := { s with draws := _ }) hm rd ?_
  simp [BitMatrix.wf, hd]

end Sys2Proof.Machine
end

