-- ==== Sys2Proof/Laws/Device.lean ====
section
/-! SUPPORT. The device: its buffers after a write, after an upload and after a whole dispatch, the flow of
a GPU command, that the flow keeps the form of the matrix store, and what one step of a work-item or a
barrier can do. -/

namespace Sys2Proof.Machine

/-! ### Buffers -/

@[simp] theorem Device.buf_setBuf_self (d : Device) (x : Buf) (ws : List Word) :
    (d.setBuf x ws).buf x = ws := by cases x <;> rfl

theorem Device.buf_setBuf_ne (d : Device) {x y : Buf} (ws : List Word) (h : y ≠ x) :
    (d.setBuf x ws).buf y = d.buf y := by
  cases x <;> cases y <;> first | rfl | exact absurd rfl h

@[simp] theorem Device.desc_setBuf (d : Device) (x : Buf) (ws : List Word) :
    (d.setBuf x ws).desc = d.desc := by cases x <;> rfl

@[simp] theorem Device.dest_setBuf (d : Device) (x : Buf) (ws : List Word) :
    (d.setBuf x ws).dest = d.dest := by cases x <;> rfl

@[simp] theorem Device.kernel_setBuf (d : Device) (x : Buf) (ws : List Word) :
    (d.setBuf x ws).kernel = d.kernel := by cases x <;> rfl

@[simp] theorem Device.dispatchNo_setBuf (d : Device) (x : Buf) (ws : List Word) :
    (d.setBuf x ws).dispatchNo = d.dispatchNo := by cases x <;> rfl

@[simp] theorem Device.groups_setBuf (d : Device) (x : Buf) (ws : List Word) :
    (d.setBuf x ws).groups = d.groups := by cases x <;> rfl

/-- A word after a store: the one written, or the old one (R18). -/
theorem Device.word_store (d : Device) (x : Buf) (q p : Nat) (v : Word) :
    (d.store x q v).word x p = if p = q ∧ d.inRange x q = true then v else d.word x p := by
  simp only [Device.word, Device.store, Device.buf_setBuf_self, Device.inRange,
    List.getD_eq_getElem?_getD, List.getElem?_set, decide_eq_true_eq]
  by_cases h : q = p
  · subst h
    by_cases hq : q < (d.buf x).length <;> simp [hq]
  · have : ¬(p = q ∧ q < (d.buf x).length) := fun e => h e.1.symm
    simp [h, this]

theorem Device.word_store_ne (d : Device) {x y : Buf} (q p : Nat) (v : Word) (h : y ≠ x) :
    (d.store x q v).word y p = d.word y p := by
  simp [Device.word, Device.store, Device.buf_setBuf_ne d _ h]

@[simp] theorem Device.length_store (d : Device) (x y : Buf) (q : Nat) (v : Word) :
    ((d.store x q v).buf y).length = (d.buf y).length := by
  by_cases h : y = x
  · subst h; simp [Device.store]
  · simp [Device.store, Device.buf_setBuf_ne d _ h]

/-- A word after the whole buffer is written. -/
theorem Device.word_load (d : Device) (x : Buf) (f : Nat → Word) (q : Nat)
    (hq : q < (d.buf x).length) : (d.load x f).word x q = f q := by
  simp only [Device.word, Device.load, Device.buf_setBuf_self, List.getD_eq_getElem?_getD,
    List.getElem?_map, List.getElem?_range hq]
  rfl

theorem Device.word_load_ne (d : Device) {x y : Buf} (f : Nat → Word) (q : Nat) (h : y ≠ x) :
    (d.load x f).word y q = d.word y q := by
  simp [Device.word, Device.load, Device.buf_setBuf_ne d _ h]

@[simp] theorem Device.length_load (d : Device) (x y : Buf) (f : Nat → Word) :
    ((d.load x f).buf y).length = (d.buf y).length := by
  by_cases h : y = x
  · subst h; simp [Device.load]
  · simp [Device.load, Device.buf_setBuf_ne d _ h]

theorem Device.size_eq (d : Device) :
    d.size = (d.buf .a).length + (d.buf .b).length + (d.buf .bt).length + (d.buf .c).length +
      (d.buf .t).length := rfl

/-- Writing words never changes how much device memory is in use. -/
@[simp] theorem Device.size_load (d : Device) (x : Buf) (f : Nat → Word) :
    (d.load x f).size = d.size := by
  simp [Device.size_eq]

@[simp] theorem Device.size_store (d : Device) (x : Buf) (q : Nat) (v : Word) :
    (d.store x q v).size = d.size := by
  simp [Device.size_eq]

@[simp] theorem Device.desc_load (d : Device) (x : Buf) (f : Nat → Word) :
    (d.load x f).desc = d.desc := by simp [Device.load]

@[simp] theorem Device.dest_load (d : Device) (x : Buf) (f : Nat → Word) :
    (d.load x f).dest = d.dest := by simp [Device.load]

@[simp] theorem Device.kernel_load (d : Device) (x : Buf) (f : Nat → Word) :
    (d.load x f).kernel = d.kernel := by simp [Device.load]

@[simp] theorem Device.buf_begin (d : Device) (k : Kernel) (n : Nat) (x : Buf) :
    (d.begin k n).buf x = d.buf x := by cases x <;> rfl

@[simp] theorem Device.word_begin (d : Device) (k : Kernel) (n : Nat) (x : Buf) (q : Nat) :
    (d.begin k n).word x q = d.word x q := by simp [Device.word]

/-! ### A whole dispatch -/

@[simp] theorem Device.desc_runKernel (d : Device) : d.runKernel.desc = d.desc := by
  unfold Device.runKernel; split <;> simp

@[simp] theorem Device.dest_runKernel (d : Device) : d.runKernel.dest = d.dest := by
  unfold Device.runKernel; split <;> simp

@[simp] theorem Device.kernel_runKernel (d : Device) : d.runKernel.kernel = d.kernel := by
  unfold Device.runKernel; split <;> simp

@[simp] theorem Device.length_runKernel (d : Device) (x : Buf) :
    (d.runKernel.buf x).length = (d.buf x).length := by
  unfold Device.runKernel; split <;> simp

@[simp] theorem Device.size_runKernel (d : Device) : d.runKernel.size = d.size := by
  simp [Device.size_eq]

/-- What a dispatch run to its end can do: fail, or complete and let the CP go on (R209, R93). -/
theorem State.runDispatch_some {s : State} {d : Device} (h : s.device = some d) :
    s.runDispatch = if dispatchFails s.config d.dispatchNo then s.failDevice d
      else s.afterDispatch d.runKernel := by
  simp [State.runDispatch, h]

theorem State.runDispatch_none {s : State} (h : s.device = none) : s.runDispatch = s := by
  simp [State.runDispatch, h]

/-! ### The form of the store under the device flow -/

theorem State.wf_failDevice {s : State} (hm : Memory.wf s.slots = true) (d : Device) :
    Memory.wf (s.failDevice d).slots = true := by
  unfold State.failDevice
  split
  · exact hm
  · rename_i x hx
    exact State.wf_setSlot (s := { s with draws := _ }) hm d.dest fun y hy => by
      cases hy
      exact drawWords_wf (State.wf_of_slot hm hx) _

theorem State.wf_afterDispatch {s : State} (hm : Memory.wf s.slots = true) {d : Device}
    (hd : d.bufC.length = d.desc.cRows * wordsPerRow d.desc.cCols) :
    Memory.wf (s.afterDispatch d).slots = true := by
  unfold State.afterDispatch
  split
  · exact hm
  · exact State.wf_commitProduct hm d.dest hd

/-! ### The start of a dispatch -/

/-- The start of a dispatch in the terms of claims, over a problem of `width` by `height` (R213). -/
theorem Device.begin_started (d : Device) (k : Kernel) (n : Nat) {side width height : Nat}
    (hs : side = groupSide k) (hx : gridX k d.desc = ceilDiv width side)
    (hy : gridY k d.desc = ceilDiv height side) :
    DispatchStarted (d.begin k n) side width height (startPos k) := by
  have hpos : 0 < side := by subst hs; cases k <;> simp [groupSide]
  have hgroup : ∀ g, g ∈ (d.begin k n).groups ↔ ∃ gy, gy < ceilDiv height side ∧
      ∃ gx, gx < ceilDiv width side ∧ startGroup k d.desc n gx gy = g := by
    intro g
    simp [Device.begin, startGroups, hx, hy]
  have hitem : ∀ gx gy lx ly, lx < side → ly < side →
      ({ lx := lx, ly := ly, pos := startPos k } : WorkItem) ∈
        (startGroup k d.desc n gx gy).items := by
    intro gx gy lx ly h1 h2
    simp [startGroup, ← hs, h1, h2]
  have hdiv : ∀ x w, x < w → x / side < ceilDiv w side := by
    intro x w hxw
    unfold ceilDiv
    rw [Nat.div_lt_iff_lt_mul hpos]
    have := Nat.div_add_mod (w + side - 1) side
    have := Nat.mod_lt (w + side - 1) hpos
    rw [Nat.mul_comm]
    omega
  refine ⟨?_, ?_, ?_, ?_⟩
  · simp [Device.begin, startGroups, hx, hy, List.length_flatMap, Nat.mul_comm]
  · refine fun gx gy => ⟨?_, fun ⟨h1, h2⟩ => ⟨_, (hgroup _).mpr ⟨gy, h2, gx, h1, rfl⟩, rfl, rfl⟩⟩
    rintro ⟨g, hg, rfl, rfl⟩
    obtain ⟨gy, h1, gx, h2, rfl⟩ := (hgroup g).mp hg
    exact ⟨h2, h1⟩
  · intro g hg
    obtain ⟨gy, h1, gx, h2, rfl⟩ := (hgroup g).mp hg
    refine ⟨?_, rfl, rfl, fun lx ly h1 h2 => hitem _ _ _ _ h1 h2⟩
    simp [startGroup, ← hs, List.length_flatMap]
  · intro x y h1 h2
    obtain ⟨gi, hgi⟩ := List.mem_iff_getElem?.mp
      ((hgroup _).mpr ⟨y / side, hdiv y height h2, x / side, hdiv x width h1, rfl⟩)
    obtain ⟨m, hm⟩ := List.mem_iff_getElem?.mp
      (hitem (x / side) (y / side) (x % side) (y % side) (Nat.mod_lt _ hpos) (Nat.mod_lt _ hpos))
    exact ⟨gi, m, _, _, hgi, hm, rfl, Nat.div_add_mod' x side, Nat.div_add_mod' y side⟩

/-! ### Work-items and barriers -/

/-- All that a work-item's step can do: nothing, or one effect on the buffers and on its own group, with the
work-item moved on. -/
theorem Device.stepItem_cases {d d' : Device} {gi n : Nat} (h : d.stepItem gi n = .ok d') :
    d' = d ∨ ∃ (g : Group) (it : WorkItem) (e : Effect) (p : Pos), d.groups[gi]? = some g ∧
      g.items[n]? = some it ∧ it.pos.canStep = true ∧ itemAction d g it = .ok (e, p) ∧
      d' = { d.apply e with
        groups := d.groups.set gi
          (({ g with items := g.items.set n { it with pos := p } } : Group).apply e) } := by
  unfold Device.stepItem at h
  split at h
  · exact .inl (by simpa using h.symm)
  rename_i g hg
  split at h
  · exact .inl (by simpa using h.symm)
  rename_i it hit
  split at h
  · rename_i hc
    split at h
    · cases h
    · rename_i e p ha
      exact .inr ⟨g, it, e, p, hg, hit, hc, ha, by simpa using h.symm⟩
  · exact .inl (by simpa using h.symm)

/-- All that the barrier's move can do: the release of a group that can be released, or nothing. -/
theorem Device.stepBarrier_cases (d : Device) (gi : Nat) :
    (∃ g, d.groups[gi]? = some g ∧ g.canRelease = true ∧
      d.stepBarrier gi = { d with groups := d.groups.set gi g.release }) ∨
    ((∀ g, d.groups[gi]? = some g → g.canRelease = false) ∧ d.stepBarrier gi = d) := by
  unfold Device.stepBarrier
  cases hg : d.groups[gi]? with
  | none => exact .inr ⟨fun _ h => by simp at h, rfl⟩
  | some g => cases hr : g.canRelease <;> simp [hr]

/-- A release needs a group with work-items, all of them counted and at one site of its generation. -/
theorem Group.canRelease_iff (g : Group) : g.canRelease = true ↔
    g.items ≠ [] ∧ g.waiting = g.items.length ∧
      ((∀ it ∈ g.items, it.pos.waitsT4 g.generation = true) ∨
        ∀ it ∈ g.items, it.pos.waitsT6 g.generation = true) := by
  simp [Group.canRelease, and_assoc]

end Sys2Proof.Machine
end

