-- ==== Sys2Proof/Laws/Host.lean ====
section
/-! SUPPORT. The host agent: its names after an assignment, where a jump goes, and the bits a conditional
jump compares (spec/30_encoding.md R128). -/

namespace Sys2Proof.Machine

/-- Setting a name sets that name and no other, and the next statement comes after it. -/
theorem HostAgent.setsName_assign (h : HostAgent) (x : Nat) (w : Word) :
    SetsName h (h.assign x w).advance x w := by
  refine ⟨rfl, rfl, fun y => ?_⟩
  simp only [HostAgent.advance, HostAgent.assign, HostAgent.lookup, List.find?_cons]
  by_cases hy : y = x
  · subst hy
    simp
  · have hxy : (x == y) = false := beq_false_of_ne (Ne.symm hy)
    have hkeep : (fun a : Nat × Word => decide ((a.1 != x) = true ∧ (a.1 == y) = true)) =
        fun a => a.1 == y := by
      funext a
      by_cases ha : a.1 = y <;> simp [ha, hy]
    simp only [hxy, hy, if_false, List.find?_filter, hkeep]

/-- A jump goes to the first line with its label. -/
theorem HostAgent.labelLine_eq_some (h : HostAgent) (l n : Nat) :
    h.labelLine l = some n ↔ h.LabelAt l n := by
  unfold HostAgent.labelLine HostAgent.LabelAt
  rw [List.findIdx?_eq_some_iff_getElem]
  constructor
  · rintro ⟨hn, h1, h2⟩
    refine ⟨by simpa [hn] using h1, fun m hm => ?_⟩
    have := h2 m hm
    simpa [List.getElem?_eq_getElem (show m < h.program.length by omega)] using this
  · rintro ⟨h1, h2⟩
    obtain ⟨hn, h1⟩ := List.getElem?_eq_some_iff.mp h1
    refine ⟨hn, by simp [h1], fun m hm => ?_⟩
    have := h2 m hm
    simpa [List.getElem?_eq_getElem (show m < h.program.length by omega)] using this

/-- A program without the label has no line for it. -/
theorem HostAgent.labelLine_eq_none {h : HostAgent} {l : Nat} (hl : ∀ n, ¬h.LabelAt l n) :
    h.labelLine l = none :=
  Option.eq_none_iff_forall_ne_some.mpr fun n hn => hl n ((h.labelLine_eq_some l n).mp hn)

/-- The number a bit range has is that of the bits extracted. -/
theorem sliceNat_eq (w : Word) (hi lo : Nat) :
    sliceNat w hi lo = (w.extractLsb' lo (hi + 1 - lo)).toNat := by
  simp [sliceNat, Nat.shiftRight_eq_div_pow]

end Sys2Proof.Machine
end

