-- ==== Sys2Proof/Laws/PerInstr.lean ====
section
/-! SUPPORT. The fields of a slot number placed in a command word (spec/30_encoding.md R120), and the
family Encoded: the word of every command is well-formed, none of the three cases of R126 applies to it,
with one lemma per constructor of Instr. -/

namespace Sys2Proof.Laws

@[simp] theorem extract_slotBits_8_0 : ∀ i : SlotNo, (slotBits i 8).extractLsb' 0 8 = 0 := by
  decide +kernel

@[simp] theorem extract_slotBits_8_8 : ∀ i : SlotNo, (slotBits i 8).extractLsb' 8 4 = BitVec.ofNat 4 i.val := by
  decide +kernel

@[simp] theorem extract_slotBits_8_12 : ∀ i : SlotNo, (slotBits i 8).extractLsb' 12 4 = 0 := by
  decide +kernel

@[simp] theorem extract_slotBits_8_16 : ∀ i : SlotNo, (slotBits i 8).extractLsb' 16 4 = 0 := by
  decide +kernel

@[simp] theorem extract_slotBits_8_20 : ∀ i : SlotNo, (slotBits i 8).extractLsb' 20 12 = 0 := by
  decide +kernel

@[simp] theorem extract_slotBits_12_0 : ∀ i : SlotNo, (slotBits i 12).extractLsb' 0 8 = 0 := by
  decide +kernel

@[simp] theorem extract_slotBits_12_8 : ∀ i : SlotNo, (slotBits i 12).extractLsb' 8 4 = 0 := by
  decide +kernel

@[simp] theorem extract_slotBits_12_12 : ∀ i : SlotNo, (slotBits i 12).extractLsb' 12 4 = BitVec.ofNat 4 i.val := by
  decide +kernel

@[simp] theorem extract_slotBits_12_16 : ∀ i : SlotNo, (slotBits i 12).extractLsb' 16 4 = 0 := by
  decide +kernel

@[simp] theorem extract_slotBits_12_20 : ∀ i : SlotNo, (slotBits i 12).extractLsb' 20 12 = 0 := by
  decide +kernel

@[simp] theorem extract_slotBits_16_0 : ∀ i : SlotNo, (slotBits i 16).extractLsb' 0 8 = 0 := by
  decide +kernel

@[simp] theorem extract_slotBits_16_8 : ∀ i : SlotNo, (slotBits i 16).extractLsb' 8 4 = 0 := by
  decide +kernel

@[simp] theorem extract_slotBits_16_12 : ∀ i : SlotNo, (slotBits i 16).extractLsb' 12 4 = 0 := by
  decide +kernel

@[simp] theorem extract_slotBits_16_16 : ∀ i : SlotNo, (slotBits i 16).extractLsb' 16 4 = BitVec.ofNat 4 i.val := by
  decide +kernel

@[simp] theorem extract_slotBits_16_20 : ∀ i : SlotNo, (slotBits i 16).extractLsb' 20 12 = 0 := by
  decide +kernel

end Sys2Proof.Laws

namespace Sys2Proof.Laws.Encoded

/-- The command word of `i` is well-formed (R126). -/
def Statement (i : Instr) : Prop := wordWellFormed (encode i) = true

theorem malloc (rd : SlotNo) : Statement (.malloc rd) := by
  simp [Statement, encode, wordWellFormed, WordCheck.opcodeAssigned, WordCheck.reservedZero,
    WordCheck.unusedRdZero, WordCheck.unusedRaZero, WordCheck.unusedRbZero, fieldUse,
    BitVec.extractLsb'_or]

theorem mfree (rd : SlotNo) : Statement (.mfree rd) := by
  simp [Statement, encode, wordWellFormed, WordCheck.opcodeAssigned, WordCheck.reservedZero,
    WordCheck.unusedRdZero, WordCheck.unusedRaZero, WordCheck.unusedRbZero, fieldUse,
    BitVec.extractLsb'_or]

theorem mget (ra : SlotNo) : Statement (.mget ra) := by
  simp [Statement, encode, wordWellFormed, WordCheck.opcodeAssigned, WordCheck.reservedZero,
    WordCheck.unusedRdZero, WordCheck.unusedRaZero, WordCheck.unusedRbZero, fieldUse,
    BitVec.extractLsb'_or]

theorem mset (rd : SlotNo) : Statement (.mset rd) := by
  simp [Statement, encode, wordWellFormed, WordCheck.opcodeAssigned, WordCheck.reservedZero,
    WordCheck.unusedRdZero, WordCheck.unusedRaZero, WordCheck.unusedRbZero, fieldUse,
    BitVec.extractLsb'_or]

theorem mrand (rd : SlotNo) : Statement (.mrand rd) := by
  simp [Statement, encode, wordWellFormed, WordCheck.opcodeAssigned, WordCheck.reservedZero,
    WordCheck.unusedRdZero, WordCheck.unusedRaZero, WordCheck.unusedRbZero, fieldUse,
    BitVec.extractLsb'_or]

theorem mtrans (rd ra : SlotNo) : Statement (.mtrans rd ra) := by
  simp [Statement, encode, wordWellFormed, WordCheck.opcodeAssigned, WordCheck.reservedZero,
    WordCheck.unusedRdZero, WordCheck.unusedRaZero, WordCheck.unusedRbZero, fieldUse,
    BitVec.extractLsb'_or]

theorem meq (ra rb : SlotNo) : Statement (.meq ra rb) := by
  simp [Statement, encode, wordWellFormed, WordCheck.opcodeAssigned, WordCheck.reservedZero,
    WordCheck.unusedRdZero, WordCheck.unusedRaZero, WordCheck.unusedRbZero, fieldUse,
    BitVec.extractLsb'_or]

theorem mrdw (ra : SlotNo) : Statement (.mrdw ra) := by
  simp [Statement, encode, wordWellFormed, WordCheck.opcodeAssigned, WordCheck.reservedZero,
    WordCheck.unusedRdZero, WordCheck.unusedRaZero, WordCheck.unusedRbZero, fieldUse,
    BitVec.extractLsb'_or]

theorem mwrw (rd : SlotNo) : Statement (.mwrw rd) := by
  simp [Statement, encode, wordWellFormed, WordCheck.opcodeAssigned, WordCheck.reservedZero,
    WordCheck.unusedRdZero, WordCheck.unusedRaZero, WordCheck.unusedRbZero, fieldUse,
    BitVec.extractLsb'_or]

theorem mdim (ra : SlotNo) : Statement (.mdim ra) := by
  simp [Statement, encode, wordWellFormed, WordCheck.opcodeAssigned, WordCheck.reservedZero,
    WordCheck.unusedRdZero, WordCheck.unusedRaZero, WordCheck.unusedRbZero, fieldUse,
    BitVec.extractLsb'_or]

theorem muls (rd ra rb : SlotNo) : Statement (.muls rd ra rb) := by
  simp [Statement, encode, wordWellFormed, WordCheck.opcodeAssigned, WordCheck.reservedZero,
    WordCheck.unusedRdZero, WordCheck.unusedRaZero, WordCheck.unusedRbZero, fieldUse,
    BitVec.extractLsb'_or]

theorem mulv (rd ra rb : SlotNo) : Statement (.mulv rd ra rb) := by
  simp [Statement, encode, wordWellFormed, WordCheck.opcodeAssigned, WordCheck.reservedZero,
    WordCheck.unusedRdZero, WordCheck.unusedRaZero, WordCheck.unusedRbZero, fieldUse,
    BitVec.extractLsb'_or]

theorem mulvg (rd ra rb : SlotNo) : Statement (.mulvg rd ra rb) := by
  simp [Statement, encode, wordWellFormed, WordCheck.opcodeAssigned, WordCheck.reservedZero,
    WordCheck.unusedRdZero, WordCheck.unusedRaZero, WordCheck.unusedRbZero, fieldUse,
    BitVec.extractLsb'_or]

theorem mult (rd ra rb : SlotNo) : Statement (.mult rd ra rb) := by
  simp [Statement, encode, wordWellFormed, WordCheck.opcodeAssigned, WordCheck.reservedZero,
    WordCheck.unusedRdZero, WordCheck.unusedRaZero, WordCheck.unusedRbZero, fieldUse,
    BitVec.extractLsb'_or]

theorem mul4r (rd ra rb : SlotNo) : Statement (.mul4r rd ra rb) := by
  simp [Statement, encode, wordWellFormed, WordCheck.opcodeAssigned, WordCheck.reservedZero,
    WordCheck.unusedRdZero, WordCheck.unusedRaZero, WordCheck.unusedRbZero, fieldUse,
    BitVec.extractLsb'_or]

end Sys2Proof.Laws.Encoded
end

