-- ==== Sys2Proof/Tests/Slice0.lean ====
section
/-! SUPPORT. Tests: ill-formed words and configurations are refused, words written out bit by bit from
spec/30_encoding.md decode, the vectors of spec/95_test_vectors.md come out, and every statement with
hypotheses has a witness. Expected results are the spec's. -/

namespace Sys2Proof.Machine.Tests

set_option Elab.async false

/-! ### Helpers -/

/-- A matrix with the given words. -/
def mat (rows cols : Nat) (data : List Word) : BitMatrix where
  rows := rows
  cols := cols
  wpr := wordsPerRow cols
  data := data

/-- The state after reset with some slots filled. -/
def filled (l : List (SlotNo × BitMatrix)) : State :=
  l.foldl (fun s p => s.setSlot p.1 (some p.2)) State.reset

/-- A state with the given latched scalars. -/
def args (s : State) (a0 a1 a2 : Word) : State := { s with a0 := a0, a1 := a1, a2 := a2 }

/-- A state whose configuration has another MAXDIM and HOSTMEM_WORDS. -/
def limits (s : State) (maxDim hostMemWords : Nat) : State :=
  { s with config := { s.config with maxDim := maxDim, hostMemWords := hostMemWords } }

/-- What is observed of the next state, if there is one. -/
def after {α : Type} (o : Host.Outcome State Fault Refusal) (f : State → α) : Option α :=
  match o with
  | .next t => some (f t)
  | _ => none

/-- ERRCODE and RESULT. -/
def codeAndResult (t : State) : BitVec 8 × Word := (t.errCode, t.result)

/-- ERRCODE and the matrix of slot `i`. -/
def codeAndSlot (i : SlotNo) (t : State) : BitVec 8 × Option BitMatrix := (t.errCode, t.slot i)

/-- A and B of the worked example E1. -/
def matA : BitMatrix := mat 2 3 [0x5, 0x6]
def matB : BitMatrix := mat 3 2 [0x1, 0x2, 0x3]

/-! ### Well-formedness (R126, R13, R39) -/

theorem test_wf_opcode_unassigned : WordCheck.opcodeAssigned 0x0000000B = false := by decide +kernel
theorem test_wf_reserved_set : WordCheck.reservedZero 0x00100210 = false := by decide +kernel
theorem test_wf_reserved_top_set : WordCheck.reservedZero 0x80010210 = false := by decide +kernel
theorem test_wf_rd_unused : WordCheck.unusedRdZero 0x00000203 = false := by decide +kernel
theorem test_wf_ra_unused : WordCheck.unusedRaZero 0x00001001 = false := by decide +kernel
theorem test_wf_rb_unused : WordCheck.unusedRbZero 0x00010206 = false := by decide +kernel
theorem test_wf_word : wordWellFormed 0x00010210 = true := by decide +kernel
theorem test_wf_maxdim_zero : Config.legal { Config.full with maxDim := 0 } = false := by
  decide +kernel
theorem test_wf_maxdim_large : Config.legal { Config.full with maxDim := 2 ^ 32 } = false := by
  decide +kernel
theorem test_wf_pipe_without_device : Config.legal { Config.full with capDev := false } = false := by
  decide +kernel
theorem test_wf_config : Config.full.legal = true := by decide +kernel
theorem test_wf_matrix_layout : BitMatrix.wf { matA with data := [0x5] } = false := by decide +kernel

/-! ### Decoding: the fields RSV, RB, RA, RD, OPC written out (R120, R123, R126) -/

theorem test_decode_malloc :
    decode (0b000000000000#12 ++ 0b0000#4 ++ 0b0000#4 ++ 0b1111#4 ++ 0b00000001#8) =
      some (.malloc 15) := by decide +kernel
theorem test_decode_mfree :
    decode (0b000000000000#12 ++ 0b0000#4 ++ 0b0000#4 ++ 0b0101#4 ++ 0b00000010#8) =
      some (.mfree 5) := by decide +kernel
theorem test_decode_mget :
    decode (0b000000000000#12 ++ 0b0000#4 ++ 0b0010#4 ++ 0b0000#4 ++ 0b00000011#8) =
      some (.mget 2) := by decide +kernel
theorem test_decode_mset :
    decode (0b000000000000#12 ++ 0b0000#4 ++ 0b0000#4 ++ 0b1000#4 ++ 0b00000100#8) =
      some (.mset 8) := by decide +kernel
theorem test_decode_mrand :
    decode (0b000000000000#12 ++ 0b0000#4 ++ 0b0000#4 ++ 0b0001#4 ++ 0b00000101#8) =
      some (.mrand 1) := by decide +kernel
theorem test_decode_mtrans :
    decode (0b000000000000#12 ++ 0b0000#4 ++ 0b0001#4 ++ 0b0010#4 ++ 0b00000110#8) =
      some (.mtrans 2 1) := by decide +kernel
theorem test_decode_meq :
    decode (0b000000000000#12 ++ 0b0010#4 ++ 0b0001#4 ++ 0b0000#4 ++ 0b00000111#8) =
      some (.meq 1 2) := by decide +kernel
theorem test_decode_mrdw :
    decode (0b000000000000#12 ++ 0b0000#4 ++ 0b1110#4 ++ 0b0000#4 ++ 0b00001000#8) =
      some (.mrdw 14) := by decide +kernel
theorem test_decode_mwrw :
    decode (0b000000000000#12 ++ 0b0000#4 ++ 0b0000#4 ++ 0b0111#4 ++ 0b00001001#8) =
      some (.mwrw 7) := by decide +kernel
theorem test_decode_mdim :
    decode (0b000000000000#12 ++ 0b0000#4 ++ 0b1111#4 ++ 0b0000#4 ++ 0b00001010#8) =
      some (.mdim 15) := by decide +kernel
theorem test_decode_muls :
    decode (0b000000000000#12 ++ 0b0001#4 ++ 0b0000#4 ++ 0b0010#4 ++ 0b00010000#8) =
      some (.muls 2 0 1) := by decide +kernel
theorem test_decode_mulv :
    decode (0b000000000000#12 ++ 0b1000#4 ++ 0b0100#4 ++ 0b0010#4 ++ 0b00010001#8) =
      some (.mulv 2 4 8) := by decide +kernel
theorem test_decode_mulvg :
    decode (0b000000000000#12 ++ 0b0001#4 ++ 0b0000#4 ++ 0b0100#4 ++ 0b00010010#8) =
      some (.mulvg 4 0 1) := by decide +kernel
theorem test_decode_mult :
    decode (0b000000000000#12 ++ 0b0011#4 ++ 0b0010#4 ++ 0b0001#4 ++ 0b00010011#8) =
      some (.mult 1 2 3) := by decide +kernel
theorem test_decode_mul4r :
    decode (0b000000000000#12 ++ 0b1111#4 ++ 0b0000#4 ++ 0b0110#4 ++ 0b00010100#8) =
      some (.mul4r 6 0 15) := by decide +kernel
/-- The illegal words of spec/95_test_vectors.md 2.1. -/
theorem test_decode_illegal :
    [0x00001001, 0x00000203, 0x00000107, 0x00000F0A, 0x00100210, 0x80010210, 0x00000000, 0x0000000B,
      0x0000000F, 0x00000015, 0x000000FF, 0xFFFFFFFF].all (fun w => decode w == none) = true := by
  decide +kernel

/-! ### The register block (spec/95_test_vectors.md 2.2) -/

theorem test_caps_full : State.reset.readPort 0x30 = 0x000010100820043F := by decide +kernel
theorem test_caps_no_tiled :
    capsWord { Config.full with capSimd := false, capPipeTiled := false, simdL := .eight } =
      0x0000101008200836 := by decide +kernel
theorem test_status_busy_overrun :
    (State.reset.access (.write 0 0x1) |>.access (.write 0 0x2)).readPort 0x28 = 0x5 := by
  decide +kernel
theorem test_cmd_write_uses_low_half :
    decode (State.reset.access (.write 0 0xFFFFFFFF00010210)).cmd = some (.muls 2 0 1) := by
  decide +kernel

/-! ### One step of each command (spec/95_test_vectors.md 2.3 to 2.8) -/

/-- B1. -/
theorem test_malloc : after (exec (.malloc 0) (args State.reset 2 3 0)) (codeAndSlot 0) =
    some (0, some (mat 2 3 [0, 0])) := by decide +kernel
/-- B6: the old 2 words are freed first. -/
theorem test_malloc_replaces :
    after (exec (.malloc 0) (args (limits (filled [(0, matA)]) 100 4) 4 3 0)) (codeAndSlot 0) =
      some (0, some (mat 4 3 [0, 0, 0, 0])) := by decide +kernel
/-- B8. -/
theorem test_mfree_invalid : after (exec (.mfree 5) State.reset) codeAndResult = some (5, 0) := by
  decide +kernel
/-- B9. -/
theorem test_mfree : after (exec (.mfree 0) (filled [(0, matA)])) (codeAndSlot 0) = some (0, none) := by
  decide +kernel
/-- B10. -/
theorem test_mget : after (exec (.mget 0) (args (filled [(0, matA)]) 0 2 0)) codeAndResult =
    some (0, 1) := by decide +kernel
/-- B10. -/
theorem test_mget_out_of_range :
    after (exec (.mget 0) (args (filled [(0, matA)]) 0 0xFFFFFFFFFFFFFFFF 0)) codeAndResult =
      some (0, 0) := by decide +kernel
/-- E6. -/
theorem test_mset_last : after (exec (.mset 0) (args (filled [(0, mat 2 3 [0, 0])]) 1 2 1))
    (codeAndSlot 0) = some (0, some (mat 2 3 [0, 4])) := by decide +kernel
/-- E6: only bit 0 of the value counts. -/
theorem test_mset_even_value :
    after (exec (.mset 0) (args (filled [(0, mat 2 3 [1, 4])]) 0 0 0xFFFFFFFFFFFFFFFE))
      (codeAndSlot 0) = some (0, some (mat 2 3 [0, 4])) := by decide +kernel
/-- B3: a matrix without words. -/
theorem test_mrand_empty : after (exec (.mrand 3) (filled [(3, mat 1 0 [])])) (codeAndSlot 3) =
    some (0, some (mat 1 0 [])) := by decide +kernel
/-- B11: two words are drawn and the shape stays. -/
theorem test_mrand_shape :
    after (exec (.mrand 0) (filled [(0, mat 1 65 [0, 0])]))
      (fun t => (t.draws, (t.slot 0).map fun x => (x.rows, x.cols, x.data.length))) =
      some (2, some (1, 65, 2)) := by decide +kernel
/-- E3: the transpose clears the padding. -/
theorem test_mtrans : after (exec (.mtrans 1 0) (filled [(0, mat 2 3 [0xFD, 0x4])])) (codeAndSlot 1) =
    some (0, some (mat 3 2 [0x1, 0x0, 0x3])) := by decide +kernel
/-- B14. -/
theorem test_mtrans_in_place : after (exec (.mtrans 0 0) (filled [(0, matA)])) (codeAndSlot 0) =
    some (0, some matB) := by decide +kernel
/-- B16. -/
theorem test_meq_padding :
    after (exec (.meq 0 1) (filled [(0, matA), (1, mat 2 3 [0xFD, 0x6])])) codeAndResult =
      some (0, 1) := by decide +kernel
/-- B19. -/
theorem test_meq_empty_shapes :
    after (exec (.meq 2 5) (filled [(2, mat 0 5 []), (5, mat 0 4 [])])) codeAndResult =
      some (0, 0) := by decide +kernel
/-- B21. -/
theorem test_mrdw : after (exec (.mrdw 0) (args (filled [(0, matA)]) 1 0 0)) codeAndResult =
    some (0, 6) := by decide +kernel
/-- B21. -/
theorem test_mrdw_out_of_range :
    after (exec (.mrdw 0) (args (filled [(0, matA)]) 2 0 0)) codeAndResult = some (0, 0) := by
  decide +kernel
/-- B22. -/
theorem test_mwrw :
    after (exec (.mwrw 0) (args (filled [(0, mat 2 3 [0, 0])]) 0 0xFFFFFFFFFFFFFFFF 0))
      (codeAndSlot 0) = some (0, some (mat 2 3 [0xFFFFFFFFFFFFFFFF, 0])) := by decide +kernel
/-- B23. -/
theorem test_mwrw_out_of_range :
    after (exec (.mwrw 0) (args (filled [(0, mat 2 3 [0, 0])]) 2 1 0)) (codeAndSlot 0) =
      some (0, some (mat 2 3 [0, 0])) := by decide +kernel
/-- B25. -/
theorem test_mdim : after (exec (.mdim 0) (filled [(0, mat 70 70 (List.replicate 140 0))]))
    codeAndResult = some (0, 0x0000004600000046) := by decide +kernel
/-- B2. -/
theorem test_mdim_empty : after (exec (.mdim 2) (filled [(2, mat 0 5 [])])) codeAndResult =
    some (0, 0x0000000500000000) := by decide +kernel
/-- S4: the bits the loops of MULS set in a valid destination. -/
theorem test_muls_bits :
    (scalarProduct matA matB (mat 2 2 [0xFFFFFFFFFFFFFFFF, 0xFFFFFFFFFFFFFFFF])).data =
      [0xFFFFFFFFFFFFFFFE, 0xFFFFFFFFFFFFFFFD] := by decide +kernel
/-- S6, S7: the sum crosses the word boundary. -/
theorem test_muls_word_boundary :
    (scalarProduct (mat 1 65 [1, 1]) (mat 65 1 (1 :: List.replicate 63 0 ++ [1])) (zeroMatrix 1 1)).data =
      [0] := by decide +kernel
/-- V2: every SIMD_L gives the same word x. -/
theorem test_mulv_lanes :
    [2, 4, 8].map (fun L => simdXor L 4 fun t => [0x5, 0x3, 0x1, 0xC0].getD t 0) =
      [0xC7, 0xC7, 0xC7] := by decide +kernel
/-- V1. -/
theorem test_mulv_bits : (simdProduct 2 matA matB (zeroMatrix 2 2)).data = [0x2, 0x1] := by
  decide +kernel
/-- G3 cut to one full word: B's words are selected whole. -/
theorem test_mulvg :
    after (exec (.mulvg 2 0 1) (filled [(0, mat 1 2 [0x3]), (1, mat 2 64 [0xF0, 0x3C])]))
      (codeAndSlot 2) = some (0, some (mat 1 64 [0xCC])) := by decide +kernel
/-- G4. -/
theorem test_mulvg_unavailable :
    after (exec (.mulvg 2 0 1) { filled [(0, matA), (1, matB)] with
      config := { Config.full with capPipeVec := false } }) (codeAndSlot 2) = some (2, none) := by
  decide +kernel
/-- T2. -/
theorem test_mult :
    after (exec (.mult 2 0 1) (filled [(0, mat 1 1 [0x1]), (1, mat 1 64 [0xFFFFFFFFFFFFFFFF])]))
      (codeAndSlot 2) = some (0, some (mat 1 64 [0xFFFFFFFFFFFFFFFF])) := by decide +kernel
/-- T7 in shape: the zeroed bufC replaces the old words. -/
theorem test_mult_in_place :
    after (exec (.mult 2 0 1) (filled [(0, mat 1 1 [0x1]), (1, mat 1 64 [0x5]),
      (2, mat 1 64 [0xFFFFFFFFFFFFFFFF])])) (codeAndSlot 2) =
      some (0, some (mat 1 64 [0x5])) := by decide +kernel
/-- M4 with a full word of columns: row 8 of B comes from the table of chunk 1. -/
theorem test_mul4r :
    after (exec (.mul4r 2 0 1) (filled [(0, mat 1 9 [0x101]), (1, mat 9 64 (List.replicate 8 0 ++ [0x3]))]))
      (codeAndSlot 2) = some (0, some (mat 1 64 [0x3])) := by decide +kernel
/-- M2: the visit order of the keys of popcount 2, and the first of popcount 3. -/
theorem test_mul4r_visit_order :
    [3, 5, 6, 9, 10, 12, 17, 7, 11].map nextSamePopcount = [5, 6, 9, 10, 12, 17, 18, 11, 13] := by
  decide +kernel

/-! ### Witnesses: hypotheses of the statements, met together -/

/-- A next state of which `f` observes `x`. -/
theorem of_after {α : Type} {o : Host.Outcome State Fault Refusal} {f : State → α} {x : α}
    (h : after o f = some x) : ∃ t, o = .next t ∧ f t = x := by
  cases o with
  | next t => exact ⟨t, rfl, by simpa [after] using h⟩
  | fault e => simp [after] at h
  | refused r => simp [after] at h

/-- The state after reset with the operands of E1 in slots 0 and 1. -/
def withAB : State := filled [(0, matA), (1, matB)]

/-- That state with the capacity of the matrix store and of device memory as given. -/
def tight (hostMemWords devMemWords : Nat) : State :=
  { withAB with config := { Config.full with
      hostMemWords := hostMemWords, devMemWords := devMemWords } }

/-- That state with command word `w` in flight and the given moves. -/
def inFlight (w : CmdWord) (turns : List Turn) : State :=
  { withAB with cmd := w, busy := true, turns := turns }

/-- A work-group whose work-items stand at `l`, all counted as arrived at its barrier. -/
def grp (l : List Pos) : Group where
  gx := 0
  gy := 0
  items := l.map fun p => { lx := 0, ly := 1, pos := p }
  ta := []
  tb := []
  waiting := l.length
  generation := 0

/-- A device for the operands of E1, with one work-group whose work-items stand at `l`. -/
def dev (k : Kernel) (l : List Pos) : Device where
  desc := descriptorOf matA matB
  dest := 2
  bufA := [0x5, 0x6]
  bufB := [0x1, 0x2, 0x3]
  bufBT := [0x5, 0x6]
  bufC := [0, 0]
  bufT := List.replicate 2048 0
  kernel := k
  groups := [grp l]
  dispatchNo := 0

/-- The state with that device. -/
def onDev (k : Kernel) (l : List Pos) (turns : List Turn) : State :=
  { withAB with busy := true, device := some (dev k l), turns := turns }

/-- The operands of E1 pass every check, into a fresh slot. -/
theorem ready_fresh (v : Variant) : MulReady withAB v 2 0 1 matA matB where
  operand_a := by decide +kernel
  operand_b := by decide +kernel
  shapes := rfl
  dest_not_a := by decide
  dest_not_b := by decide
  dest_shape := fun c h => by
    rw [show withAB.slot 2 = none by decide +kernel] at h
    cases h
  backend := by cases v <;> decide +kernel
  host_fits := by cases v <;> decide +kernel
  device_fits := by cases v <;> decide +kernel

/-- RA = RB, the destination written in place, and A the identity. -/
def square : State := filled [(0, mat 2 2 [0x1, 0x2]), (1, mat 2 2 [0x7, 0x7])]

theorem ready_square (v : Variant) :
    MulReady square v 1 0 0 (mat 2 2 [0x1, 0x2]) (mat 2 2 [0x1, 0x2]) where
  operand_a := by decide +kernel
  operand_b := by decide +kernel
  shapes := rfl
  dest_not_a := by decide
  dest_not_b := by decide
  dest_shape := fun c h => by
    rw [show square.slot 1 = some (mat 2 2 [0x7, 0x7]) by decide +kernel] at h
    cases h
    decide
  backend := by cases v <;> decide +kernel
  host_fits := by cases v <;> decide +kernel
  device_fits := by cases v <;> decide +kernel

/-- k = 0. -/
def emptySum : State := filled [(0, mat 2 0 []), (1, mat 0 3 [])]

theorem ready_emptySum (v : Variant) : MulReady emptySum v 2 0 1 (mat 2 0 []) (mat 0 3 []) where
  operand_a := by decide +kernel
  operand_b := by decide +kernel
  shapes := rfl
  dest_not_a := by decide
  dest_not_b := by decide
  dest_shape := fun c h => by
    rw [show emptySum.slot 2 = none by decide +kernel] at h
    cases h
  backend := by cases v <;> decide +kernel
  host_fits := by cases v <;> decide +kernel
  device_fits := by cases v <;> decide +kernel

theorem test_witness_EncodeOfDecode : decode 0x000FFF14 = some (.mul4r 15 15 15) := by decide +kernel

theorem test_witness_OpcodeMapRowsMatch :
    [(0x00000F01, 0xFFFFF0FF, 0x01), (0x00000F02, 0xFFFFF0FF, 0x02), (0x0000F003, 0xFFFF0FFF, 0x03),
      (0x00000F04, 0xFFFFF0FF, 0x04), (0x00000F05, 0xFFFFF0FF, 0x05), (0x0000FF06, 0xFFFF00FF, 0x06),
      (0x000FF007, 0xFFF00FFF, 0x07), (0x0000F008, 0xFFFF0FFF, 0x08), (0x00000F09, 0xFFFFF0FF, 0x09),
      (0x0000F00A, 0xFFFF0FFF, 0x0A), (0x000FFF10, 0xFFF000FF, 0x10), (0x000FFF11, 0xFFF000FF, 0x11),
      (0x000FFF12, 0xFFF000FF, 0x12), (0x000FFF13, 0xFFF000FF, 0x13),
      (0x000FFF14, 0xFFF000FF, 0x14)].all
      (fun (w, mask, pattern) => (w : CmdWord) &&& mask == pattern) = true := by decide +kernel

theorem test_witness_CmdWriteIssuesCommand :
    State.reset.busy = false ∧ State.reset.device = none ∧
      (∃ rest, { State.reset with turns := [.access (.write 0x00 0x0000F00A), .command] }.turns =
        .access (.write 0x00 0x0000F00A) :: .command :: rest) ∧
      decode ((0x0000F00A : Word).setWidth 32) = some (.mdim 15) ∧
      (inFlight 0x0000F00A []).busy = true :=
  ⟨rfl, rfl, ⟨_, rfl⟩, by decide +kernel, rfl⟩

/-- An overrun by an access and one by a host statement, and a step that keeps OVR. -/
theorem test_witness_OverrunIsIgnoredAndSticky :
    (∃ t, step (inFlight 0x0000000A [.access (.write 0x00 0)]) = .next t ∧ t.ovr = true) ∧
      (∃ t, step { inFlight 0x0000000A [.host] with
          host := { program := [.command (.mdim 0)], position := 0, names := [] } } = .next t ∧
        t.ovr = true) ∧
      ∃ t, step { inFlight 0x0000000A [.command] with ovr := true } = .next t ∧ t.ovr = true :=
  ⟨of_after (by decide +kernel), of_after (by decide +kernel), of_after (by decide +kernel)⟩

theorem test_witness_RegisterBlockAccessRules :
    (0x20 ∉ [0x00, 0x08, 0x10, 0x18]) ∧ (0x38 ∉ [0x08, 0x10, 0x18, 0x20, 0x28, 0x30]) ∧
      (0xFFFFFFFF00010210 : Word).extractLsb' 0 32 = (0x10210 : Word).extractLsb' 0 32 ∧
      (let s := { inFlight 0 [.host] with
        host := { program := [.rd 0 .result], position := 0, names := [] } }
       s.turns = [.host] ∧ s.host.program[s.host.position]? = some (.rd 0 .result)) := by
  decide +kernel

/-- The state after reset about to execute `st` as the host's only statement but two equal labels. -/
def hosting (st : HostStmt) (busy : Bool) : State :=
  { State.reset with
    busy := busy
    turns := [.host]
    host := { program := [st, .label 7, .label 7], position := 0, names := [(0, 5)] } }

/-- Every statement, WAIT idle and busy, a jump to a label and to none, and a program that has ended. -/
theorem test_witness_HostStatementEffects :
    [HostStmt.wr .arg2 (.name 0), .command (.mdim 3), .rd 0 .caps, .wait, .set 0 (.lit 9),
      .add 0 (.lit (-1)), .label 2, .jmp 7, .jmp 8, .jeq 0 63 0 (.lit 5) 7, .jne 0 63 0 (.lit 5) 7,
      .stop].all (fun st => (hosting st false).turns == [.host] &&
        (hosting st false).host.program[(hosting st false).host.position]? == some st) = true ∧
    (hosting .wait true).busy = true ∧
    (hosting .stop false).host.LabelAt 7 1 ∧ (∀ n, ¬(hosting .stop false).host.LabelAt 8 n) ∧
    (hosting .stop false).host.program[3]? = none ∧
    (let bits := fun hi lo => (((hosting .stop false).host.lookup 0).extractLsb' lo (hi + 1 - lo)).toNat
     bits 63 0 = 5 ∧ bits 2 1 = 2 ∧ bits 64 0 = 5 ∧ bits 0 2 = 0 ∧ bits 0 0 ≠ 5) := by
  refine ⟨by decide +kernel, rfl, ⟨rfl, fun m hm => ?_⟩, fun n hn => ?_, rfl, by decide +kernel⟩
  · obtain rfl : m = 0 := by omega
    decide +kernel
  · have h := List.mem_of_getElem? hn.1
    simp [hosting] at h

/-- What the host's name, position and lastRead are after each host statement (R128; R38 for CAPS). -/
theorem test_host_statements :
    [HostStmt.rd 0 .caps, .set 0 (.lit 9), .add 0 (.lit (-1)), .jmp 7, .jeq 0 2 1 (.lit 2) 7,
      .jne 0 63 0 (.lit 5) 7, .stop].map (fun st =>
        after (step (hosting st false)) fun t => (t.host.lookup 0, t.host.position)) =
      [some (0x000010100820043F, 1), some (9, 1), some (4, 1), some (5, 1), some (5, 1), some (5, 1),
        some (5, 3)] := by decide +kernel

/-- Also the moves of the unit that have a next state: the launch of a dispatch, a work-item, a barrier,
the CP's move after a dispatch, and a failure of the dispatch. -/
theorem test_witness_ArgumentRegistersAreTheHosts :
    (∃ t, exec (.mget 0) withAB = .next t ∧ t.errCode = 0) ∧ (inFlight 0 []).busy = true ∧
      withAB.busy = false ∧
      [Turn.launch, .workItem 0 0, .barrier 0, .proceed, .deviceFail].all Turn.ofUnit = true ∧
      (∃ t, step (inFlight 0x00010212 [.launch]) = .next t ∧ t.dispatches = 1) ∧
      (∃ t, step (onDev .tiled [.t0] [.workItem 0 0]) = .next t ∧ t.busy = true) ∧
      (∃ t, step (onDev .tiled [.t4Wait true 0 0] [.barrier 0]) = .next t ∧ t.busy = true) ∧
      (∃ t, step (onDev .tiled [.done] [.proceed]) = .next t ∧ t.busy = false) ∧
      ∃ t, step { onDev .tiled [.t0] [.deviceFail] with
          config := { Config.full with deviceFaults := true } } = .next t ∧ t.errCode = 3 :=
  ⟨of_after (by decide +kernel), rfl, by decide +kernel, rfl, of_after (by decide +kernel),
    of_after (by decide +kernel), of_after (by decide +kernel), of_after (by decide +kernel),
    of_after (by decide +kernel)⟩

/-- The bits where the fields of STATUS meet. -/
theorem test_witness_StatusFieldsRead :
    [2, 3, 7, 8, 15, 16, 63].map (fun b =>
      (statusWord { State.reset with busy := true, err := true, ovr := true, errCode := 0xFF }).getLsbD
        b) = [true, false, false, true, true, false, false] := by decide +kernel

theorem test_witness_ResetLeavesResetValues :
    Config.full.legal = true ∧
      (inFlight 0x10 [.reset Config.full]).turns = .reset Config.full :: [] := by decide +kernel

theorem test_witness_ConfigurationConstantUntilReset :
    (∃ t, step (inFlight 0x0000000A []) = .next t ∧ t.busy = false) ∧
      ∃ t, step (inFlight 0x10 [.reset { Config.full with capSimd := false }]) = .next t ∧
        t.config.capSimd = false :=
  ⟨of_after (by decide +kernel), of_after (by decide +kernel)⟩

theorem test_witness_StepRunsDecodedCommand :
    (inFlight 0x0000000A [.command]).busy = true ∧ (inFlight 0x0000000A [.command]).device = none ∧
      decode (inFlight 0x0000000A [.command]).cmd = some (.mdim 0) ∧
      (inFlight 0x0000000A []).turns = [] ∧
      decode (BitVec.ofNat 32 (0x000FFF14 % 2 ^ 32)) = some (.mul4r 15 15 15) := by decide +kernel

theorem test_witness_IllegalWordFails :
    (inFlight 0x00100210 [.command]).busy = true ∧ (inFlight 0x00100210 [.command]).device = none ∧
      (inFlight 0x00100210 [.command]).temp = none ∧
      wordWellFormed (inFlight 0x00100210 [.command]).cmd = false := by decide +kernel

theorem test_witness_IdleUnitKeepsState :
    withAB.busy = false ∧ withAB.device = none ∧
      Turn.command ∈ [Turn.command, .launch, .proceed, .deviceFail] ∧
      Turn.deviceFail ∈ [Turn.command, .launch, .proceed, .deviceFail] := by decide +kernel

/-- A step that ends a command, one by access and one by host statement that begins one, and one inside
a device phase. -/
theorem test_witness_EveryCommandCompletes :
    (inFlight 0x0000000A [.command]).busy = true ∧
      (∃ t, step (inFlight 0x0000000A [.command]) = .next t ∧ t.busy = false) ∧
      (∃ t, step { withAB with turns := [.access (.write 0x00 0xA)] } = .next t ∧ t.busy = true) ∧
      (∃ t, step { withAB with
          host := { program := [.command (.mdim 0)], position := 0, names := [] } } = .next t ∧
        t.busy = true) ∧
      ∃ t, step (onDev .tiled [.t0] [.workItem 0 0]) = .next t ∧ t.busy = true :=
  ⟨rfl, of_after (by decide +kernel), of_after (by decide +kernel), of_after (by decide +kernel),
    of_after (by decide +kernel)⟩

theorem test_witness_ResultWrittenByQueriesOnly :
    (∃ t, exec (.mdim 0) withAB = .next t ∧ t.result = 0x0000000300000002) ∧
      ∃ t, step (inFlight 0x0000000A [.command]) = .next t ∧ t.result = 0x0000000300000002 :=
  ⟨of_after (by decide +kernel), of_after (by decide +kernel)⟩

theorem test_witness_CommandFrame :
    (∃ t, exec (.mset 0) (args withAB 0 1 1) = .next t ∧ t.errCode = 0) ∧ isQuery (.mset 0) = false ∧
      destSlot (.mset 0) ≠ some 1 ∧ Turn.ofUnit .launch = true ∧
      (∃ t, step (inFlight 0x00010212 [.launch]) = .next t ∧ t.dispatches = 1) ∧
      (∃ t, step (onDev .vec [.v0] [.workItem 0 0]) = .next t ∧
        t.device = some (dev .vec [.v2 0 0])) ∧
      ∃ t, step (onDev .tiled [.t4Wait true 0 0] [.barrier 0]) = .next t ∧ t.busy = true :=
  ⟨of_after (by decide +kernel), rfl, by decide, rfl, of_after (by decide +kernel),
    of_after (by decide +kernel), of_after (by decide +kernel)⟩

/-- MRAND and a multiply that take draws, and a step of a dispatch. -/
theorem test_witness_DrawsAreFresh :
    (∃ t, exec (.mrand 0) withAB = .next t ∧ t.draws = withAB.draws + 2) ∧
      (∃ t, exec (.muls 2 0 1) withAB = .next t ∧ t.draws = withAB.draws + 2) ∧
      ∃ t, step (inFlight 0x00010212 [.launch]) = .next t ∧ t.dispatches = 1 :=
  ⟨of_after (by decide +kernel), of_after (by decide +kernel), of_after (by decide +kernel)⟩

theorem test_witness_ErrorCodesPerCommand :
    ∃ t, exec (.mult 0 0 1) withAB = .next t ∧ t.errCode = 6 := of_after (by decide +kernel)

theorem test_witness_FailuresArePrecise :
    withAB.device = none ∧ withAB.temp = none ∧
      ∃ t, exec (.mul4r 0 0 1) withAB = .next t ∧ t.errCode = 6 :=
  ⟨by decide +kernel, by decide +kernel, of_after (by decide +kernel)⟩

/-- MAXDIM and HOSTMEM_WORDS met exactly, and each exceeded by one. -/
theorem test_witness_MallocCreatesZeroMatrix :
    (let s := args (limits withAB 65 5) 1 65 0
     s.a0.toNat ≤ s.config.maxDim ∧ s.a1.toNat ≤ s.config.maxDim ∧
       s.usage - s.slotWords 0 + s.a0.toNat * ((s.a1.toNat + 63) / 64) ≤ s.config.hostMemWords) ∧
    (args (limits withAB 65 6) 66 1 0).config.maxDim < (args (limits withAB 65 6) 66 1 0).a0.toNat ∧
    (args (limits withAB 65 6) 1 66 0).config.maxDim < (args (limits withAB 65 6) 1 66 0).a1.toNat ∧
    (let s := args (limits withAB 65 5) 3 1 0
     s.config.hostMemWords <
       s.usage - s.slotWords 0 + s.a0.toNat * ((s.a1.toNat + 63) / 64)) := by decide +kernel

theorem test_witness_MfreeDestroysMatrix :
    withAB.slot 0 = some matA ∧ withAB.slot 15 = none := by decide +kernel

theorem test_witness_MgetReadsOneBit :
    withAB.slot 1 = some matB ∧ withAB.slot 2 = none := by decide +kernel

/-- In range at the last bit, and out of range by one. -/
theorem test_witness_MsetWritesOneBit :
    withAB.slot 0 = some matA ∧ matA.wf = true ∧ withAB.slot 2 = none ∧
      (args withAB 1 2 1).a0.toNat < matA.rows ∧ (args withAB 1 2 1).a1.toNat < matA.cols ∧
      ¬(args withAB 1 3 1).a1.toNat < matA.cols := by decide +kernel

theorem test_witness_MrandDrawsEveryWord :
    withAB.slot 0 = some matA ∧ matA.rows * matA.wpr = 2 ∧ withAB.slot 2 = none := by decide +kernel

/-- The capacity met exactly and exceeded by one, and a shape MAXDIM excludes. -/
theorem test_witness_MtransTransposes :
    withAB.slot 0 = some matA ∧ withAB.slot 2 = none ∧
      (let s := limits withAB 3 8
       matA.cols ≤ s.config.maxDim ∧ matA.rows ≤ s.config.maxDim ∧
         s.usage - s.slotWords 2 + matA.cols * ((matA.rows + 63) / 64) ≤ s.config.hostMemWords) ∧
      (let s := limits withAB 3 7
       s.config.hostMemWords <
         s.usage - s.slotWords 2 + matA.cols * ((matA.rows + 63) / 64)) ∧
      (limits withAB 2 8).config.maxDim < matA.cols := by decide +kernel

theorem test_witness_MeqComparesValidBits :
    withAB.slot 0 = some matA ∧ withAB.slot 1 = some matB ∧ withAB.slot 9 = none := by decide +kernel

/-- The last word, and the first index out of range. -/
theorem test_witness_MrdwReadsRawWord :
    withAB.slot 0 = some matA ∧ matA.wf = true ∧
      matA.data[(args withAB 1 0 0).a0.toNat]? = some 6 ∧
      matA.rows * matA.wpr ≤ (args withAB 2 0 0).a0.toNat ∧ withAB.slot 2 = none := by decide +kernel

theorem test_witness_MwrwWritesRawWord :
    withAB.slot 0 = some matA ∧ matA.wf = true ∧
      (args withAB 1 9 0).a0.toNat < matA.rows * matA.wpr ∧
      matA.rows * matA.wpr ≤ (args withAB 2 9 0).a0.toNat ∧ withAB.slot 2 = none := by decide +kernel

/-- Slots within MAXDIM, decided slot by slot. -/
theorem dimsBounded_of {s : State}
    (h : ∀ i : SlotNo, ((s.slot i).all fun x =>
      decide (x.rows ≤ s.config.maxDim) && decide (x.cols ≤ s.config.maxDim)) = true) :
    s.DimsBounded := by
  intro i x hx
  have := h i
  simpa [hx] using this

theorem test_witness_MdimReadsShape :
    withAB.slot 0 = some matA ∧ withAB.config.legal = true ∧ withAB.DimsBounded ∧
      withAB.slot 2 = none :=
  ⟨by decide +kernel, by decide +kernel, dimsBounded_of (by decide +kernel), by decide +kernel⟩

/-- One case for each check of the front end, the last two at a capacity one word short. -/
theorem test_witness_MulFrontEndOrder :
    withAB.slot 3 = none ∧ withAB.slot 0 = some matA ∧ withAB.slot 1 = some matB ∧
      matA.cols = matB.rows ∧ matB.cols ≠ (mat 3 3 [0, 0, 0]).rows ∧
      (filled [(0, matA), (1, matB), (2, mat 2 3 [0, 0])]).slot 2 = some (mat 2 3 [0, 0]) ∧
      (mat 2 3 [0, 0]).cols ≠ matB.cols ∧
      backendReady { Config.full with capPipeM4rMul := false } .mul4r = false ∧
      (∀ v, backendReady Config.full v = true) ∧
      (tight 8 2055).config.hostMemWords <
        (tight 8 2055).usage + (tight 8 2055).freshWords 2 matA.rows matB.cols +
          tempWords .mulv matA matB ∧
      (tight 9 2054).config.devMemWords < deviceWords .mul4r matA matB := by
  refine ⟨by decide +kernel, by decide +kernel, by decide +kernel, rfl, by decide +kernel,
    by decide +kernel, by decide +kernel, rfl, fun v => by cases v <;> rfl, by decide +kernel,
    by decide +kernel⟩

theorem test_witness_MulsComputesProduct :
    Memory.wf withAB.slots = true ∧ MulReady withAB .muls 2 0 1 matA matB :=
  ⟨by decide +kernel, ready_fresh _⟩

theorem test_witness_MulvComputesProduct :
    Memory.wf square.slots = true ∧
      MulReady square .mulv 1 0 0 (mat 2 2 [0x1, 0x2]) (mat 2 2 [0x1, 0x2]) :=
  ⟨by decide +kernel, ready_square _⟩

theorem test_witness_MulvgComputesProduct :
    Memory.wf withAB.slots = true ∧ MulReady withAB .mulvg 2 0 1 matA matB ∧
      dispatchFails withAB.config withAB.dispatches = false :=
  ⟨by decide +kernel, ready_fresh _, by decide +kernel⟩

theorem test_witness_MultComputesProduct :
    Memory.wf emptySum.slots = true ∧ MulReady emptySum .mult 2 0 1 (mat 2 0 []) (mat 0 3 []) ∧
      dispatchFails emptySum.config emptySum.dispatches = false :=
  ⟨by decide +kernel, ready_emptySum _, by decide +kernel⟩

theorem test_witness_Mul4rComputesProduct :
    Memory.wf withAB.slots = true ∧ MulReady withAB .mul4r 2 0 1 matA matB ∧
      dispatchFails withAB.config withAB.dispatches = false ∧
      dispatchFails withAB.config (withAB.dispatches + 1) = false :=
  ⟨by decide +kernel, ready_fresh _, by decide +kernel, by decide +kernel⟩

theorem test_witness_AllMultipliersAgree :
    Memory.wf withAB.slots = true ∧ withAB.config.deviceFaults = false ∧
      ∀ v, MulReady withAB v 2 0 1 matA matB :=
  ⟨by decide +kernel, by decide +kernel, ready_fresh⟩

/-- An identity operand, an all-zero operand, and k = 0. -/
theorem test_witness_AlgebraicLawsOfProducts :
    (∀ v, MulReady square v 1 0 0 (mat 2 2 [0x1, 0x2]) (mat 2 2 [0x1, 0x2])) ∧
      Memory.wf square.slots = true ∧ square.config.deviceFaults = false ∧
      (∀ i j, i < 2 → j < 2 → (mat 2 2 [0x1, 0x2]).get i j = decide (i = j)) ∧
      (∀ v, MulReady emptySum v 2 0 1 (mat 2 0 []) (mat 0 3 [])) ∧ (mat 2 0 []).cols = 0 ∧
      ∀ i j, (zeroMatrix 2 3).get i j = false := by
  have h : ∀ i, i < 2 → ∀ j, j < 2 → (mat 2 2 [0x1, 0x2]).get i j = decide (i = j) := by
    decide +kernel
  exact ⟨ready_square, by decide +kernel, by decide +kernel, fun i j hi hj => h i hi j hj,
    ready_emptySum, rfl, zeroMatrix_get 2 3⟩

theorem test_witness_DeviceFaultOutcome :
    (let s := { withAB with config := { Config.full with deviceFaults := true } }
     MulReady s .mul4r 2 0 1 matA matB ∧ s.config.deviceFaults = true ∧ s.slot 2 = none) ∧
    (let s := { onDev .tiled [.t0] [.deviceFail] with
        config := { Config.full with deviceFaults := true } }
     s.device = some (dev .tiled [.t0]) ∧ (dev .tiled [.t0]).finished = false ∧
       s.turns = [.deviceFail] ∧ s.slot 2 = none) ∧
    (dev .tiled [.done]).finished = true ∧
    ∃ t, exec (.mult 2 0 1) withAB = .next t ∧ t.errCode = 0 := by
  refine ⟨⟨?_, rfl, by decide +kernel⟩, ⟨rfl, by decide +kernel, rfl, by decide +kernel⟩,
    by decide +kernel, of_after (by decide +kernel)⟩
  have h := ready_fresh .mul4r
  exact ⟨h.operand_a, h.operand_b, h.shapes, h.dest_not_a, h.dest_not_b, h.dest_shape,
    by decide +kernel, h.host_fits, h.device_fits⟩

theorem test_witness_DotParityIsProduct :
    matA.wf = true ∧ matB.wf = true ∧ matA.cols = matB.rows ∧ 1 < matA.rows ∧ 1 < matB.cols := by
  decide +kernel

/-- Also at the largest table, row of B and key. -/
theorem test_witness_TableEntriesAfterPhaseOne :
    (dev .m4rBuild []).kernel = .m4rBuild ∧ (dev .m4rBuild []).bufT.length =
      8 * (dev .m4rBuild []).desc.aWpr * 256 * (dev .m4rBuild []).desc.bWpr ∧
      7 < 8 * (dev .m4rBuild []).desc.aWpr ∧ 0 < (dev .m4rBuild []).desc.bWpr := by decide +kernel

theorem test_witness_TableLookupIsRowCombination :
    (dev .m4rBuild []).kernel = .m4rBuild ∧
      (dev .m4rBuild []).desc.aWpr = wordsPerRow (dev .m4rBuild []).desc.aCols ∧
      (dev .m4rBuild []).bufT.length =
        8 * (dev .m4rBuild []).desc.aWpr * 256 * (dev .m4rBuild []).desc.bWpr := by decide +kernel

theorem test_witness_LaunchUploadsOperands :
    (let s := inFlight 0x00010212 [.launch]
     Memory.wf s.slots = true ∧ s.busy = true ∧ s.device = none ∧
       decode s.cmd = some (mulCommand .mulvg 2 0 1)) ∧
      decode 0x00010213 = some (mulCommand .mult 2 0 1) ∧
      decode 0x00010214 = some (mulCommand .mul4r 2 0 1) ∧
      ∀ v, MulReady (inFlight 0x00010212 [.launch]) v 2 0 1 matA matB :=
  ⟨by decide +kernel, by decide +kernel, by decide +kernel, fun v =>
    let h := ready_fresh v
    ⟨h.operand_a, h.operand_b, h.shapes, h.dest_not_a, h.dest_not_b, h.dest_shape, h.backend,
      h.host_fits, h.device_fits⟩⟩

theorem test_witness_ProceedAfterDispatch :
    (onDev .vec [.v0] [.proceed]).device = some (dev .vec [.v0]) ∧
      (dev .vec [.v0]).finished = false ∧ (dev .m4rBuild [.done]).finished = true ∧
      (dev .tiled [.done, .done]).finished = true ∧
      (dev .tiled [.done]).bufC.length =
        (dev .tiled [.done]).desc.cRows * wordsPerRow (dev .tiled [.done]).desc.cCols := by
  decide +kernel

/-- A step of each kernel that writes, with the word it writes, one that writes nothing, and a work-item
that does not exist. -/
theorem test_witness_WorkItemWriteDiscipline :
    [dev .vec [.v3 5], dev .tiled [.t7 true], dev .m4rBuild [.p1], dev .m4rMul [.q3 5],
      dev .tiled [.t2 false 0]].all (fun d => (d.stepItem 0 0).toOption.isSome) = true ∧
    [dev .vec [.v3 5], dev .tiled [.t7 true], dev .m4rBuild [.p1], dev .m4rBuild [.p2 7],
      dev .m4rBuild [.p3 8 255], dev .m4rMul [.q3 5], dev .tiled [.t2 false 0],
      dev .m4rBuild [.p2 8], dev .m4rBuild [.p3 8 256], dev .m4rBuild [.p3 9 511]].map (fun d =>
        d.groups[0]?.bind fun g => g.items[0]?.bind fun it => storedWord d g it) =
      [some (.c, 1, 5), some (.c, 1, 1), some (.t, 256, 0), some (.t, 384, 0), some (.t, 511, 0),
        some (.c, 1, 5), none, none, none, none] ∧
    (dev .tiled [.t7 true]).stepItem 0 0 = .ok ((dev .tiled [.done]).fetchOr .c 1 1) ∧
    (grp [.t0]).items[1]? = none := by
  refine ⟨by decide +kernel, by decide +kernel, rfl, rfl⟩

/-- Every site, T1 and T5 below their bounds and at them. -/
theorem test_witness_TiledSites :
    (let d := dev .tiled [.t0]
     d.bufA.length = d.desc.aRows * d.desc.aWpr ∧ d.desc.aWpr = wordsPerRow d.desc.aCols ∧
       d.bufB.length = d.desc.aCols * d.desc.bWpr ∧ d.desc.bWpr = wordsPerRow d.desc.bCols ∧
       d.bufC.length = d.desc.aRows * d.desc.cWpr ∧ d.desc.cWpr = wordsPerRow d.desc.bCols ∧
       0 < (d.desc.aCols + 31) / 32 ∧ ¬1 < (d.desc.aCols + 31) / 32) ∧
      [Pos.t0, .t1 false 0, .t1 true 1, .t2 false 0, .t3 false 0, .t5 false 0 31, .t5 true 0 32,
        .t7 true].all (fun p => ((dev .tiled [p]).groups[0]?.bind fun g =>
          g.items[0]?.map fun it => it.pos) == some p && p.canStep) = true := by
  decide +kernel

/-- A group at T4, one at T6, one with an item that can step, one stuck between the two sites, one stuck
because an item has finished, and work-items about to execute the barrier. -/
theorem test_witness_BarrierReleasesTogether :
    (onDev .tiled [.t0] [.barrier 0]).device = some (dev .tiled [.t0]) ∧
    (∀ l, (dev .tiled l).groups[0]? = some (grp l)) ∧
    (let g := grp [.t4Wait true 1 0, .t4Wait false 1 0]
     g.waiting = g.items.length ∧ g.items ≠ [] ∧
       ∀ it ∈ g.items, ∃ sum u, it.pos = .t4Wait sum u g.generation ∧
         Pos.released it.pos = .t5 sum u 0) ∧
    (let g := grp [.t6Wait true 1 0, .t6Wait false 1 0]
     g.waiting = g.items.length ∧ g.items ≠ [] ∧
       ∀ it ∈ g.items, ∃ sum u, it.pos = .t6Wait sum u g.generation ∧
         Pos.released it.pos = .t1 sum (u + 1)) ∧
    (∃ it ∈ (grp [.t0, .t4Wait false 1 0]).items, it.pos.canStep = true) ∧
    (let g := grp [.t4Wait true 1 0, .t6Wait false 1 0]
     (∀ it ∈ g.items, it.pos.canStep = false) ∧ (∃ it ∈ g.items, it.pos ≠ .done) ∧
       (∃ it ∈ g.items, ∀ sum u, it.pos ≠ .t4Wait sum u g.generation) ∧
       ∃ it ∈ g.items, ∀ sum u, it.pos ≠ .t6Wait sum u g.generation) ∧
    (let g := { grp [.t4Wait true 1 0, .done] with waiting := 1 }
     (∀ it ∈ g.items, it.pos.canStep = false) ∧ (∃ it ∈ g.items, it.pos ≠ .done) ∧
       g.waiting ≠ g.items.length) ∧
    ((grp [.t4 true 1]).items[0]?.map fun it => it.pos) = some (.t4 true 1) ∧
    ((grp [.t6 true 1]).items[0]?.map fun it => it.pos) = some (.t6 true 1) := by
  refine ⟨rfl, fun _ => rfl, ?_, ?_, ?_, ?_, ?_, rfl, rfl⟩ <;>
    simp [grp, Pos.released, Pos.canStep]

theorem test_witness_FetchOrsCommute :
    List.Perm [((0 : Nat), (1 : Word)), (1, 2)] [(1, 2), (0, 1)] ∧
      (dev .tiled []).inRange .c 1 = true ∧ (dev .tiled []).inRange .c 2 = false :=
  ⟨List.Perm.swap _ _ _, by decide +kernel, by decide +kernel⟩

/-- A work-item inside the problem, one below it, and the buffers' sizes. -/
theorem test_witness_VecWorkItemStoresItsWord :
    let d := dev .vec [.v0]
    d.kernel = .vec ∧ d.bufA.length = d.desc.aRows * d.desc.aWpr ∧
      d.bufBT.length = d.desc.bCols * d.desc.aWpr ∧ d.bufC.length = d.desc.aRows * d.desc.cWpr ∧
      (∃ g, d.groups[0]? = some g ∧ ∃ it, g.items[0]? = some it ∧ it.pos = .v0 ∧
        g.gy * 16 + it.ly < d.desc.aRows ∧ g.gx * 16 + it.lx < d.desc.cWpr ∧
        ¬g.gy * 16 + (it.ly + 1) < d.desc.aRows) := by
  refine ⟨rfl, by decide +kernel, by decide +kernel, by decide +kernel, _, rfl, _, rfl, rfl, ?_⟩
  decide +kernel

/-- A work-item inside the problem at the last table, and one beyond it. -/
theorem test_witness_BuildWorkItemFillsItsTable :
    let d := dev .m4rBuild [.p0]
    d.kernel = .m4rBuild ∧ d.bufB.length = d.desc.aCols * d.desc.bWpr ∧
      d.bufT.length = 8 * d.desc.aWpr * 256 * d.desc.bWpr ∧
      (∃ g, d.groups[0]? = some g ∧ ∃ it, g.items[0]? = some it ∧ it.pos = .p0 ∧
        g.gx * 16 + it.lx < d.desc.bWpr ∧ g.gy * 16 + it.ly < 8 * d.desc.aWpr ∧
        g.gy * 16 + 7 < 8 * d.desc.aWpr ∧ ¬g.gy * 16 + 8 < 8 * d.desc.aWpr) ∧
      (0 : Nat) < 256 ∧ (255 : Nat) < 256 := by
  refine ⟨rfl, by decide +kernel, by decide +kernel, ⟨_, rfl, _, rfl, rfl, ?_⟩, by decide, by decide⟩
  decide +kernel

/-- The first key and the last. -/
theorem test_witness_KeyOrder :
    ((0 : Nat) < 1 ∧ (1 : Nat) < 256) ∧ (0 : Nat) < 255 ∧ (255 : Nat) < 256 ∧
      [1, 128, 254, 255].map lowestSetBit = [1, 128, 2, 1] := by decide +kernel

theorem test_witness_M4rWorkItemStoresItsWord :
    let d := dev .m4rMul [.q0]
    d.kernel = .m4rMul ∧ d.bufA.length = d.desc.aRows * d.desc.aWpr ∧
      d.bufT.length = 8 * d.desc.aWpr * 256 * d.desc.bWpr ∧ d.desc.cWpr = d.desc.bWpr ∧
      d.bufC.length = d.desc.aRows * d.desc.cWpr ∧
      (∃ g, d.groups[0]? = some g ∧ ∃ it, g.items[0]? = some it ∧ it.pos = .q0 ∧
        g.gy * 16 + it.ly < d.desc.aRows ∧ g.gx * 16 + it.lx < d.desc.cWpr ∧
        ¬g.gx * 16 + (it.lx + 1) < d.desc.cWpr) := by
  refine ⟨rfl, by decide +kernel, by decide +kernel, rfl, by decide +kernel, _, rfl, _, rfl, rfl, ?_⟩
  decide +kernel

theorem test_witness_InvariantAtReset :
    Config.legal { Config.full with capDev := false, capPipeVec := false, capPipeTiled := false, capPipeM4rBuild := false, capPipeM4rMul := false } = true := by
  decide +kernel

/-- A state inside a device phase meets the invariant and has a next state. -/
theorem test_witness_StepKeepsInvariant :
    (onDev .tiled [.t7 true] []).Inv ∧
      ∃ t, step (onDev .tiled [.t7 true] []) = .next t ∧ t.busy = true := by
  refine ⟨⟨by decide +kernel, by decide +kernel, dimsBounded_of (by decide +kernel),
    by decide +kernel, rfl, by decide, fun _ => rfl, fun _ => rfl, fun d hd => ?_⟩,
    of_after (by decide +kernel)⟩
  have hd : d = dev .tiled [.t7 true] := by simpa [onDev, eq_comm] using hd
  subst hd
  refine ⟨by decide +kernel, by decide +kernel, by decide +kernel, by decide +kernel,
    by decide +kernel, fun x hx => ?_, fun _ => by decide +kernel⟩
  rw [show (onDev .tiled [.t7 true] []).slot (dev .tiled [.t7 true]).dest = none by
    decide +kernel] at hx
  cases hx

theorem test_witness_HostCannotReachTheStore :
    (∃ t, step (inFlight 0x10 [.access (.write 0x20 5)]) = .next t ∧ t.busy = true) ∧
      ∃ t, step (inFlight 0x10 [.host]) = .next t ∧ t.busy = true :=
  ⟨of_after (by decide +kernel), of_after (by decide +kernel)⟩

end Sys2Proof.Machine.Tests
end

section
/-! SUPPORT. What a command can end with: a failure, an answer, a matrix in its slot, a slot freed, or the
outcome of its dispatches. One rule for each shared operation, then one line for each command. -/

namespace Sys2Proof.Machine

/-! ### Reasoning rules of the shared operations

To show `P` of the state an operation leaves, show it of every way the operation can go on. -/

theorem State.withSlot_rule {P : State → Prop} {s : State} {i : SlotNo} {f : BitMatrix → State}
    (hfail : ∀ e, P (s.raise e)) (hf : ∀ x, s.slot i = some x → P (f x)) : P (s.withSlot i f) := by
  cases hx : s.slot i with
  | none => rw [State.withSlot_none hx]; exact hfail _
  | some x => rw [State.withSlot_some hx]; exact hf x hx

theorem State.constructIn_rule {P : State → Prop} {s : State} {rd : SlotNo} {rows cols : Nat}
    {build : BitMatrix → BitMatrix} (hfail : ∀ e, P (s.raise e))
    (hfit : rows ≤ s.config.maxDim → cols ≤ s.config.maxDim →
      s.usage - s.slotWords rd + rows * wordsPerRow cols ≤ s.config.hostMemWords →
      P (s.finishWith rd (build (zeroMatrix rows cols)))) :
    P (s.constructIn rd rows cols build) := by
  rw [State.constructIn_eq]
  split
  case isTrue h => exact hfit h.1 h.2.1 h.2.2
  case isFalse => exact hfail _

theorem State.multiply_rule {P : State → Prop} {s : State} {v : Variant} {rd ra rb : SlotNo}
    {f : BitMatrix → BitMatrix → State} (hfail : ∀ e, P (s.raise e))
    (hf : ∀ a b, s.slot ra = some a → s.slot rb = some b →
      s.mulChecks v rd ra rb a b = none → P (f a b)) :
    P (s.multiply v rd ra rb f) := by
  obtain ⟨e, he, -⟩ | ⟨a, b, ha, hb, hc, he⟩ := s.multiply_cases v rd ra rb f
  · rw [he]; exact hfail e
  · rw [he]; exact hf a b ha hb hc

/-- A failed front end leaves no dispatch to run. -/
theorem State.runDispatch_multiply (s : State) (v : Variant) (rd ra rb : SlotNo)
    (f : BitMatrix → BitMatrix → State) :
    (s.multiply v rd ra rb f).runDispatch =
      s.multiply v rd ra rb fun a b => (f a b).runDispatch := by
  unfold State.multiply State.withSlot
  split
  · rfl
  split
  · rfl
  beta_reduce
  split <;> rfl

/-- The device that enters the device phase, at the start of its first dispatch (R208). -/
def launchedDevice (k : Kernel) (rd : SlotNo) (a b : BitMatrix) (n : Nat) : Device :=
  ((acquireDevice k rd (descriptorOf a b) n).upload a b).begin k n

theorem State.enterDevice_device (s : State) (k : Kernel) (rd : SlotNo) (a b : BitMatrix) :
    (s.enterDevice k rd a b).device = some (launchedDevice k rd a b s.dispatches) := rfl

@[simp] theorem launchedDevice_kernel (k : Kernel) (rd : SlotNo) (a b : BitMatrix) (n : Nat) :
    (launchedDevice k rd a b n).kernel = k := rfl

@[simp] theorem launchedDevice_dest (k : Kernel) (rd : SlotNo) (a b : BitMatrix) (n : Nat) :
    (launchedDevice k rd a b n).dest = rd := by
  cases k <;> simp [launchedDevice, Device.begin, Device.upload, acquireDevice]

/-! ### The effect of a command on the registers and on the slots it does not name -/

/-- What the end of command `i` leaves of the state `s` it began in: it is complete, the control
registers stay, RESULT changes only for a query without error, and every slot but RD stays. -/
structure CommandEnd (i : Instr) (s t : State) : Prop where
  completed : Completed t t.errCode
  control : KeepsControl s t
  result : t.result ≠ s.result → isQuery i = true ∧ t.errCode = 0
  slots : ∀ j, destSlot i ≠ some j → t.slot j = s.slot j

theorem State.complete_completed (s : State) (code : BitVec 8) : Completed (s.complete code) code :=
  ⟨rfl, rfl, rfl, rfl, rfl⟩

theorem State.complete_keepsControl (s : State) (code : BitVec 8) :
    KeepsControl s (s.complete code) := by constructor <;> rfl

namespace CommandEnd

variable {i : Instr} {s t : State}

theorem result_eq (h : CommandEnd i s t) (hq : isQuery i = false) : t.result = s.result := by
  by_contra hne
  exact absurd (h.result hne).1 (by simp [hq])

theorem complete (code : BitVec 8) : CommandEnd i s (s.complete code) :=
  ⟨s.complete_completed code, s.complete_keepsControl code, fun h => absurd rfl h, fun _ _ => rfl⟩

theorem raise (e : CmdError) : CommandEnd i s (s.raise e) := complete (errorCode e)

theorem answer (hi : isQuery i = true) (v : Word) : CommandEnd i s (s.answer v) :=
  ⟨State.complete_completed _ 0, by constructor <;> rfl, fun _ => ⟨hi, rfl⟩, fun _ _ => rfl⟩

/-- A command may write its own slot before it completes. -/
theorem setSlot_complete {rd : SlotNo} (hd : destSlot i = some rd) (x : Option BitMatrix)
    (code : BitVec 8) : CommandEnd i s ((s.setSlot rd x).complete code) where
  completed := State.complete_completed _ code
  control := by constructor <;> rfl
  result h := absurd rfl h
  slots j hj := s.slot_setSlot_ne x fun e => hj (e ▸ hd)

theorem finishWith {rd : SlotNo} (hd : destSlot i = some rd) (x : BitMatrix) :
    CommandEnd i s (s.finishWith rd x) := setSlot_complete hd (some x) 0

/-- The device phase and the counts of the environment's answers are no part of the frame. -/
theorem of_phase {temp : Option BitMatrix} {device : Option Device} {draws dispatches : Nat}
    (h : CommandEnd i { s with temp, device, draws, dispatches } t) : CommandEnd i s t := by
  obtain ⟨hc, ⟨h1, h2, h3, h4, h5, h6, h7, h8, h9, h10, h11, h12⟩, hr, hs⟩ := h
  exact ⟨hc, ⟨h1, h2, h3, h4, h5, h6, h7, h8, h9, h10, h11, h12⟩, hr, hs⟩

theorem commitProduct {rd : SlotNo} (hd : destSlot i = some rd) (m n : Nat) (data : List Word) :
    CommandEnd i s (s.commitProduct rd m n data) :=
  of_phase (temp := s.temp) (device := s.device) (dispatches := s.dispatches) (finishWith hd _)

theorem failDevice {d : Device} (hd : destSlot i = some d.dest) :
    CommandEnd i s (s.failDevice d) := by
  unfold State.failDevice
  split
  · exact raise _
  · exact of_phase (temp := s.temp) (device := s.device) (dispatches := s.dispatches)
      (setSlot_complete hd _ _)

end CommandEnd

end Sys2Proof.Machine
end

section
/-! SUPPORT. The end of every command (R36, R125): one arm of exec after the other, with the reasoning rules
of the shared operations. -/

namespace Sys2Proof.Machine

/-- The GPU multiplies and the kernel each of them starts with (R208). -/
inductive GpuKernel : Variant → Kernel → Prop where
  | mulvg : GpuKernel .mulvg .vec
  | mult : GpuKernel .mult .tiled
  | mul4r : GpuKernel .mul4r .m4rBuild

/-! ### What comes after a dispatch (R93, R209) -/

theorem State.afterDispatch_build (s : State) {d : Device} (hk : d.kernel = .m4rBuild) :
    s.afterDispatch d = { s with
      device := some (d.begin .m4rMul s.dispatches)
      dispatches := s.dispatches + 1 } := by
  simp [State.afterDispatch, hk]

theorem State.afterDispatch_last (s : State) {d : Device} (hk : d.kernel ≠ .m4rBuild) :
    s.afterDispatch d = s.commitProduct d.dest d.desc.cRows d.desc.cCols d.bufC := by
  unfold State.afterDispatch
  split
  · exact absurd ‹_› hk
  · rfl

namespace CommandEnd

variable {i : Instr} {s : State} {d : Device}

/-- The last dispatch of a command, failed or not, ends it. -/
theorem runDispatch (hs : s.device = some d) (hk : d.kernel ≠ .m4rBuild)
    (hd : destSlot i = some d.dest) : CommandEnd i s s.runDispatch := by
  rw [State.runDispatch_some hs]
  split
  · exact failDevice hd
  · rw [State.afterDispatch_last _ (by simpa using hk)]
    exact commitProduct (by simpa using hd) _ _ _

/-- The two dispatches of MUL4R end it; after a failed first one nothing is left to run. -/
theorem runDispatch_runDispatch (hs : s.device = some d) (hk : d.kernel = .m4rBuild)
    (hd : destSlot i = some d.dest) : CommandEnd i s s.runDispatch.runDispatch := by
  rw [State.runDispatch_some hs]
  split
  · have hend : CommandEnd i s (s.failDevice d) := failDevice hd
    rwa [State.runDispatch_none hend.completed.no_device]
  · rw [State.afterDispatch_build _ (by simpa using hk)]
    have hd' : destSlot i = some (d.runKernel.begin .m4rMul s.dispatches).dest :=
      hd.trans (congrArg some d.dest_runKernel.symm)
    exact of_phase (temp := s.temp) (draws := s.draws) (runDispatch rfl (by simp [Device.begin]) hd')

/-- A GPU multiply with one dispatch. -/
theorem launch_one {v : Variant} {k : Kernel} {rd ra rb : SlotNo} (hk : k ≠ .m4rBuild)
    (hd : destSlot i = some rd) :
    CommandEnd i s (s.launchMultiply v k rd ra rb).runDispatch := by
  rw [State.launchMultiply, State.runDispatch_multiply]
  refine State.multiply_rule raise fun a b _ _ _ => ?_
  exact of_phase (draws := s.draws) (runDispatch (d := launchedDevice k rd a b s.dispatches) rfl
    (by simpa using hk) (by simpa using hd))

/-- A GPU multiply with two dispatches. -/
theorem launch_two {v : Variant} {rd ra rb : SlotNo} (hd : destSlot i = some rd) :
    CommandEnd i s (s.launchMultiply v .m4rBuild rd ra rb).runDispatch.runDispatch := by
  rw [State.launchMultiply, State.runDispatch_multiply, State.runDispatch_multiply]
  refine State.multiply_rule raise fun a b _ _ _ => ?_
  exact of_phase (draws := s.draws) (runDispatch_runDispatch
    (d := launchedDevice .m4rBuild rd a b s.dispatches) rfl rfl (by simpa using hd))

end CommandEnd

/-- Every command answers a next state, with the frame of its end. -/
theorem exec_commandEnd (i : Instr) (s : State) : ∃ t, exec i s = .next t ∧ CommandEnd i s t := by
  cases i with
  | malloc rd => exact ⟨_, rfl, State.constructIn_rule .raise fun _ _ _ => .finishWith rfl _⟩
  | mfree rd => exact ⟨_, rfl, State.withSlot_rule .raise fun _ _ => .setSlot_complete rfl _ _⟩
  | mget ra => exact ⟨_, rfl, State.withSlot_rule .raise fun _ _ => .answer rfl _⟩
  | mset rd => exact ⟨_, rfl, State.withSlot_rule .raise fun _ _ => .finishWith rfl _⟩
  | mrand rd =>
    exact ⟨_, rfl, State.withSlot_rule .raise fun _ _ =>
      .of_phase (temp := s.temp) (device := s.device) (dispatches := s.dispatches)
        (.finishWith rfl _)⟩
  | mtrans rd ra =>
    exact ⟨_, rfl, State.withSlot_rule .raise fun _ _ =>
      State.constructIn_rule .raise fun _ _ _ => .finishWith rfl _⟩
  | meq ra rb =>
    exact ⟨_, rfl, State.withSlot_rule .raise fun _ _ =>
      State.withSlot_rule .raise fun _ _ => .answer rfl _⟩
  | mrdw ra => exact ⟨_, rfl, State.withSlot_rule .raise fun _ _ => .answer rfl _⟩
  | mwrw rd => exact ⟨_, rfl, State.withSlot_rule .raise fun _ _ => .finishWith rfl _⟩
  | mdim ra => exact ⟨_, rfl, State.withSlot_rule .raise fun _ _ => .answer rfl _⟩
  | muls rd ra rb =>
    exact ⟨_, rfl, State.multiply_rule .raise fun _ _ _ _ _ => .commitProduct rfl _ _ _⟩
  | mulv rd ra rb =>
    exact ⟨_, rfl, State.multiply_rule .raise fun _ _ _ _ _ => .commitProduct rfl _ _ _⟩
  | mulvg rd ra rb => exact ⟨_, rfl, .launch_one (by decide) rfl⟩
  | mult rd ra rb => exact ⟨_, rfl, .launch_one (by decide) rfl⟩
  | mul4r rd ra rb => exact ⟨_, rfl, .launch_two rfl⟩

/-- What a command that answers a next state has done. -/
theorem commandEnd_of_exec {i : Instr} {s t : State} (h : exec i s = .next t) :
    CommandEnd i s t := by
  obtain ⟨u, hu, hend⟩ := exec_commandEnd i s
  obtain rfl : u = t := by simpa [hu] using h
  exact hend

end Sys2Proof.Machine
end

section
/-! SUPPORT. No command reads ERR or ERRCODE, so its outcome does not depend on the outcome of the command
before it (R36). -/

namespace Sys2Proof.Machine

/-- The state with another outcome of the command before. -/
def State.withStatus (s : State) (e : Bool) (c : BitVec 8) : State :=
  { s with err := e, errCode := c }

variable (s : State) (e : Bool) (c : BitVec 8)

theorem State.multiply_withStatus (v : Variant) (rd ra rb : SlotNo)
    {f g : BitMatrix → BitMatrix → State} (h : ∀ a b, f a b = g a b) :
    (s.withStatus e c).multiply v rd ra rb f = s.multiply v rd ra rb g := by
  obtain rfl : f = g := funext₂ h
  rfl

theorem State.runDispatch_withStatus {d : Device} (hs : s.device = some d)
    (hk : d.kernel ≠ .m4rBuild) : (s.withStatus e c).runDispatch = s.runDispatch := by
  have hk' : d.runKernel.kernel ≠ .m4rBuild := by simpa using hk
  rw [State.runDispatch_some hs, State.runDispatch_some (s := s.withStatus e c) hs,
    State.afterDispatch_last _ hk', State.afterDispatch_last _ hk']
  rfl

theorem State.runDispatch_runDispatch_withStatus {d : Device} (hs : s.device = some d)
    (hk : d.kernel = .m4rBuild) :
    (s.withStatus e c).runDispatch.runDispatch = s.runDispatch.runDispatch := by
  have hk' : d.runKernel.kernel = .m4rBuild := by simpa using hk
  rw [State.runDispatch_some hs, State.runDispatch_some (s := s.withStatus e c) hs,
    State.afterDispatch_build _ hk', State.afterDispatch_build _ hk']
  by_cases hf : dispatchFails s.config d.dispatchNo
  · have hf' : dispatchFails (s.withStatus e c).config d.dispatchNo := hf
    rw [if_pos hf, if_pos hf']
    rfl
  · have hf' : ¬dispatchFails (s.withStatus e c).config d.dispatchNo := hf
    rw [if_neg hf, if_neg hf']
    exact State.runDispatch_withStatus
      { s with
        device := some (d.runKernel.begin .m4rMul s.dispatches)
        dispatches := s.dispatches + 1 } e c rfl (by simp [Device.begin])

theorem State.launch_one_withStatus (v : Variant) {k : Kernel} (rd ra rb : SlotNo)
    (hk : k ≠ .m4rBuild) : ((s.withStatus e c).launchMultiply v k rd ra rb).runDispatch =
      (s.launchMultiply v k rd ra rb).runDispatch := by
  simp only [State.launchMultiply, State.runDispatch_multiply]
  exact State.multiply_withStatus s e c v rd ra rb fun a b =>
    State.runDispatch_withStatus (s.enterDevice k rd a b) e c
      (d := launchedDevice k rd a b s.dispatches) rfl (by simpa using hk)

theorem State.launch_two_withStatus (v : Variant) (rd ra rb : SlotNo) :
    ((s.withStatus e c).launchMultiply v .m4rBuild rd ra rb).runDispatch.runDispatch =
      (s.launchMultiply v .m4rBuild rd ra rb).runDispatch.runDispatch := by
  simp only [State.launchMultiply, State.runDispatch_multiply]
  exact State.multiply_withStatus s e c v rd ra rb fun a b =>
    State.runDispatch_runDispatch_withStatus (s.enterDevice .m4rBuild rd a b) e c
      (d := launchedDevice .m4rBuild rd a b s.dispatches) rfl rfl

/-- The outcome of a command does not depend on the outcome of the one before. -/
theorem exec_withStatus (i : Instr) : exec i (s.withStatus e c) = exec i s := by
  cases i with
  | malloc rd => rfl
  | mfree rd => rfl
  | mget ra => rfl
  | mset rd => rfl
  | mrand rd => rfl
  | mtrans rd ra => rfl
  | meq ra rb => rfl
  | mrdw ra => rfl
  | mwrw rd => rfl
  | mdim ra => rfl
  | muls rd ra rb => rfl
  | mulv rd ra rb => rfl
  | mulvg rd ra rb =>
    exact congrArg Host.Outcome.next
      (s.launch_one_withStatus e c (k := .vec) .mulvg rd ra rb (by decide))
  | mult rd ra rb =>
    exact congrArg Host.Outcome.next
      (s.launch_one_withStatus e c (k := .tiled) .mult rd ra rb (by decide))
  | mul4r rd ra rb => exact congrArg Host.Outcome.next (s.launch_two_withStatus e c .mul4r rd ra rb)

end Sys2Proof.Machine
end

section
/-! SUPPORT. One step of the machine is one move of one agent; what a move of the unit and what a move of
the host can do (spec/00_scope.md R8 to R12). -/

namespace Sys2Proof.Machine

/-! ### A step is a move -/

theorem step_of_turns {s : State} {m : Turn} {rest : List Turn} (h : s.turns = m :: rest) :
    step s = { s with turns := rest }.move m := by
  simp [step, State.nextMove, h]

theorem step_of_no_turns {s : State} (h : s.turns = []) : step s = s.move s.defaultTurn := by
  simp [step, State.nextMove, h]

/-- The move `m` is the next one in `s`, and `rest` the moves that come after it. -/
def State.NextTurn (s : State) (m : Turn) (rest : List Turn) : Prop :=
  s.turns = m :: rest ∨ (s.turns = [] ∧ rest = [] ∧ m = s.defaultTurn)

/-- Every step is one move, made with that move used up. -/
theorem step_cases (s : State) :
    ∃ m rest, s.NextTurn m rest ∧ step s = { s with turns := rest }.move m := by
  cases h : s.turns with
  | nil =>
    refine ⟨s.defaultTurn, [], .inr ⟨h, rfl, rfl⟩, ?_⟩
    rw [step_of_no_turns h, ← h]
  | cons m rest => exact ⟨m, rest, .inl h, step_of_turns h⟩

/-- No default move is a reset or an access. -/
theorem State.defaultTurn_cases (s : State) :
    s.defaultTurn.ofUnit = true ∨ (s.busy = false ∧ s.defaultTurn = .host) := by
  unfold State.defaultTurn
  split
  case isFalse h => exact .inr ⟨by simpa using h, rfl⟩
  left
  split
  · rfl
  split
  · rfl
  unfold Device.defaultTurn
  split
  · split <;> rfl
  · rfl

/-! ### The moves of the unit -/

/-- The command in flight goes on: nothing changes but its device phase. -/
def GoesOn (s t : State) : Prop :=
  t = { s with temp := t.temp, device := t.device, dispatches := t.dispatches }

/-- The unit ends the command in flight, with RESULT written for a query without error only. -/
structure UnitEnd (s t : State) : Prop where
  completed : Completed t t.errCode
  control : KeepsControl s t
  result : t.result ≠ s.result →
    s.busy = true ∧ t.errCode = 0 ∧ ∃ i, decode s.cmd = some i ∧ isQuery i = true

theorem GoesOn.refl (s : State) : GoesOn s s := rfl

theorem GoesOn.keepsControl {s t : State} (h : GoesOn s t) : KeepsControl s t := by
  rw [h]; constructor <;> rfl

/-- A command in flight that is no query ends without a change of RESULT. -/
theorem CommandEnd.unitEnd {i : Instr} {s t : State} (h : CommandEnd i s t)
    (hq : isQuery i = false) : UnitEnd s t :=
  ⟨h.completed, h.control, fun hne => absurd (h.result_eq hq) hne⟩

theorem UnitEnd.complete (s : State) (code : BitVec 8) : UnitEnd s (s.complete code) :=
  ⟨s.complete_completed code, s.complete_keepsControl code, fun hne => absurd rfl hne⟩

/-- The download ends the command as it ends a multiply into the device's destination. -/
theorem UnitEnd.download (s : State) (d : Device) :
    UnitEnd s (s.commitProduct d.dest d.desc.cRows d.desc.cCols d.bufC) :=
  (CommandEnd.commitProduct (i := mulCommand .mulvg d.dest 0 0) rfl _ _ _).unitEnd rfl

/-- A failed dispatch ends the command as a failed multiply into the device's destination does. -/
theorem UnitEnd.failDevice (s : State) (d : Device) : UnitEnd s (s.failDevice d) :=
  (CommandEnd.failDevice (i := mulCommand .mulvg d.dest 0 0) rfl).unitEnd rfl

theorem State.runCommand_cases {s t : State} (h : s.runCommand = .next t) :
    GoesOn s t ∨ UnitEnd s t := by
  unfold State.runCommand at h
  split at h
  case isFalse => cases h; exact .inl (.refl s)
  rename_i hb
  simp only [Bool.and_eq_true] at hb
  split at h
  · rename_i i hi
    have hend := commandEnd_of_exec h
    exact .inr ⟨hend.completed, hend.control, fun hne =>
      ⟨hb.1, (hend.result hne).2, i, hi, (hend.result hne).1⟩⟩
  · cases h; exact .inr (.complete s _)

theorem State.launchMultiply_cases (s : State) (v : Variant) (k : Kernel) (rd ra rb : SlotNo) :
    GoesOn s (s.launchMultiply v k rd ra rb) ∨ UnitEnd s (s.launchMultiply v k rd ra rb) :=
  State.multiply_rule (P := fun t => GoesOn s t ∨ UnitEnd s t)
    (fun _ => .inr (.complete s _))
    fun _ _ _ _ _ => .inl rfl

/-- The launch move of a command is the front end of a GPU multiply, or the command move. -/
theorem State.launchCommand_cases {s t : State} (h : s.launchCommand = .next t) :
    t = s ∨ s.runCommand = .next t ∨ (s.busy = true ∧ s.device = none ∧
      ∃ v k rd ra rb, GpuKernel v k ∧ t = s.launchMultiply v k rd ra rb) := by
  unfold State.launchCommand at h
  split at h
  case isFalse => cases h; exact .inl rfl
  rename_i hb
  simp only [Bool.and_eq_true, Option.isNone_iff_eq_none] at hb
  split at h
  · cases h; exact .inr (.inr ⟨hb.1, hb.2, _, _, _, _, _, .mulvg, rfl⟩)
  · cases h; exact .inr (.inr ⟨hb.1, hb.2, _, _, _, _, _, .mult, rfl⟩)
  · cases h; exact .inr (.inr ⟨hb.1, hb.2, _, _, _, _, _, .mul4r, rfl⟩)
  · exact .inr (.inl h)

theorem State.afterDispatch_cases (s : State) (d : Device) :
    GoesOn s (s.afterDispatch d) ∨ UnitEnd s (s.afterDispatch d) := by
  by_cases hk : d.kernel = .m4rBuild
  · rw [s.afterDispatch_build hk]; exact .inl rfl
  · rw [s.afterDispatch_last hk]
    exact .inr (.download s d)

/-- A move inside the dispatch changes nothing but the device. -/
theorem State.onDevice_frame {s t : State} {f : Device → Except Fault Device}
    (h : outcomeOf (s.onDevice f) = .next t) : t = { s with device := t.device } := by
  unfold State.onDevice at h
  split at h
  · cases h; rfl
  split at h
  · cases h; rfl
  · cases h

/-- A move of the unit carries the command in flight on or ends it. -/
theorem State.move_unit_cases {s t : State} {m : Turn} (hm : m.ofUnit = true)
    (h : s.move m = .next t) : GoesOn s t ∨ UnitEnd s t := by
  cases m with
  | access | host | reset => cases hm
  | command => exact State.runCommand_cases h
  | launch =>
    obtain rfl | h | ⟨-, -, v, k, rd, ra, rb, -, rfl⟩ := State.launchCommand_cases h
    · exact .inl (.refl _)
    · exact State.runCommand_cases h
    · exact s.launchMultiply_cases v k rd ra rb
  | workItem g n | barrier g => left; rw [State.onDevice_frame h]; rfl
  | proceed =>
    cases h
    unfold State.proceed
    split
    · exact .inl (.refl s)
    split
    · exact s.afterDispatch_cases _
    · exact .inl (.refl s)
  | deviceFail =>
    cases h
    unfold State.deviceFail
    split
    · exact .inl (.refl s)
    rename_i d _
    split
    · exact .inr (.failDevice s d)
    · exact .inl (.refl s)

/-! ### The moves of the host -/

/-- What no host access and no host statement changes: the matrix store, the device phase, RESULT, ERR,
ERRCODE, the configuration and the moves to come; and a command in flight stays in flight, with its
latches. -/
structure KeepsUnit (s t : State) : Prop where
  config : t.config = s.config
  result : t.result = s.result
  err : t.err = s.err
  errCode : t.errCode = s.errCode
  slots : t.slots = s.slots
  temp : t.temp = s.temp
  device : t.device = s.device
  busy : s.busy = true → t.busy = true
  latches : s.busy = true → t.cmd = s.cmd ∧ t.a0 = s.a0 ∧ t.a1 = s.a1 ∧ t.a2 = s.a2

theorem KeepsUnit.refl (s : State) : KeepsUnit s s :=
  ⟨rfl, rfl, rfl, rfl, rfl, rfl, rfl, id, fun _ => ⟨rfl, rfl, rfl, rfl⟩⟩

/-- The host's own fields are not the unit's. -/
theorem KeepsUnit.withHost {s t : State} (h : KeepsUnit s t) (a : HostAgent) :
    KeepsUnit s { t with host := a } := by
  obtain ⟨h1, h2, h3, h4, h5, h6, h7, h8, h9⟩ := h
  exact ⟨h1, h2, h3, h4, h5, h6, h7, h8, h9⟩

theorem State.writeCmd_busy {s : State} (h : s.busy = true) (v : Word) :
    s.writeCmd v = { s with ovr := true } := by
  simp [State.writeCmd, h]

theorem State.writeCmd_idle {s : State} (h : s.busy = false) (v : Word) :
    s.writeCmd v = { s with
      cmd := v.setWidth 32, a0 := s.arg0, a1 := s.arg1, a2 := s.arg2, busy := true } := by
  simp [State.writeCmd, h]

theorem State.writeCmd_keepsUnit (s : State) (v : Word) : KeepsUnit s (s.writeCmd v) := by
  cases h : s.busy with
  | true =>
    rw [State.writeCmd_busy h]
    exact ⟨rfl, rfl, rfl, rfl, rfl, rfl, rfl, id, fun _ => ⟨rfl, rfl, rfl, rfl⟩⟩
  | false =>
    rw [State.writeCmd_idle h]
    refine ⟨rfl, rfl, rfl, rfl, rfl, rfl, rfl, fun _ => rfl, fun hb => ?_⟩
    simp [h] at hb

/-- The register a write at an offset reaches: CMD, an argument register, or none (R40). -/
theorem State.writePort_cases (s : State) (offset : Nat) (v : Word) :
    (offset = 0x00 ∧ s.writePort offset v = s.writeCmd v) ∨
    (offset = 0x08 ∧ s.writePort offset v = { s with arg0 := v }) ∨
    (offset = 0x10 ∧ s.writePort offset v = { s with arg1 := v }) ∨
    (offset = 0x18 ∧ s.writePort offset v = { s with arg2 := v }) ∨
    (offset ∉ [0x00, 0x08, 0x10, 0x18] ∧ s.writePort offset v = s) := by
  unfold State.writePort
  split <;> simp_all

theorem State.access_keepsUnit (s : State) (a : HostAccess) : KeepsUnit s (s.access a) := by
  obtain ⟨h1, h2, h3, h4, h5, h6, h7, h8, h9⟩ := KeepsUnit.refl s
  cases a with
  | read offset => exact ⟨h1, h2, h3, h4, h5, h6, h7, h8, h9⟩
  | write offset v =>
    show KeepsUnit s (s.writePort offset v)
    obtain ⟨-, h⟩ | ⟨-, h⟩ | ⟨-, h⟩ | ⟨-, h⟩ | ⟨-, h⟩ := s.writePort_cases offset v
    · rw [h]; exact s.writeCmd_keepsUnit v
    all_goals rw [h]; exact ⟨h1, h2, h3, h4, h5, h6, h7, h8, h9⟩

/-- An access sets BUSY only by a write of CMD. -/
theorem State.access_sets_busy {s : State} {a : HostAccess} (hs : s.busy = false)
    (ht : (s.access a).busy = true) : ∃ v, a = .write 0x00 v := by
  cases a with
  | read offset => exact absurd ht (by simp [State.access, hs])
  | write offset v =>
    have ht : (s.writePort offset v).busy = true := ht
    obtain ⟨h0, -⟩ | ⟨-, h⟩ | ⟨-, h⟩ | ⟨-, h⟩ | ⟨-, h⟩ := s.writePort_cases offset v
    · exact ⟨v, by rw [h0]⟩
    all_goals rw [h] at ht; simp [hs] at ht

theorem State.hostJump_frame {s t : State} {l : Nat} (h : s.hostJump l = .ok t) :
    t = { s with host := t.host } := by
  unfold State.hostJump at h
  split at h <;> cases h
  rfl

/-- A host statement makes at most one access, and beside it changes the host alone. -/
theorem State.hostStatement_cases {s t : State} {st : HostStmt} (h : s.hostStatement st = .ok t) :
    (∃ h', t = { s with host := h' }) ∨
    (∃ r h', t = { s.access (.read (regOffset r)) with host := h' }) ∨
    ∃ r v h', t = { s.access (.write (regOffset r) v) with host := h' } ∧
      ((∃ x, st = .wr r x) ∨ (r = .cmd ∧ ∃ i, st = .command i)) := by
  cases st with
  | wr r v => cases h; exact .inr (.inr ⟨r, _, _, rfl, .inl ⟨v, rfl⟩⟩)
  | command i => cases h; exact .inr (.inr ⟨.cmd, _, _, rfl, .inr ⟨rfl, i, rfl⟩⟩)
  | rd x r => cases h; exact .inr (.inl ⟨r, _, rfl⟩)
  | wait =>
    cases h
    right; left
    refine ⟨.status, ?_⟩
    split
    · exact ⟨_, rfl⟩
    · exact ⟨_, rfl⟩
  | set x v | add x v | label l | stop => cases h; exact .inl ⟨_, rfl⟩
  | jmp l => exact .inl ⟨_, State.hostJump_frame h⟩
  | jeq x hi lo v l =>
    dsimp only [State.hostStatement] at h
    split at h
    · exact .inl ⟨_, State.hostJump_frame h⟩
    · cases h; exact .inl ⟨_, rfl⟩
  | jne x hi lo v l =>
    dsimp only [State.hostStatement] at h
    split at h
    · cases h; exact .inl ⟨_, rfl⟩
    · exact .inl ⟨_, State.hostJump_frame h⟩

theorem State.hostStep_keepsUnit {s t : State} (h : s.hostStep = .ok t) : KeepsUnit s t := by
  unfold State.hostStep at h
  split at h
  · obtain ⟨a, rfl⟩ | ⟨r, a, rfl⟩ | ⟨r, v, a, rfl, -⟩ := State.hostStatement_cases h
    · exact (KeepsUnit.refl s).withHost a
    · exact (s.access_keepsUnit _).withHost a
    · exact (s.access_keepsUnit _).withHost a
  · cases h; exact .refl s

/-- A host move sets BUSY only by a statement that writes CMD. -/
theorem State.hostStep_sets_busy {s t : State} (h : s.hostStep = .ok t) (hs : s.busy = false)
    (ht : t.busy = true) : s.hostWrites .cmd := by
  unfold State.hostStep at h
  split at h
  case h_2 => cases h; simp [hs] at ht
  rename_i st hst
  obtain ⟨a, rfl⟩ | ⟨r, a, rfl⟩ | ⟨r, v, a, rfl, hr⟩ := State.hostStatement_cases h
  · simp [hs] at ht
  · simp [State.access, hs] at ht
  · obtain ⟨w, hw⟩ := State.access_sets_busy hs ht
    obtain rfl : r = .cmd := by cases r <;> simp [regOffset] at hw ⊢
    exact ⟨st, hst, hr⟩

theorem outcomeOf_next {r : Except Fault State} {t : State} (h : outcomeOf r = .next t) :
    r = .ok t := by
  cases r with
  | ok u => cases h; rfl
  | error f => cases h

theorem State.move_host_keepsUnit {s t : State} {m : Turn} (hm : m = .host ∨ ∃ a, m = .access a)
    (h : s.move m = .next t) : KeepsUnit s t := by
  obtain rfl | ⟨a, rfl⟩ := hm
  · exact State.hostStep_keepsUnit (outcomeOf_next h)
  · cases h; exact s.access_keepsUnit a

/-- A reset leaves the reset values, or is not possible and changes nothing. -/
theorem State.resetTo_cases (s : State) (c : Config) :
    (c.legal = true ∧ s.resetTo c = { State.resetWith c with
      host := s.host, lastRead := s.lastRead, turns := s.turns, draws := s.draws,
      dispatches := s.dispatches }) ∨ (c.legal = false ∧ s.resetTo c = s) := by
  unfold State.resetTo
  cases c.legal <;> simp

/-- Every turn is the unit's, the host's or a reset. -/
theorem Turn.cases_agent (m : Turn) :
    m.ofUnit = true ∨ (m = .host ∨ ∃ a, m = .access a) ∨ ∃ c, m = .reset c := by
  cases m <;> simp [Turn.ofUnit]

end Sys2Proof.Machine
end

section
/-! SUPPORT. The part of the invariant that is about the configuration and the matrix store, and that the end
of every command keeps it (R39, R42, R45, R46). -/

namespace Sys2Proof.Machine

/-! ### The invariant of the store -/

/-- The part of the invariant that holds of the store whether or not a command is in flight. -/
structure State.StoreInv (s : State) : Prop where
  config_legal : s.config.legal = true
  memory_wf : Memory.wf s.slots = true
  dims : s.DimsBounded
  fits : s.usage ≤ s.config.hostMemWords

theorem State.Inv.storeInv {s : State} (h : s.Inv) : s.StoreInv :=
  ⟨h.config_legal, h.memory_wf, h.dims, le_trans (Nat.le_add_right _ _) h.capacity⟩

theorem BitMatrix.words_of_wf {x : BitMatrix} (hx : x.wf = true) :
    x.words = x.rows * wordsPerRow x.cols := by
  rw [BitMatrix.words, (x.wf_iff.mp hx).1]

theorem errorCode_le (e : CmdError) : (errorCode e).toNat ≤ 7 := by cases e <;> decide

namespace State.StoreInv

variable {s : State}

/-- It depends on the configuration and the slots alone. -/
theorem of_same {t : State} (h : s.StoreInv) (hc : t.config = s.config) (hs : t.slots = s.slots) :
    t.StoreInv := by
  obtain ⟨h1, h2, h3, h4⟩ := h
  refine ⟨hc ▸ h1, hs ▸ h2, fun i x hx => ?_, ?_⟩
  · rw [State.slot, hs] at hx
    rw [hc]
    exact h3 i x hx
  · rw [State.usage, hs, hc]
    exact h4

/-- The end of a command leaves no device phase to speak of. -/
theorem complete (h : s.StoreInv) {code : BitVec 8} (hcode : code.toNat ≤ 7) :
    (s.complete code).Inv where
  config_legal := h.config_legal
  memory_wf := h.memory_wf
  dims := h.dims
  capacity := h.fits
  err_iff := rfl
  code_known := hcode
  device_busy hd := by simp at hd
  temp_device ht := by simp at ht
  phase d hd := by simp at hd

theorem raise (h : s.StoreInv) (e : CmdError) : (s.raise e).Inv := h.complete (errorCode_le e)

theorem answer (h : s.StoreInv) (v : Word) : (s.answer v).Inv :=
  (h.of_same (t := { s with result := v }) rfl rfl).complete (by decide)

/-- A slot may be written with a matrix that has the layout, the bounds and the room. -/
theorem setSlot (h : s.StoreInv) (i : SlotNo) {x : Option BitMatrix}
    (hx : ∀ y, x = some y → y.wf = true ∧ y.rows ≤ s.config.maxDim ∧ y.cols ≤ s.config.maxDim)
    (hfit : s.usage - s.slotWords i + optionWords x ≤ s.config.hostMemWords) :
    (s.setSlot i x).StoreInv where
  config_legal := h.config_legal
  memory_wf := State.wf_setSlot h.memory_wf i fun y hy => (hx y hy).1
  dims j y hy := by
    rw [State.slot_setSlot] at hy
    split at hy
    · exact (hx y hy).2
    · exact h.dims j y hy
  fits := by
    have husage := s.usage_setSlot i x
    have hle := s.slotWords_le_usage i
    show (s.setSlot i x).usage ≤ s.config.hostMemWords
    omega

theorem finishWith (h : s.StoreInv) (i : SlotNo) {x : BitMatrix} (hx : x.wf = true)
    (hrows : x.rows ≤ s.config.maxDim) (hcols : x.cols ≤ s.config.maxDim)
    (hfit : s.usage - s.slotWords i + x.words ≤ s.config.hostMemWords) : (s.finishWith i x).Inv :=
  State.StoreInv.complete (h.setSlot i (x := some x)
    (fun y hy => by cases hy; exact ⟨hx, hrows, hcols⟩) hfit) (by decide)

/-- A matrix of the shape a slot already holds has room in that slot. -/
theorem setSlot_same (h : s.StoreInv) {i : SlotNo} {x y : BitMatrix} (hs : s.slot i = some x)
    (hy : y.wf = true) (hrows : y.rows = x.rows) (hcols : y.cols = x.cols) :
    (s.setSlot i (some y)).StoreInv := by
  have hx := State.wf_of_slot h.memory_wf hs
  have hwords : s.slotWords i = y.words := by
    rw [State.slotWords_eq, hs, BitMatrix.words_of_wf hy, hrows, hcols, ← BitMatrix.words_of_wf hx]
    rfl
  refine h.setSlot i (fun z hz => ?_) ?_
  · cases hz
    rw [hrows, hcols]
    exact ⟨hy, h.dims i x hs⟩
  · have hle := s.slotWords_le_usage i
    have hfits := h.fits
    simp only [optionWords]
    omega

theorem finishWith_same (h : s.StoreInv) {i : SlotNo} {x y : BitMatrix} (hs : s.slot i = some x)
    (hy : y.wf = true) (hrows : y.rows = x.rows) (hcols : y.cols = x.cols) :
    (s.finishWith i y).Inv :=
  (h.setSlot_same hs hy hrows hcols).complete (code := 0) (by decide)

/-! ### The products (R202, R203) -/

/-- A destination that is valid with the shape of the result, or not valid with room for it, can take
it. -/
theorem room (h : s.StoreInv) {rd : SlotNo} {m n : Nat}
    (hshape : ∀ c, s.slot rd = some c → c.rows = m ∧ c.cols = n)
    (hfresh : s.slot rd = none → s.usage + m * wordsPerRow n ≤ s.config.hostMemWords) :
    s.usage - s.slotWords rd + m * wordsPerRow n ≤ s.config.hostMemWords := by
  rw [State.slotWords_eq]
  cases hc : s.slot rd with
  | none => exact hfresh hc
  | some c =>
    obtain ⟨rfl, rfl⟩ := hshape c hc
    have hwords := BitMatrix.words_of_wf (State.wf_of_slot h.memory_wf hc)
    have hle := s.slotWords_le_usage rd
    have hfits := h.fits
    rw [State.slotWords_eq, hc] at hle
    simp only [optionWords] at hle ⊢
    omega

theorem commitProduct (h : s.StoreInv) (rd : SlotNo) {m n : Nat} {data : List Word}
    (hdata : data.length = m * wordsPerRow n) (hm : m ≤ s.config.maxDim) (hn : n ≤ s.config.maxDim)
    (hroom : s.usage - s.slotWords rd + m * wordsPerRow n ≤ s.config.hostMemWords) :
    (s.commitProduct rd m n data).Inv := by
  have hs : ({ s with draws := if n % 64 = 0 then s.draws else s.draws + m } : State).StoreInv :=
    h.of_same rfl rfl
  have hwf : BitMatrix.wf
      { rows := m, cols := n, wpr := wordsPerRow n, data := drawPadding s.draws n data } = true := by
    simp [BitMatrix.wf, hdata]
  exact hs.finishWith rd hwf hm hn hroom

theorem failDevice (h : s.StoreInv) (d : Device) : (s.failDevice d).Inv := by
  unfold State.failDevice
  split
  · exact h.raise _
  · rename_i x hx
    have h' : ({ s with draws := s.draws + x.words } : State).StoreInv := h.of_same rfl rfl
    exact (h'.setSlot_same (y := { x with data := drawWords s.draws x.words }) hx
      (drawWords_wf (State.wf_of_slot h.memory_wf hx) _) rfl rfl).raise _

end State.StoreInv

/-! ### The front end of the multiplies (R201) -/

/-- The checks that pass, in the terms of claims. -/
theorem mulReady_of_checks {s : State} {v : Variant} {rd ra rb : SlotNo} {a b : BitMatrix}
    (ha : s.slot ra = some a) (hb : s.slot rb = some b)
    (hc : s.mulChecks v rd ra rb a b = none) : MulReady s v rd ra rb a b := by
  obtain ⟨hshapes, hra, hrb, hdest, hback, hhost, hdev⟩ := (s.mulChecks_eq_none ..).mp hc
  refine ⟨ha, hb, hshapes, hra, hrb, fun c hcd => ?_, hback, by simpa [State.hostFits] using hhost,
    by simpa [State.devFits] using hdev⟩
  simpa [State.destFits, hcd] using hdest

namespace MulReady

variable {s : State} {v : Variant} {rd ra rb : SlotNo} {a b : BitMatrix}

/-- A destination that is not valid has room for the result beside the temporary. -/
theorem fresh_fits (h : MulReady s v rd ra rb a b) (hrd : s.slot rd = none) :
    s.usage + tempWords v a b + a.rows * wordsPerRow b.cols ≤ s.config.hostMemWords := by
  have hfits := h.host_fits
  simp only [State.freshWords, hrd] at hfits
  omega

theorem room (h : MulReady s v rd ra rb a b) (hs : s.StoreInv) :
    s.usage - s.slotWords rd + a.rows * wordsPerRow b.cols ≤ s.config.hostMemWords :=
  hs.room h.dest_shape fun hrd => le_trans (by omega) (h.fresh_fits hrd)

/-- The matrix the loops of MULS and MULV start from has the shape of the result and its layout. -/
theorem destination_spec (h : MulReady s v rd ra rb a b) (hs : s.StoreInv) :
    (s.destination rd a.rows b.cols).rows = a.rows ∧
      (s.destination rd a.rows b.cols).cols = b.cols ∧
      (s.destination rd a.rows b.cols).wf = true := by
  unfold State.destination
  cases hc : s.slot rd with
  | none => exact ⟨rfl, rfl, zeroMatrix_wf _ _⟩
  | some c =>
    obtain ⟨hrows, hcols⟩ := h.dest_shape c hc
    exact ⟨hrows, hcols, State.wf_of_slot hs.memory_wf hc⟩

/-- A product that a double loop of Sets makes in the destination can be committed. -/
theorem commit_fillBits (h : MulReady s v rd ra rb a b) (hs : s.StoreInv)
    (f : Nat → Nat → Bool) :
    (s.commitProduct rd a.rows b.cols
      (fillBits a.rows b.cols f (s.destination rd a.rows b.cols)).data).Inv := by
  obtain ⟨hrows, hcols, hwf⟩ := h.destination_spec hs
  obtain ⟨hrows', hcols', -, hwf', -⟩ := fillBits_spec a.rows b.cols f _ hwf
  obtain ⟨hwpr, hlen⟩ := (BitMatrix.wf_iff _).mp hwf'
  refine hs.commitProduct rd ?_ (hs.dims ra a h.operand_a).1 (hs.dims rb b h.operand_b).2
    (h.room hs)
  rw [hlen, hwpr, hrows', hcols', hrows, hcols]

end MulReady

end Sys2Proof.Machine
end

section
/-! SUPPORT. The device phase keeps its part of the invariant (R48, R202, R207), and every step of every
agent keeps the invariant. -/

namespace Sys2Proof.Machine

/-! ### What stays of a device within one device phase -/

/-- The device `e` has the descriptor, the destination and the buffer sizes of `d`. -/
structure Device.SameLayout (d e : Device) : Prop where
  size : e.size = d.size
  result : e.bufC.length = d.bufC.length
  desc : e.desc = d.desc
  dest : e.dest = d.dest

namespace Device.SameLayout

variable {d e : Device}

theorem refl (d : Device) : d.SameLayout d := ⟨rfl, rfl, rfl, rfl⟩

/-- The groups, the kernel and the number of the dispatch are no part of the layout. -/
theorem withDispatch (h : d.SameLayout e) (k : Kernel) (gs : List Group) (n : Nat) :
    d.SameLayout { e with kernel := k, groups := gs, dispatchNo := n } := by
  obtain ⟨hsize, hresult, hdesc, hdest⟩ := h
  exact ⟨hsize, hresult, hdesc, hdest⟩

theorem store (d : Device) (x : Buf) (q : Nat) (v : Word) : d.SameLayout (d.store x q v) :=
  ⟨d.size_store x q v, d.length_store x .c q v, d.desc_setBuf x _, d.dest_setBuf x _⟩

theorem runKernel (d : Device) : d.SameLayout d.runKernel :=
  ⟨d.size_runKernel, d.length_runKernel .c, d.desc_runKernel, d.dest_runKernel⟩

theorem apply (d : Device) (e : Effect) : d.SameLayout (d.apply e) := by
  cases e with
  | store x q v => exact store d x q v
  | fetchOr x q mask => exact store d x q _
  | quiet | tileA | tileB | arrive => exact refl d

theorem stepItem {gi n : Nat} (h : d.stepItem gi n = .ok e) : d.SameLayout e := by
  obtain rfl | ⟨g, it, f, p, -, -, -, -, rfl⟩ := Device.stepItem_cases h
  · exact refl e
  · exact (apply d f).withDispatch _ _ _

theorem stepBarrier (d : Device) (gi : Nat) : d.SameLayout (d.stepBarrier gi) := by
  obtain ⟨g, -, -, h⟩ | ⟨-, h⟩ := d.stepBarrier_cases gi
  · rw [h]; exact (refl d).withDispatch _ _ _
  · rw [h]; exact refl d

end Device.SameLayout

/-- The device phase is sound whatever the words of the buffers and the other registers are. -/
theorem DevicePhase.of_same {s t : State} {d e : Device} (h : DevicePhase s d)
    (hc : t.config = s.config) (hs : t.slots = s.slots) (htemp : t.temp = s.temp)
    (he : d.SameLayout e) : DevicePhase t e := by
  obtain ⟨h1, h2, h3, h4, h5, h6, h7⟩ := h
  have hslot : ∀ i, t.slot i = s.slot i := fun i => by rw [State.slot, State.slot, hs]
  have husage : t.usage = s.usage := by rw [State.usage, State.usage, hs]
  have htempUse : t.tempUse = s.tempUse := by rw [State.tempUse, State.tempUse, htemp]
  constructor <;> simp only [he.size, he.result, he.desc, he.dest, hc, hslot, husage, htempUse]
    <;> assumption

namespace State.Inv

variable {s t : State}

/-! ### The host's moves and reset -/

/-- The invariant depends on no register of the host block but BUSY, ERR and ERRCODE. -/
theorem of_keepsUnit (h : s.Inv) (hk : KeepsUnit s t) : t.Inv := by
  have hstore := h.storeInv.of_same hk.config hk.slots
  refine ⟨hstore.config_legal, hstore.memory_wf, hstore.dims, ?_, ?_, ?_, ?_, ?_, fun d hd => ?_⟩
  · rw [State.usage, State.tempUse, hk.slots, hk.temp, hk.config]; exact h.capacity
  · rw [hk.err, hk.errCode]; exact h.err_iff
  · rw [hk.errCode]; exact h.code_known
  · rw [hk.device]; exact fun hd => hk.busy (h.device_busy hd)
  · rw [hk.temp, hk.device]; exact h.temp_device
  · exact (h.phase d (hk.device ▸ hd)).of_same hk.config hk.slots hk.temp (.refl d)

/-- The moves to come are no part of the invariant. -/
theorem withTurns (h : s.Inv) (rest : List Turn) : ({ s with turns := rest } : State).Inv :=
  h.of_keepsUnit ⟨rfl, rfl, rfl, rfl, rfl, rfl, rfl, id, fun _ => ⟨rfl, rfl, rfl, rfl⟩⟩

/-- The invariant holds after reset with a legal configuration. -/
theorem resetWith {c : Config} (hc : c.legal = true) : (State.resetWith c).Inv where
  config_legal := hc
  memory_wf := State.wf_resetWith c
  dims i x hx := by simp [State.slot, State.resetWith] at hx
  capacity := by simp [State.usage, State.tempUse, State.resetWith]
  err_iff := rfl
  code_known := by simp [State.resetWith]
  device_busy hd := by cases hd
  temp_device ht := by cases ht
  phase d hd := by cases hd

theorem resetTo (h : s.Inv) (c : Config) : (s.resetTo c).Inv := by
  obtain ⟨hc, ht⟩ | ⟨-, ht⟩ := s.resetTo_cases c
  · rw [ht]
    exact (resetWith hc).of_keepsUnit
      ⟨rfl, rfl, rfl, rfl, rfl, rfl, rfl, id, fun _ => ⟨rfl, rfl, rfl, rfl⟩⟩
  · rw [ht]; exact h

/-! ### The moves of the device phase -/

/-- A device phase goes on with a device of the same layout. -/
theorem withDevice (h : s.Inv) (hb : s.busy = true) {d e : Device} (hp : DevicePhase s d)
    (he : d.SameLayout e) (n : Nat) :
    ({ s with device := some e, dispatches := n } : State).Inv where
  config_legal := h.config_legal
  memory_wf := h.memory_wf
  dims := h.dims
  capacity := h.capacity
  err_iff := h.err_iff
  code_known := h.code_known
  device_busy _ := hb
  temp_device _ := rfl
  phase f hf := by
    cases hf
    exact hp.of_same rfl rfl rfl he

theorem onDevice (h : s.Inv) {f : Device → Except Fault Device}
    (hf : ∀ d e, f d = .ok e → d.SameLayout e) (ht : s.onDevice f = .ok t) : t.Inv := by
  unfold State.onDevice at ht
  split at ht
  · cases ht; exact h
  rename_i d hd
  split at ht
  · rename_i e he
    cases ht
    exact h.withDevice (h.device_busy (by simp [hd])) (h.phase d hd) (hf d e he) s.dispatches
  · cases ht

/-- The CP goes on after a dispatch: with the second one, or with the download. -/
theorem afterDispatch (h : s.Inv) (hb : s.busy = true) {d : Device} (hp : DevicePhase s d) :
    (s.afterDispatch d).Inv := by
  by_cases hk : d.kernel = .m4rBuild
  · rw [s.afterDispatch_build hk]
    exact h.withDevice hb hp ((Device.SameLayout.refl d).withDispatch _ _ _) _
  · rw [s.afterDispatch_last hk]
    have hstore := h.storeInv
    refine hstore.commitProduct d.dest (hp.result_wpr ▸ hp.result_words) hp.result_rows
      hp.result_cols (hstore.room hp.dest_shape fun hd => ?_)
    have hfits := hp.dest_fits hd
    rw [hp.result_wpr] at hfits
    omega

theorem proceed (h : s.Inv) : s.proceed.Inv := by
  unfold State.proceed
  split
  · exact h
  rename_i d hd
  split
  · exact h.afterDispatch (h.device_busy (by simp [hd])) (h.phase d hd)
  · exact h

theorem deviceFail (h : s.Inv) : s.deviceFail.Inv := by
  unfold State.deviceFail
  split
  · exact h
  split
  · exact h.storeInv.failDevice _
  · exact h

theorem runDispatch (h : s.Inv) : s.runDispatch.Inv := by
  cases hd : s.device with
  | none => rw [State.runDispatch_none hd]; exact h
  | some d =>
    rw [State.runDispatch_some hd]
    split
    · exact h.storeInv.failDevice d
    · exact h.afterDispatch (h.device_busy (by simp [hd]))
        ((h.phase d hd).of_same rfl rfl rfl (.runKernel d))

end State.Inv

/-! ### The start of the device phase (R208) -/

theorem launchedDevice_desc (k : Kernel) (rd : SlotNo) (a b : BitMatrix) (n : Nat) :
    (launchedDevice k rd a b n).desc = descriptorOf a b := by
  cases k <;> simp [launchedDevice, Device.begin, Device.upload, acquireDevice]

/-- The upload changes no buffer's length. -/
theorem launchedDevice_length (k : Kernel) (rd : SlotNo) (a b : BitMatrix) (n : Nat) (x : Buf) :
    ((launchedDevice k rd a b n).buf x).length =
      ((acquireDevice k rd (descriptorOf a b) n).buf x).length := by
  cases k <;> simp [launchedDevice, Device.upload, acquireDevice]

theorem launchedDevice_bufC (k : Kernel) (rd : SlotNo) (a b : BitMatrix) (n : Nat) :
    (launchedDevice k rd a b n).bufC.length = a.rows * wordsPerRow b.cols := by
  have h := launchedDevice_length k rd a b n .c
  simpa [Device.buf, acquireDevice, staleWords, descriptorOf] using h

/-- A GPU command acquires the device words its front end has checked (R207). -/
theorem launchedDevice_size {v : Variant} {k : Kernel} (hk : GpuKernel v k) (rd : SlotNo)
    (a b : BitMatrix) (n : Nat) : (launchedDevice k rd a b n).size = deviceWords v a b := by
  simp only [Device.size_eq, launchedDevice_length]
  cases hk <;> simp [Device.buf, acquireDevice, staleWords, descriptorOf, deviceWords]

/-- The temporary of a GPU command has the words its front end has checked (R207, R240). -/
theorem deviceTemp_words {v : Variant} {k : Kernel} (hk : GpuKernel v k) {a b : BitMatrix}
    (hab : a.cols = b.rows) : optionWords (deviceTemp k b) = tempWords v a b := by
  obtain ⟨hrows, hcols, hwf, -, -⟩ := transpose_spec b
  cases hk with
  | mulvg =>
    show (transpose b).words = b.cols * wordsPerRow a.cols
    rw [BitMatrix.words_of_wf hwf, hrows, hcols, hab]
  | mult | mul4r => rfl

theorem MulReady.devicePhase {s : State} {v : Variant} {k : Kernel} {rd ra rb : SlotNo}
    {a b : BitMatrix} (hs : s.StoreInv) (hk : GpuKernel v k) (h : MulReady s v rd ra rb a b) :
    DevicePhase (s.enterDevice k rd a b) (launchedDevice k rd a b s.dispatches) where
  fits := by rw [launchedDevice_size hk]; exact h.device_fits
  result_words := by rw [launchedDevice_bufC, launchedDevice_desc]; rfl
  result_wpr := by rw [launchedDevice_desc]; rfl
  result_rows := by rw [launchedDevice_desc]; exact (hs.dims ra a h.operand_a).1
  result_cols := by rw [launchedDevice_desc]; exact (hs.dims rb b h.operand_b).2
  dest_shape x hx := by
    rw [launchedDevice_dest] at hx
    rw [launchedDevice_desc]
    exact h.dest_shape x hx
  dest_fits hd := by
    rw [launchedDevice_dest] at hd
    rw [launchedDevice_desc]
    have hfits := h.fresh_fits hd
    rw [← deviceTemp_words hk h.shapes] at hfits
    exact hfits

namespace State.Inv

variable {s t : State}

theorem enterDevice (h : s.Inv) (hb : s.busy = true) {v : Variant} {k : Kernel}
    {rd ra rb : SlotNo} {a b : BitMatrix} (hk : GpuKernel v k) (hr : MulReady s v rd ra rb a b) :
    (s.enterDevice k rd a b).Inv where
  config_legal := h.config_legal
  memory_wf := h.memory_wf
  dims := h.dims
  capacity := by
    have hfits := hr.host_fits
    show s.usage + optionWords (deviceTemp k b) ≤ s.config.hostMemWords
    rw [deviceTemp_words hk hr.shapes]
    omega
  err_iff := h.err_iff
  code_known := h.code_known
  device_busy _ := hb
  temp_device _ := rfl
  phase d hd := by
    rw [State.enterDevice_device] at hd
    cases hd
    exact hr.devicePhase h.storeInv hk

theorem launchMultiply (h : s.Inv) (hb : s.busy = true) {v : Variant} {k : Kernel}
    (hk : GpuKernel v k) (rd ra rb : SlotNo) : (s.launchMultiply v k rd ra rb).Inv :=
  State.multiply_rule h.storeInv.raise fun _ _ ha hb' hc =>
    h.enterDevice hb hk (mulReady_of_checks ha hb' hc)

/-! ### Every command and every step -/

theorem constructIn (h : s.Inv) (rd : SlotNo) {rows cols : Nat} {build : BitMatrix → BitMatrix}
    (hwf : (build (zeroMatrix rows cols)).wf = true)
    (hrows : (build (zeroMatrix rows cols)).rows = rows)
    (hcols : (build (zeroMatrix rows cols)).cols = cols) :
    (s.constructIn rd rows cols build).Inv :=
  State.constructIn_rule h.storeInv.raise fun hr hc hfit =>
    h.storeInv.finishWith rd hwf (hrows.symm ▸ hr) (hcols.symm ▸ hc) (by
      rw [BitMatrix.words_of_wf hwf, hrows, hcols]; exact hfit)

/-- Every command in flight keeps the invariant. -/
theorem exec (h : s.Inv) (hb : s.busy = true) (i : Instr)
    (ht : Machine.exec i s = .next t) : t.Inv := by
  have hs := h.storeInv
  have hwf : ∀ {j x}, s.slot j = some x → x.wf = true := State.wf_of_slot hs.memory_wf
  cases i with
  | malloc rd => cases ht; exact h.constructIn rd (zeroMatrix_wf _ _) rfl rfl
  | mfree rd =>
    cases ht
    refine State.withSlot_rule hs.raise fun x _ => ?_
    refine (hs.setSlot rd (x := none) (fun y hy => by cases hy) ?_).complete (by decide)
    exact le_trans (Nat.sub_le _ _) hs.fits
  | mget ra => cases ht; exact State.withSlot_rule hs.raise fun _ _ => hs.answer _
  | mset rd =>
    cases ht
    exact State.withSlot_rule hs.raise fun x hx =>
      hs.finishWith_same hx (by rw [BitMatrix.set_wf]; exact hwf hx) (by simp) (by simp)
  | mrand rd =>
    cases ht
    refine State.withSlot_rule hs.raise fun x hx => ?_
    have hs' : ({ s with draws := s.draws + x.words } : State).StoreInv := hs.of_same rfl rfl
    exact hs'.finishWith_same (y := { x with data := drawWords s.draws x.words }) hx
      (drawWords_wf (hwf hx) _) rfl rfl
  | mtrans rd ra =>
    cases ht
    refine State.withSlot_rule hs.raise fun x _ => ?_
    obtain ⟨hrows, hcols, hwf', -, -⟩ := transpose_spec x
    exact h.constructIn rd hwf' hrows hcols
  | meq ra rb =>
    cases ht
    exact State.withSlot_rule hs.raise fun _ _ => State.withSlot_rule hs.raise fun _ _ => hs.answer _
  | mrdw ra => cases ht; exact State.withSlot_rule hs.raise fun _ _ => hs.answer _
  | mwrw rd =>
    cases ht
    refine State.withSlot_rule hs.raise fun x hx => ?_
    split
    · exact hs.finishWith_same hx (by rw [BitMatrix.memWrite_wf]; exact hwf hx) rfl rfl
    · exact hs.finishWith_same hx (hwf hx) rfl rfl
  | mdim ra => cases ht; exact State.withSlot_rule hs.raise fun _ _ => hs.answer _
  | muls rd ra rb =>
    cases ht
    exact State.multiply_rule hs.raise fun a b ha hb hc =>
      (mulReady_of_checks ha hb hc).commit_fillBits hs _
  | mulv rd ra rb =>
    cases ht
    exact State.multiply_rule hs.raise fun a b ha hb hc =>
      (mulReady_of_checks ha hb hc).commit_fillBits hs _
  | mulvg rd ra rb => cases ht; exact (h.launchMultiply hb .mulvg rd ra rb).runDispatch
  | mult rd ra rb => cases ht; exact (h.launchMultiply hb .mult rd ra rb).runDispatch
  | mul4r rd ra rb =>
    cases ht; exact (h.launchMultiply hb .mul4r rd ra rb).runDispatch.runDispatch

theorem runCommand (h : s.Inv) (ht : s.runCommand = .next t) : t.Inv := by
  unfold State.runCommand at ht
  split at ht
  case isFalse => cases ht; exact h
  rename_i hb
  split at ht
  · exact h.exec (Bool.and_eq_true_iff.mp hb).1 _ ht
  · cases ht; exact h.storeInv.raise _

theorem launchCommand (h : s.Inv) (ht : s.launchCommand = .next t) : t.Inv := by
  obtain rfl | ht | ⟨hb, -, v, k, rd, ra, rb, hk, rfl⟩ := State.launchCommand_cases ht
  · exact h
  · exact h.runCommand ht
  · exact h.launchMultiply hb hk rd ra rb

/-- Every move of every agent keeps the invariant. -/
theorem move (h : s.Inv) (m : Turn) (ht : s.move m = .next t) : t.Inv := by
  cases m with
  | access a => exact h.of_keepsUnit (State.move_host_keepsUnit (.inr ⟨a, rfl⟩) ht)
  | host => exact h.of_keepsUnit (State.move_host_keepsUnit (.inl rfl) ht)
  | reset c => cases ht; exact h.resetTo c
  | command => exact h.runCommand ht
  | launch => exact h.launchCommand ht
  | workItem g n => exact h.onDevice (fun _ _ => .stepItem) (outcomeOf_next ht)
  | barrier g =>
    refine h.onDevice (fun d e he => ?_) (outcomeOf_next ht)
    cases he
    exact .stepBarrier d g
  | proceed => cases ht; exact h.proceed
  | deviceFail => cases ht; exact h.deviceFail

end State.Inv

/-- Settles O58: a step is a move, and every move keeps the invariant. -/
theorem stepKeepsInvariant : Obligations.StepKeepsInvariant := by
  intro s t h ht
  obtain ⟨m, rest, -, hm⟩ := step_cases s
  exact (h.withTurns rest).move m (hm ▸ ht)

/-- Settles O57: an empty store meets the invariant under every legal configuration. -/
theorem invariantAtReset : Obligations.InvariantAtReset :=
  ⟨fun _ hc => State.Inv.resetWith hc, State.Inv.resetWith (by decide)⟩

end Sys2Proof.Machine
end

section
/-! SUPPORT. What a step of each kind of agent can do, and the statements about completion, RESULT, the frame
of a command and the argument registers (R32, R33, R35, R36). -/

namespace Sys2Proof.Machine

theorem State.NextTurn.reset {s : State} {c : Config} {rest : List Turn}
    (h : s.NextTurn (.reset c) rest) : s.turns = .reset c :: rest := by
  obtain h | ⟨-, -, h⟩ := h
  · exact h
  · obtain hd | ⟨-, hd⟩ := s.defaultTurn_cases <;> simp [← h, Turn.ofUnit] at hd

theorem State.NextTurn.access {s : State} {a : HostAccess} {rest : List Turn}
    (h : s.NextTurn (.access a) rest) : s.turns = .access a :: rest := by
  obtain h | ⟨-, -, h⟩ := h
  · exact h
  · obtain hd | ⟨-, hd⟩ := s.defaultTurn_cases <;> simp [← h, Turn.ofUnit] at hd

/-- Every step is a move of the unit, which carries the command on or ends it, or one of the host, or a
reset. -/
theorem step_next_cases {s t : State} (h : step s = .next t) : ∃ m rest, s.NextTurn m rest ∧
    ((GoesOn { s with turns := rest } t ∨ UnitEnd { s with turns := rest } t) ∨
      ((m = .host ∨ ∃ a, m = .access a) ∧ ({ s with turns := rest } : State).move m = .next t) ∨
      ∃ c, m = .reset c ∧ t = ({ s with turns := rest } : State).resetTo c) := by
  obtain ⟨m, rest, hm, hstep⟩ := step_cases s
  rw [hstep] at h
  refine ⟨m, rest, hm, ?_⟩
  obtain hu | hh | ⟨c, rfl⟩ := m.cases_agent
  · exact .inl (State.move_unit_cases hu h)
  · exact .inr (.inl ⟨hh, h⟩)
  · cases h; exact .inr (.inr ⟨c, rfl, rfl⟩)

theorem GoesOn.busy {s t : State} (h : GoesOn s t) : t.busy = s.busy := by rw [h]

theorem GoesOn.outcome {s t : State} (h : GoesOn s t) :
    t.result = s.result ∧ t.err = s.err ∧ t.errCode = s.errCode := by
  rw [h]; exact ⟨rfl, rfl, rfl⟩

/-- A reset that happens leaves no command in flight. -/
theorem State.resetTo_busy {s : State} {c : Config} (h : (s.resetTo c).busy = true) :
    s.resetTo c = s := by
  obtain ⟨-, ht⟩ | ⟨-, ht⟩ := s.resetTo_cases c
  · rw [ht] at h; cases h
  · exact ht

/-- A step that ends the command in flight, a reset among them, completes it (R36, R370). -/
theorem step_completes {s t : State} (hs : s.busy = true) (h : step s = .next t)
    (ht : t.busy = false) : Completed t t.errCode := by
  obtain ⟨m, rest, -, (hg | he) | ⟨hm, hmove⟩ | ⟨c, -, rfl⟩⟩ := step_next_cases h
  · simp [hg.busy, hs] at ht
  · exact he.completed
  · simp [(State.move_host_keepsUnit hm hmove).busy hs] at ht
  · obtain ⟨-, hr⟩ | ⟨-, hr⟩ := State.resetTo_cases { s with turns := rest } c
    · rw [hr]; exact ⟨rfl, rfl, rfl, rfl, rfl⟩
    · rw [hr] at ht; simp [hs] at ht

/-- Only a write of CMD sets BUSY, by a host access or by the host program (R35). -/
theorem step_sets_busy {s t : State} (hs : s.busy = false) (h : step s = .next t)
    (ht : t.busy = true) : (∃ v rest, s.turns = .access (.write 0x00 v) :: rest) ∨
      ((s.turns = [] ∨ ∃ rest, s.turns = .host :: rest) ∧ s.hostWrites .cmd) := by
  obtain ⟨m, rest, hm, (hg | he) | ⟨rfl | ⟨a, rfl⟩, hmove⟩ | ⟨c, -, rfl⟩⟩ := step_next_cases h
  · simp [hg.busy, hs] at ht
  · simp [he.completed.idle] at ht
  · have hw := State.hostStep_sets_busy (outcomeOf_next hmove) hs ht
    obtain hm | ⟨hm, -⟩ := hm
    · exact .inr ⟨.inr ⟨rest, hm⟩, hw⟩
    · exact .inr ⟨.inl hm, hw⟩
  · cases hmove
    obtain ⟨v, rfl⟩ := State.access_sets_busy (s := { s with turns := rest }) hs ht
    exact .inl ⟨v, rest, hm.access⟩
  · rw [State.resetTo_busy ht] at ht
    simp [hs] at ht

/-- While BUSY stays 1 or becomes 1, the outcome of the command before stays (R35). -/
theorem step_keeps_outcome {s t : State} (h : step s = .next t) (ht : t.busy = true) :
    t.result = s.result ∧ t.err = s.err ∧ t.errCode = s.errCode := by
  obtain ⟨m, rest, -, (hg | he) | ⟨hm, hmove⟩ | ⟨c, -, rfl⟩⟩ := step_next_cases h
  · exact hg.outcome
  · simp [he.completed.idle] at ht
  · have hk := State.move_host_keepsUnit hm hmove
    exact ⟨hk.result, hk.err, hk.errCode⟩
  · rw [State.resetTo_busy ht]
    exact ⟨rfl, rfl, rfl⟩

/-- Settles O18: no arm of exec reads the status, and every step is a move of the unit, the host or
reset. -/
theorem everyCommandCompletes : Obligations.EveryCommandCompletes := by
  refine ⟨fun i s => ⟨?_, fun e c => exec_withStatus s e c i⟩, fun _ _ => step_completes,
    fun _ _ => step_sets_busy, fun _ _ => step_keeps_outcome⟩
  obtain ⟨t, ht, hend⟩ := exec_commandEnd i s
  exact ⟨t, ht, hend.completed⟩

/-- Settles O19: the end of a query and reset are the only moves that write RESULT. -/
theorem resultWrittenByQueriesOnly : Obligations.ResultWrittenByQueriesOnly := by
  refine ⟨fun i s t h => (commandEnd_of_exec h).result, fun s a => (s.access_keepsUnit a).result,
    fun s t h hne => ?_⟩
  obtain ⟨m, rest, hm, (hg | he) | ⟨hh, hmove⟩ | ⟨c, rfl, -⟩⟩ := step_next_cases h
  · exact absurd hg.outcome.1 hne
  · obtain ⟨hb, hcode, hquery⟩ := he.result hne
    exact .inr ⟨hb, he.completed.idle, hcode, hquery⟩
  · exact absurd (State.move_host_keepsUnit hh hmove).result hne
  · exact .inl ⟨c, rest, hm.reset⟩

/-- A move of the unit keeps the control registers. -/
theorem step_unit_keepsControl {s t : State} {m : Turn} {rest : List Turn} (hm : m.ofUnit = true)
    (hs : s.turns = m :: rest) (h : step s = .next t) : KeepsControl { s with turns := rest } t := by
  rw [step_of_turns hs] at h
  obtain hg | he := State.move_unit_cases hm h
  · exact hg.keepsControl
  · exact he.control

/-- Settles O20, from the frame of the command's end and of the unit's moves. -/
theorem commandFrame : Obligations.CommandFrame := by
  refine ⟨fun i s t h => ?_, fun s t m rest => step_unit_keepsControl, fun s t m rest hm hs h => ?_⟩
  · have hend := commandEnd_of_exec h
    exact ⟨hend.control, hend.result_eq, hend.slots⟩
  · rw [step_of_turns hs] at h
    obtain ⟨g, n, rfl⟩ | ⟨g, rfl⟩ := hm
    · exact State.onDevice_frame h
    · exact State.onDevice_frame h

/-- Settles O10, from the frame of the unit's moves and of an access. -/
theorem argumentRegistersAreTheHosts : Obligations.ArgumentRegistersAreTheHosts := by
  refine ⟨fun s v => ⟨rfl, rfl, rfl⟩, fun i s t h => ?_, fun s t m rest hm hs h => ?_,
    fun s offset v hb => (s.access_keepsUnit _).latches hb, fun s v hb => ?_⟩
  · have hc := (commandEnd_of_exec h).control
    exact ⟨hc.arg0, hc.arg1, hc.arg2⟩
  · have hc := step_unit_keepsControl hm hs h
    exact ⟨hc.arg0, hc.arg1, hc.arg2⟩
  · show (s.writeCmd v).a0 = _ ∧ (s.writeCmd v).a1 = _ ∧ (s.writeCmd v).a2 = _
    rw [State.writeCmd_idle hb]
    exact ⟨rfl, rfl, rfl⟩

end Sys2Proof.Machine
end

section
/-! SUPPORT. The host's statements (R30, R128): the register block seen through an access, and one equation
of the step for each statement. -/

namespace Sys2Proof.Machine

/-! ### The moves to come and the accesses -/

/-- An access reads and writes the same whatever moves are to come. -/
theorem State.access_withTurns (s : State) (rest : List Turn) (a : HostAccess) :
    ({ s with turns := rest } : State).access a = { s.access a with turns := rest } := by
  cases a with
  | read offset => rfl
  | write offset v =>
    show ({ s with turns := rest } : State).writePort offset v =
      { s.writePort offset v with turns := rest }
    unfold State.writePort
    split
    · unfold State.writeCmd
      cases hb : s.busy <;> rfl
    all_goals rfl

/-- An access is no statement of the host program. -/
theorem State.access_host (s : State) (a : HostAccess) : (s.access a).host = s.host := by
  cases a with
  | read offset => rfl
  | write offset v =>
    show (s.writePort offset v).host = s.host
    obtain ⟨-, h⟩ | ⟨-, h⟩ | ⟨-, h⟩ | ⟨-, h⟩ | ⟨-, h⟩ := s.writePort_cases offset v
    · rw [h]
      cases hb : s.busy with
      | true => rw [State.writeCmd_busy hb]
      | false => rw [State.writeCmd_idle hb]
    all_goals rw [h]

/-- The statements that are one write. -/
theorem State.hostNext_access (s : State) (rest : List Turn) (a : HostAccess) :
    (({ s with turns := rest } : State).access a).hostNext =
      { s.access a with turns := rest, host := s.host.advance } := by
  rw [State.access_withTurns, State.hostNext, State.access_host]

/-- WAIT is a read of STATUS, and goes on only when BUSY = 0. -/
theorem State.hostStatement_wait (s : State) : s.hostStatement .wait =
    .ok { s with
      lastRead := s.readPort 0x28
      host := if s.busy then s.host else s.host.advance } := by
  dsimp only [State.hostStatement]
  by_cases hb : s.busy = true
  · rw [if_pos hb, if_pos hb]; rfl
  · rw [if_neg hb, if_neg hb]; rfl

theorem step_hostStatement {s : State} {rest : List Turn} {st : HostStmt}
    (hs : s.turns = .host :: rest) (hst : s.host.program[s.host.position]? = some st) :
    step s = outcomeOf (({ s with turns := rest } : State).hostStatement st) := by
  rw [step_of_turns hs]
  show outcomeOf (State.hostStep _) = _
  simp [State.hostStep, hst]

theorem step_hostEnded {s : State} {rest : List Turn} (hs : s.turns = .host :: rest)
    (hend : s.host.program[s.host.position]? = none) : step s = .next { s with turns := rest } := by
  rw [step_of_turns hs]
  show outcomeOf (State.hostStep _) = _
  simp [State.hostStep, hend, outcomeOf]

/-! ### Jumps (log 9) -/

theorem State.hostJump_of_labelAt {s : State} {l n : Nat} (h : s.host.LabelAt l n) :
    s.hostJump l = .ok { s with host := { s.host with position := n } } := by
  simp [State.hostJump, (s.host.labelLine_eq_some l n).mpr h]

theorem State.hostJump_of_no_label {s : State} {l : Nat} (h : ∀ n, ¬s.host.LabelAt l n) :
    s.hostJump l = .error .noSuchLabel := by
  simp [State.hostJump, HostAgent.labelLine_eq_none h]

/-- What a step that jumps does, with the label and without it. -/
theorem step_of_jump {s : State} {rest : List Turn} {l : Nat}
    (h : step s = outcomeOf (({ s with turns := rest } : State).hostJump l)) :
    (∀ n, s.host.LabelAt l n →
      step s = .next { s with turns := rest, host := { s.host with position := n } }) ∧
      ((∀ n, ¬s.host.LabelAt l n) → step s = .fault .noSuchLabel) := by
  refine ⟨fun n hn => ?_, fun hn => ?_⟩
  · rw [h, State.hostJump_of_labelAt (s := { s with turns := rest }) hn]; rfl
  · rw [h, State.hostJump_of_no_label (s := { s with turns := rest }) hn]; rfl

/-- Settles O9: the host's move is its statement, taken case by case. -/
theorem hostStatementEffects : Obligations.HostStatementEffects := by
  refine ⟨⟨rfl, rfl, rfl, rfl, rfl, rfl, rfl⟩, fun s rest hs => ?_⟩
  intro h value next goes jumps bits
  have hvalue : ∀ v, value v = h.value v := fun v => by cases v <;> rfl
  have hbits : ∀ x hi lo, bits x hi lo = sliceNat (h.lookup x) hi lo := fun x hi lo =>
    (sliceNat_eq _ hi lo).symm
  refine ⟨step_hostEnded hs, fun st hp => ?_⟩
  have hstep := step_hostStatement hs hp
  cases st with
  | wr r v =>
    show step s = _
    rw [hvalue, hstep, State.hostStatement, State.hostNext_access]
    rfl
  | command i =>
    show step s = _
    rw [hstep, State.hostStatement, State.hostNext_access]
    rfl
  | rd x r => exact ⟨_, HostAgent.setsName_assign h x _, hstep⟩
  | wait =>
    show step s = _
    rw [hstep, State.hostStatement_wait]
    rfl
  | set x v => exact ⟨_, HostAgent.setsName_assign h x _, (hvalue v) ▸ hstep⟩
  | add x v => exact ⟨_, HostAgent.setsName_assign h x _, (hvalue v) ▸ hstep⟩
  | label l => exact hstep
  | jmp l => exact step_of_jump hstep
  | jeq x hi lo v l =>
    dsimp only
    rw [hbits, hvalue]
    refine ⟨fun he => step_of_jump ?_, fun he => ?_⟩
    · rw [hstep]; dsimp only [State.hostStatement]; rw [if_pos he]
    · show step s = _
      rw [hstep]; dsimp only [State.hostStatement]; rw [if_neg he]; rfl
  | jne x hi lo v l =>
    dsimp only
    rw [hbits, hvalue]
    refine ⟨fun he => step_of_jump ?_, fun he => ?_⟩
    · rw [hstep]; dsimp only [State.hostStatement]; rw [if_neg he]
    · show step s = _
      rw [hstep]; dsimp only [State.hostStatement]; rw [if_pos he]; rfl
  | stop => exact hstep

end Sys2Proof.Machine
end

section
/-! SUPPORT. The registers a host reads (R34, R38), CMD writes (R31), the register block's access rules
(R40) and the values of reset (R57). -/

namespace Sys2Proof.Machine

/-! ### The bits of STATUS and CAPS -/

@[simp] theorem getLsbD_flagAt (b : Bool) (lo i : Nat) :
    (flagAt b lo).getLsbD i = (b && decide (i = lo) && decide (lo < 64)) := by
  cases b with
  | false => simp [flagAt]
  | true => exact (getLsbD_onehot lo i).trans (by simp)

@[simp] theorem getElem_flagAt (b : Bool) (lo i : Nat) (hi : i < 64) :
    (flagAt b lo)[i] = (b && decide (i = lo)) := by
  cases b with
  | false => simp [flagAt]
  | true => exact (getElem_onehot lo i hi).trans (by simp)

/-- A flag outside a bit range adds nothing to it. -/
theorem extractLsb'_flagAt (b : Bool) {lo start len : Nat} (h : lo < start ∨ start + len ≤ lo) :
    (flagAt b lo).extractLsb' start len = 0 := by
  ext i hi
  have hne : start + i ≠ lo := by omega
  simp [hne]

/-- Every bit of STATUS (R34). -/
theorem getLsbD_statusWord (s : State) (i : Nat) :
    (statusWord s).getLsbD i =
      ((s.busy && decide (i = 0)) || (s.err && decide (i = 1)) || (s.ovr && decide (i = 2)) ||
        (decide (8 ≤ i) && s.errCode.getLsbD (i - 8))) := by
  have hcode : (s.errCode.setWidth 64 <<< 8).getLsbD i =
      (decide (8 ≤ i) && s.errCode.getLsbD (i - 8)) := by
    by_cases h8 : 8 ≤ i
    · by_cases h64 : i < 64
      · have hlt : ¬i < 8 := by omega
        simp [h8, h64, hlt]
      · rw [BitVec.getLsbD_of_ge _ _ (by omega), BitVec.getLsbD_of_ge _ _ (by omega)]
        simp
    · have hlt : i < 8 := by omega
      simp [h8, hlt]
  simp [statusWord, hcode]

theorem statusWord_eq_zero {s : State} (hb : s.busy = false) (he : s.err = false)
    (ho : s.ovr = false) (hc : s.errCode = 0) : statusWord s = 0 := by
  simp [statusWord, flagAt, hb, he, ho, hc]

/-- Settles O11, from the bits of the STATUS word. -/
theorem statusFieldsRead : Obligations.StatusFieldsRead := by
  intro s
  have hread : s.readPort 0x28 = statusWord s := rfl
  rw [hread]
  refine ⟨(getLsbD_statusWord s 0).trans (by simp), (getLsbD_statusWord s 1).trans (by simp),
    (getLsbD_statusWord s 2).trans (by simp), fun b h3 h7 => ?_, ?_, fun b h16 => ?_⟩
  · have hb : b ≠ 0 ∧ b ≠ 1 ∧ b ≠ 2 ∧ ¬8 ≤ b := by omega
    simp [getLsbD_statusWord, hb]
  · ext i hi
    have hb : 8 + i ≠ 0 ∧ 8 + i ≠ 1 ∧ 8 + i ≠ 2 := by omega
    simp [getLsbD_statusWord, hb, hi]
  · have hb : b ≠ 0 ∧ b ≠ 1 ∧ b ≠ 2 := by omega
    rw [getLsbD_statusWord, BitVec.getLsbD_of_ge s.errCode _ (by omega)]
    simp [hb]

/-- A bit range of CAPS above the flags is that of the other fields (R38). -/
theorem extractLsb'_capsWord (c : Config) {start len : Nat} (h : 8 ≤ start) :
    (capsWord c).extractLsb' start len =
      ((BitVec.ofNat 64 c.simdL.count <<< 8) ||| 0x101008200000#64).extractLsb' start len := by
  have hconst : 0x101008200000#64 = (BitVec.ofNat 64 Config.tileW <<< 16) |||
      (BitVec.ofNat 64 Config.m4rK <<< 24) ||| (BitVec.ofNat 64 Config.groupW <<< 32) |||
      (BitVec.ofNat 64 Config.nSlot <<< 40) := by decide
  rw [hconst]
  simp (disch := omega) only [capsWord, BitVec.extractLsb'_or, extractLsb'_flagAt, BitVec.or_assoc,
    BitVec.ofNat_eq_ofNat, BitVec.zero_or]

/-- Bits 7:0 of CAPS are the flags (R38). -/
theorem getLsbD_capsWord (c : Config) {i : Nat} (h : i < 8) :
    (capsWord c).getLsbD i =
      ((c.capSimd && decide (i = 0)) || (c.capDev && decide (i = 1)) ||
        (c.capPipeVec && decide (i = 2)) || (c.capPipeTiled && decide (i = 3)) ||
        (c.capPipeM4rBuild && decide (i = 4)) || (c.capPipeM4rMul && decide (i = 5))) := by
  have hshift : ∀ (x : Word) (n : Nat), 8 ≤ n → (x <<< n).getLsbD i = false := fun x n hn => by
    have hin : i < n := by omega
    simp [hin]
  simp only [capsWord, BitVec.getLsbD_or, getLsbD_flagAt]
  rw [hshift _ 8 (by decide), hshift _ 16 (by decide), hshift _ 24 (by decide),
    hshift _ 32 (by decide), hshift _ 40 (by decide)]
  simp

/-- Settles O12: the flags are bits 7:0, and the fields above them do not depend on the flags. -/
theorem capsFieldsRead : Obligations.CapsFieldsRead := by
  intro s w
  have hbit : ∀ {i}, i < 8 → w.getLsbD i = _ := getLsbD_capsWord s.config
  have hfield : ∀ {start len}, 8 ≤ start → w.extractLsb' start len = _ :=
    extractLsb'_capsWord s.config
  refine ⟨(hbit (by decide)).trans (by simp), (hbit (by decide)).trans (by simp),
    (hbit (by decide)).trans (by simp), (hbit (by decide)).trans (by simp),
    (hbit (by decide)).trans (by simp), (hbit (by decide)).trans (by simp),
    (hbit (by decide)).trans (by simp), (hbit (by decide)).trans (by simp), ?_⟩
  rw [hfield (by decide), hfield (by decide), hfield (by decide), hfield (by decide),
    hfield (by decide), hfield (by decide)]
  cases s.config.simdL <;> decide

/-! ### CMD and the access rules -/

/-- With a command in flight and no dispatch in progress, the CP's move is exec (R125). -/
theorem State.runCommand_of_decode {s : State} {i : Instr} (hb : s.busy = true)
    (hd : s.device = none) (hi : decode s.cmd = some i) : s.runCommand = exec i s := by
  simp [State.runCommand, State.fetch, hb, hd, hi]

/-- Settles O6: the write latches the command, and the CP's next move runs it. -/
theorem cmdWriteIssuesCommand : Obligations.CmdWriteIssuesCommand := by
  refine ⟨fun s v hb => State.writeCmd_idle hb v, fun s v i rest hb hd hs hi => ?_,
    fun s v hb => State.writeCmd_busy hb v, fun _ => rfl⟩
  have hwrite : step s = .next { s with
      turns := .command :: rest
      cmd := v.setWidth 32, a0 := s.arg0, a1 := s.arg1, a2 := s.arg2, busy := true } := by
    rw [step_of_turns hs]
    exact congrArg Host.Outcome.next
      (State.writeCmd_idle (s := { s with turns := .command :: rest }) hb v)
  refine ⟨_, _, hwrite, rfl, rfl, rfl, ?_⟩
  rw [step_of_turns rfl]
  exact State.runCommand_of_decode rfl hd hi

/-- A write of CMD depends on bits 31:0 of the value (R31). -/
theorem State.writeCmd_congr (s : State) {v v' : Word}
    (h : v.extractLsb' 0 32 = v'.extractLsb' 0 32) : s.writeCmd v = s.writeCmd v' := by
  have hset : v.setWidth 32 = v'.setWidth 32 := by
    rw [BitVec.setWidth_eq_extractLsb' (by decide), h, BitVec.setWidth_eq_extractLsb' (by decide)]
  rw [State.writeCmd, State.writeCmd, hset]

theorem State.readPort_unlisted (s : State) {offset : Nat}
    (h : offset ∉ [0x08, 0x10, 0x18, 0x20, 0x28, 0x30]) : s.readPort offset = 0 := by
  unfold State.readPort
  split <;> simp_all

theorem State.writePort_unlisted (s : State) {offset : Nat} (v : Word)
    (h : offset ∉ [0x00, 0x08, 0x10, 0x18]) : s.writePort offset v = s := by
  obtain ⟨rfl, -⟩ | ⟨rfl, -⟩ | ⟨rfl, -⟩ | ⟨rfl, -⟩ | ⟨-, hw⟩ := s.writePort_cases offset v
  iterate 4 simp at h
  exact hw

/-- Settles O8, offset by offset. -/
theorem registerBlockAccessRules : Obligations.RegisterBlockAccessRules := by
  refine ⟨fun s => ⟨rfl, rfl, rfl, rfl, rfl, rfl⟩, fun s v => ⟨rfl, rfl, rfl⟩,
    fun s offset v => s.writePort_unlisted v, fun s offset => s.readPort_unlisted,
    fun s v v' => s.writeCmd_congr, fun s offset => rfl, fun s x r rest hs hst => ?_⟩
  have hname := HostAgent.setsName_assign s.host x (s.readPort (regOffset r))
  exact ⟨_, step_hostStatement hs hst, (hname.names x).trans (if_pos rfl), hname.position⟩

/-! ### Reset -/

/-- Settles O13: a reset with a legal configuration happens in any state. -/
theorem resetLeavesResetValues : Obligations.ResetLeavesResetValues := by
  intro s c rest hc hs
  refine ⟨_, step_of_turns hs, ?_⟩
  rw [State.resetTo, if_pos hc]
  refine ⟨rfl, rfl, rfl, rfl, rfl, statusWord_eq_zero rfl rfl rfl rfl, rfl, rfl,
    fun i => ?_, ?_, rfl, rfl⟩
  · simp [State.slot, State.resetWith]
  · simp [State.usage, State.resetWith]

end Sys2Proof.Machine
end

section
/-! SUPPORT. No host reaches the matrix store, the device or a running command (R80, R376). -/

namespace Sys2Proof.Machine

/-- Settles O59: the moves to come are no part of what a host move keeps. -/
theorem hostCannotReachTheStore : Obligations.HostCannotReachTheStore := by
  intro s t m rest hm hs h
  rw [step_of_turns hs] at h
  have hk : KeepsUnit { s with turns := rest } t := State.move_host_keepsUnit hm h
  exact ⟨hk.slots, hk.device, hk.temp, hk.result, fun hb => ⟨hk.busy hb, hk.latches hb⟩⟩

end Sys2Proof.Machine
end

section
/-! SUPPORT. The CP's move proceed (R93, R94): it waits for a complete dispatch, starts phase 2 of MUL4R
after phase 1 (R289), and downloads the result after any other dispatch (R208). -/

namespace Sys2Proof.Machine

variable {s : State} {d : Device} {rest : List Turn}

theorem step_proceed_unfinished (hd : s.device = some d) (hs : s.turns = .proceed :: rest)
    (hf : d.finished = false) : step s = .next { s with turns := rest } := by
  simp [step_of_turns hs, State.move, State.proceed, hd, hf]

theorem step_proceed_finished (hd : s.device = some d) (hs : s.turns = .proceed :: rest)
    (hf : d.finished = true) :
    step s = .next (({ s with turns := rest } : State).afterDispatch d) := by
  simp [step_of_turns hs, State.move, State.proceed, hd, hf]

/-- The dispatch of phase 2 of MUL4R is over the words of C by its rows (R289). -/
theorem Device.begin_m4rMul_started (d : Device) (n : Nat) :
    DispatchStarted (d.begin .m4rMul n) 16 d.desc.cWpr d.desc.aRows .q0 :=
  d.begin_started .m4rMul n rfl rfl rfl

/-- The matrix whose words are those of bufC, before its padding is drawn (R208). -/
def Device.resultMatrix (d : Device) : BitMatrix where
  rows := d.desc.cRows
  cols := d.desc.cCols
  wpr := wordsPerRow d.desc.cCols
  data := d.bufC

/-- The matrix the download leaves in the destination. -/
def Device.downloaded (d : Device) (draws : Nat) : BitMatrix :=
  { d.resultMatrix with data := drawPadding draws d.desc.cCols d.bufC }

theorem State.slot_download (s : State) (d : Device) :
    (s.commitProduct d.dest d.desc.cRows d.desc.cCols d.bufC).slot d.dest =
      some (d.downloaded s.draws) :=
  State.commitProduct_slot_self ..

/-- The words of bufC fill the result. -/
theorem Device.resultMatrix_wf (h : d.bufC.length = d.desc.cRows * wordsPerRow d.desc.cCols) :
    d.resultMatrix.wf = true :=
  (BitMatrix.wf_iff _).mpr ⟨rfl, h⟩

theorem Device.downloaded_wf (h : d.bufC.length = d.desc.cRows * wordsPerRow d.desc.cCols)
    (draws : Nat) : (d.downloaded draws).wf = true :=
  (BitMatrix.wf_iff _).mpr ⟨rfl, (length_drawPadding draws _ _).trans h⟩

/-- A valid bit of the downloaded matrix is the bit of bufC at its place. -/
theorem Device.get_downloaded (h : d.bufC.length = d.desc.cRows * wordsPerRow d.desc.cCols)
    (draws : Nat) {i j : Nat} (hi : i < d.desc.cRows) (hj : j < d.desc.cCols) :
    (d.downloaded draws).get i j =
      (d.word .c (i * wordsPerRow d.desc.cCols + j / 64)).getLsbD (j % 64) := by
  have hvalid : ¬(d.desc.cRows ≤ i ∨ d.desc.cCols ≤ j) := by omega
  calc (d.downloaded draws).get i j
      = d.resultMatrix.get i j := get_drawPadding draws _ (Device.resultMatrix_wf h) i j
    _ = _ := if_neg hvalid

/-- Settles O48: the three outcomes of the move, a wait, the dispatch of phase 2 and the download. -/
theorem proceedAfterDispatch : Obligations.ProceedAfterDispatch := by
  intro s d rest hd hs
  refine ⟨step_proceed_unfinished hd hs, fun hf hk => ?_, fun hf hk hlen => ?_⟩
  · have hstep := step_proceed_finished hd hs hf
    rw [State.afterDispatch_build _ hk] at hstep
    exact ⟨_, d.begin .m4rMul s.dispatches, hstep, rfl, rfl, rfl, rfl, rfl, rfl, rfl, rfl, rfl,
      d.begin_m4rMul_started _, rfl, rfl, rfl, rfl, rfl, rfl, fun _ => rfl, by constructor <;> rfl⟩
  · have hstep := step_proceed_finished hd hs hf
    rw [State.afterDispatch_last _ hk] at hstep
    have hend := UnitEnd.download { s with turns := rest } d
    refine ⟨_, d.downloaded s.draws, hstep, hend.completed, State.slot_download _ d, rfl, rfl,
      Device.downloaded_wf hlen _, fun i j => Device.get_downloaded hlen _, ?_,
      fun i hi => State.commitProduct_slot_ne _ _ _ _ hi, rfl, hend.control⟩
    show (if _ then s.draws else s.draws + _) = _
    split <;> rfl

end Sys2Proof.Machine
end

section
/-! SUPPORT. The work-group barrier (R97): arrival, the release of a whole group, and the group that has no
step. -/

namespace Sys2Proof.Machine

variable {d : Device} {g : Group} {it : WorkItem} {gi n : Nat}

/-! ### One work-item -/

/-- The step of a work-item that can step and whose access is in range. -/
theorem Device.stepItem_ok (hg : d.groups[gi]? = some g) (hit : g.items[n]? = some it)
    (hc : it.pos.canStep = true) {e : Effect} {p : Pos} (ha : itemAction d g it = .ok (e, p)) :
    d.stepItem gi n = .ok { d.apply e with
      groups := d.groups.set gi
        (({ g with items := g.items.set n { it with pos := p } } : Group).apply e) } := by
  simp [Device.stepItem, hg, hit, hc, ha]

/-- In a group whose work-items all have finished or wait at a barrier, no move of a work-item changes
anything. -/
theorem Device.stepItem_of_none_canStep (hg : d.groups[gi]? = some g)
    (hall : ∀ it ∈ g.items, it.pos.canStep = false) (n : Nat) : d.stepItem gi n = .ok d := by
  cases hit : g.items[n]? with
  | none => simp [Device.stepItem, hg, hit]
  | some it => simp [Device.stepItem, hg, hit, hall it (List.mem_of_getElem? hit)]

/-- Work-items of MULT act by the tiled kernel. -/
theorem itemAction_tiled (hk : d.kernel = .tiled) (g : Group) (it : WorkItem) :
    itemAction d g it = tiledAction d g it.lx it.ly it.pos := by
  simp [itemAction, hk]

/-- A dispatch with a work-item that has not finished is not complete (R94). -/
theorem Device.finished_eq_false (hg : d.groups[gi]? = some g)
    (hw : ∃ it ∈ g.items, it.pos ≠ .done) : d.finished = false := by
  obtain ⟨it, hit, hne⟩ := hw
  refine Bool.eq_false_iff.mpr fun hall => hne ?_
  have hgroup := List.all_eq_true.mp hall g (List.mem_of_getElem? hg)
  exact beq_iff_eq.mp (List.all_eq_true.mp hgroup it hit)

/-! ### The barrier's move -/

theorem Pos.waitsT4_iff {p : Pos} {gen : Nat} :
    p.waitsT4 gen = true ↔ ∃ sum u, p = .t4Wait sum u gen := by
  cases p <;> simp [Pos.waitsT4]

theorem Pos.waitsT6_iff {p : Pos} {gen : Nat} :
    p.waitsT6 gen = true ↔ ∃ sum u, p = .t6Wait sum u gen := by
  cases p <;> simp [Pos.waitsT6]

theorem step_barrier {s : State} {rest : List Turn} (hd : s.device = some d)
    (hs : s.turns = .barrier gi :: rest) :
    step s = .next { s with turns := rest, device := some (d.stepBarrier gi) } := by
  simp [step_of_turns hs, State.move, State.onDevice, outcomeOf, hd]

theorem Device.stepBarrier_release (hg : d.groups[gi]? = some g) (hr : g.canRelease = true) :
    d.stepBarrier gi = { d with groups := d.groups.set gi g.release } := by
  simp [Device.stepBarrier, hg, hr]

theorem Device.stepBarrier_stay (hg : d.groups[gi]? = some g) (hr : g.canRelease = false) :
    d.stepBarrier gi = d := by
  simp [Device.stepBarrier, hg, hr]

/-- All work-items of the group wait at T4 or all wait at T6 in its generation, and `next` is where each of
them goes on. -/
def Group.AllWait (g : Group) (next : Pos → Pos) : Prop :=
  (∀ it ∈ g.items, ∃ sum u, it.pos = .t4Wait sum u g.generation ∧ next it.pos = .t5 sum u 0) ∨
    ∀ it ∈ g.items, ∃ sum u, it.pos = .t6Wait sum u g.generation ∧ next it.pos = .t1 sum (u + 1)

theorem Group.AllWait.canRelease {next : Pos → Pos} (h : g.AllWait next) (hne : g.items ≠ [])
    (hw : g.waiting = g.items.length) : g.canRelease = true := by
  refine g.canRelease_iff.mpr ⟨hne, hw, h.imp (fun h it hit => ?_) fun h it hit => ?_⟩
  · obtain ⟨sum, u, hpos, -⟩ := h it hit
    exact Pos.waitsT4_iff.mpr ⟨sum, u, hpos⟩
  · obtain ⟨sum, u, hpos, -⟩ := h it hit
    exact Pos.waitsT6_iff.mpr ⟨sum, u, hpos⟩

theorem Group.AllWait.released_eq {next : Pos → Pos} (h : g.AllWait next) (hit : it ∈ g.items) :
    it.pos.released = next it.pos := by
  obtain h | h := h <;> obtain ⟨sum, u, hpos, hnext⟩ := h it hit <;> rw [hnext, hpos] <;> rfl

theorem Group.AllWait.release_eq {next : Pos → Pos} (h : g.AllWait next) :
    g.release = { g with
      items := g.items.map fun it => { it with pos := next it.pos }
      waiting := 0
      generation := g.generation + 1 } := by
  have hitems : (g.items.map fun it => ({ it with pos := it.pos.released } : WorkItem)) =
      g.items.map fun it => { it with pos := next it.pos } :=
    List.map_congr_left fun it hit => by rw [h.released_eq hit]
  rw [Group.release, hitems]

/-- A count that differs from the group's work-items, or one work-item away from each site, keeps the
group waiting. -/
theorem Group.canRelease_eq_false (h : g.waiting ≠ g.items.length ∨
    ((∃ it ∈ g.items, ∀ sum u, it.pos ≠ .t4Wait sum u g.generation) ∧
      ∃ it ∈ g.items, ∀ sum u, it.pos ≠ .t6Wait sum u g.generation)) : g.canRelease = false := by
  refine Bool.eq_false_iff.mpr fun hr => ?_
  obtain ⟨-, hw, hsite⟩ := g.canRelease_iff.mp hr
  obtain hne | ⟨⟨i, hi, hi4⟩, j, hj, hj6⟩ := h
  · exact hne hw
  · obtain h4 | h6 := hsite
    · obtain ⟨sum, u, hpos⟩ := Pos.waitsT4_iff.mp (h4 i hi)
      exact hi4 sum u hpos
    · obtain ⟨sum, u, hpos⟩ := Pos.waitsT6_iff.mp (h6 j hj)
      exact hj6 sum u hpos

/-- Settles O51: arrival is the work-item's step at T4 and T6, and the barrier's move is a release or
nothing. -/
theorem barrierReleasesTogether : Obligations.BarrierReleasesTogether := by
  refine ⟨fun d g it gi n sum u hk hg hit => ⟨fun hp => ?_, fun hp => ?_⟩,
    fun s d g gi rest hd hs hg hne => ⟨fun hw next hnext => ?_, fun hno => ⟨?_, fun hall hrun =>
      ⟨Device.finished_eq_false hg hrun, Device.stepItem_of_none_canStep hg hall⟩⟩⟩⟩
  · exact Device.stepItem_ok (e := .arrive) hg hit (by rw [hp]; rfl)
      (by rw [itemAction_tiled hk, hp]; rfl)
  · exact Device.stepItem_ok (e := .arrive) hg hit (by rw [hp]; rfl)
      (by rw [itemAction_tiled hk, hp]; rfl)
  · have hwait : g.AllWait next := hnext
    rw [step_barrier hd hs, Device.stepBarrier_release hg (hwait.canRelease hne hw),
      hwait.release_eq]
  · rw [step_barrier hd hs, Device.stepBarrier_stay hg (Group.canRelease_eq_false hno), ← hd]

end Sys2Proof.Machine
end

section
/-! SUPPORT. Decoding and encoding field by field (R120, R122, R123, R126): the rows of the opcode map
against the table of used fields, and the word of a command against the word it is read from. -/

namespace Sys2Proof

/-! ### A command word is its five fields (R120) -/

/-- The fields of a word from RSV down to OPC, put together again. -/
theorem append_fields (w : CmdWord) :
    w.extractLsb' 20 12 ++ w.extractLsb' 16 4 ++ w.extractLsb' 12 4 ++ w.extractLsb' 8 4 ++
      w.extractLsb' 0 8 = w := by
  rw [BitVec.extractLsb'_append_extractLsb'_eq_extractLsb' (by decide),
    BitVec.extractLsb'_append_extractLsb'_eq_extractLsb' (by decide),
    BitVec.extractLsb'_append_extractLsb'_eq_extractLsb' (by decide),
    BitVec.extractLsb'_append_extractLsb'_eq_extractLsb' (by decide)]
  exact BitVec.extractLsb'_eq_self

theorem cmdWord_ext_iff {v w : CmdWord} :
    v = w ↔ v.extractLsb' 0 8 = w.extractLsb' 0 8 ∧ v.extractLsb' 8 4 = w.extractLsb' 8 4 ∧
      v.extractLsb' 12 4 = w.extractLsb' 12 4 ∧ v.extractLsb' 16 4 = w.extractLsb' 16 4 ∧
      v.extractLsb' 20 12 = w.extractLsb' 20 12 := by
  refine ⟨fun h => by simp [h], fun ⟨hopc, hrd, hra, hrb, hrsv⟩ => ?_⟩
  rw [← append_fields v, ← append_fields w, hopc, hrd, hra, hrb, hrsv]

theorem ofNat_toFin (x : BitVec 4) : BitVec.ofNat 4 x.toFin.val = x :=
  (BitVec.ofNat_toNat 4 x).trans (BitVec.setWidth_eq x)

theorem and_fifteen (x : BitVec 4) : x &&& 15#4 = x := BitVec.and_allOnes

theorem slotBits_rdField (w : CmdWord) : slotBits (rdField w) 8 = w &&& 0xF00 := by
  have hval : BitVec.ofNat 4 (rdField w).val = w.extractLsb' 8 4 := ofNat_toFin _
  simp [cmdWord_ext_iff, BitVec.extractLsb'_and, hval, and_fifteen]

theorem slotBits_raField (w : CmdWord) : slotBits (raField w) 12 = w &&& 0xF000 := by
  have hval : BitVec.ofNat 4 (raField w).val = w.extractLsb' 12 4 := ofNat_toFin _
  simp [cmdWord_ext_iff, BitVec.extractLsb'_and, hval, and_fifteen]

theorem slotBits_rbField (w : CmdWord) : slotBits (rbField w) 16 = w &&& 0xF0000 := by
  have hval : BitVec.ofNat 4 (rbField w).val = w.extractLsb' 16 4 := ofNat_toFin _
  simp [cmdWord_ext_iff, BitVec.extractLsb'_and, hval, and_fifteen]

/-! ### The rows of the opcode map and the table of used fields -/

/-- The opcode a row of the map is for. -/
def OpcodeRow.opcode (r : OpcodeRow) : BitVec 8 := r.pattern.extractLsb' 0 8

/-- The mask of a command that uses the fields `u`: every bit outside them (R122, R123). -/
def FieldUse.mask (u : FieldUse) : CmdWord :=
  0xFFF#12 ++ (if u.rb then 0 else BitVec.allOnes 4) ++ (if u.ra then 0 else BitVec.allOnes 4) ++
    (if u.rd then 0 else BitVec.allOnes 4) ++ 0xFF#8

theorem FieldUse.extract_mask (u : FieldUse) :
    u.mask.extractLsb' 0 8 = BitVec.allOnes 8 ∧
    u.mask.extractLsb' 8 4 = (if u.rd then 0 else BitVec.allOnes 4) ∧
    u.mask.extractLsb' 12 4 = (if u.ra then 0 else BitVec.allOnes 4) ∧
    u.mask.extractLsb' 16 4 = (if u.rb then 0 else BitVec.allOnes 4) ∧
    u.mask.extractLsb' 20 12 = BitVec.allOnes 12 := by
  obtain ⟨_ | _, _ | _, _ | _⟩ := u <;> decide

theorem and_unused_eq_zero (b : Bool) (x : BitVec 4) :
    x &&& (if b then 0 else BitVec.allOnes 4) = 0 ↔ b = true ∨ x = 0 := by
  cases b <;> simp [and_fifteen]

/-- A row's match value is 0 outside the opcode, and its mask leaves out the fields its command uses
(R122, R123). -/
theorem opcodeMap_row : ∀ r ∈ opcodeMap,
    r.pattern.extractLsb' 8 4 = 0 ∧ r.pattern.extractLsb' 12 4 = 0 ∧
      r.pattern.extractLsb' 16 4 = 0 ∧ r.pattern.extractLsb' 20 12 = 0 ∧
      (fieldUse r.opcode.toNat).map FieldUse.mask = some r.mask := by
  decide

theorem nodup_opcodes : (opcodeMap.map OpcodeRow.opcode).Nodup := by decide

/-- Every assigned opcode has its row. -/
theorem exists_row_of_fieldUse {n : Nat} {u : FieldUse} (h : fieldUse n = some u) :
    ∃ r ∈ opcodeMap, r.opcode.toNat = n := by
  unfold fieldUse at h
  split at h
  case h_16 => cases h
  all_goals decide

/-- A word with an assigned opcode is well-formed when RSV and the fields its command does not use are 0
(R126). -/
theorem wordWellFormed_iff {w : CmdWord} {u : FieldUse}
    (hu : fieldUse (w.extractLsb' 0 8).toNat = some u) :
    wordWellFormed w = true ↔ (u.rd = true ∨ w.extractLsb' 8 4 = 0) ∧
      (u.ra = true ∨ w.extractLsb' 12 4 = 0) ∧ (u.rb = true ∨ w.extractLsb' 16 4 = 0) ∧
      w.extractLsb' 20 12 = 0 := by
  simp only [wordWellFormed, WordCheck.opcodeAssigned, WordCheck.reservedZero,
    WordCheck.unusedRdZero, WordCheck.unusedRaZero, WordCheck.unusedRbZero, hu, Option.isSome_some,
    Bool.and_eq_true, Bool.or_eq_true, beq_iff_eq]
  tauto

/-- A word matches a row exactly when it is a well-formed word of the row's opcode. -/
theorem matches_row_iff {r : OpcodeRow} (hr : r ∈ opcodeMap) (w : CmdWord) :
    w &&& r.mask = r.pattern ↔ w.extractLsb' 0 8 = r.opcode ∧ wordWellFormed w = true := by
  obtain ⟨hrd, hra, hrb, hrsv, hrow⟩ := opcodeMap_row r hr
  obtain ⟨u, hu, hmask⟩ := Option.map_eq_some_iff.mp hrow
  obtain ⟨mopc, mrd, mra, mrb, mrsv⟩ := u.extract_mask
  rw [← hmask, cmdWord_ext_iff, hrd, hra, hrb, hrsv]
  simp only [BitVec.extractLsb'_and, mopc, mrd, mra, mrb, mrsv, BitVec.and_allOnes,
    and_unused_eq_zero]
  exact and_congr_right fun hopc => (wordWellFormed_iff (by rw [hopc]; exact hu)).symm

/-! ### What decode answers (R123, R125) -/

variable {r : OpcodeRow} {w : CmdWord} {i : Instr}

/-- No two rows match one word. -/
theorem row_unique {r' : OpcodeRow} (hr : r ∈ opcodeMap) (hr' : r' ∈ opcodeMap)
    (h : w &&& r.mask = r.pattern) (h' : w &&& r'.mask = r'.pattern) : r = r' := by
  have hopc := ((matches_row_iff hr w).mp h).1
  have hopc' := ((matches_row_iff hr' w).mp h').1
  exact List.inj_on_of_nodup_map nodup_opcodes hr hr' (hopc.symm.trans hopc')

theorem decode_eq_some_iff : decode w = some i ↔
    ∃ r ∈ opcodeMap, w &&& r.mask = r.pattern ∧
      r.build (rdField w) (raField w) (rbField w) = i := by
  constructor
  · intro h
    obtain ⟨r, hfind, hbuild⟩ := Option.map_eq_some_iff.mp h
    exact ⟨r, List.mem_of_find?_eq_some hfind, beq_iff_eq.mp (List.find?_some hfind :), hbuild⟩
  · rintro ⟨r, hr, hmatch, hbuild⟩
    have hsome : (opcodeMap.find? fun r => w &&& r.mask == r.pattern).isSome :=
      List.find?_isSome.mpr ⟨r, hr, beq_iff_eq.mpr hmatch⟩
    obtain ⟨r', hfind⟩ := Option.isSome_iff_exists.mp hsome
    have heq : r' = r := row_unique (List.mem_of_find?_eq_some hfind) hr
      (beq_iff_eq.mp (List.find?_some hfind :)) hmatch
    rw [decode, hfind, heq, Option.map_some, hbuild]

theorem decode_of_matches (hr : r ∈ opcodeMap) (h : w &&& r.mask = r.pattern) :
    decode w = some (r.build (rdField w) (raField w) (rbField w)) :=
  decode_eq_some_iff.mpr ⟨r, hr, h, rfl⟩

/-- Settles O3: a well-formed word has an assigned opcode, and matches the row of that opcode. -/
theorem decodesExactlyWellFormedWords : Obligations.DecodesExactlyWellFormedWords := by
  intro w
  rw [Bool.eq_iff_iff, Option.isSome_iff_exists]
  constructor
  · rintro ⟨i, hi⟩
    obtain ⟨r, hr, hmatch, -⟩ := decode_eq_some_iff.mp hi
    exact ((matches_row_iff hr w).mp hmatch).2
  · intro hwf
    have hopc : WordCheck.opcodeAssigned w = true := by simp_all [wordWellFormed]
    obtain ⟨u, hu⟩ := Option.isSome_iff_exists.mp hopc
    obtain ⟨r, hr, hop⟩ := exists_row_of_fieldUse hu
    exact ⟨_, decode_of_matches hr
      ((matches_row_iff hr w).mpr ⟨(BitVec.eq_of_toNat_eq hop).symm, hwf⟩)⟩

/-- Settles O4: decode answers the row that matches, and a word has one opcode. -/
theorem opcodeMapRowsMatch : Obligations.OpcodeMapRowsMatch := by
  refine ⟨fun w => ?_, fun w => ?_⟩
  · have hrow : ∀ r ∈ opcodeMap, w &&& r.mask = r.pattern →
        decode w = some (r.build (rdField w) (raField w) (rbField w)) := fun r => decode_of_matches
    simpa [opcodeMap] using hrow
  · calc (opcodeMap.filter fun r => w &&& r.mask == r.pattern).length
        = opcodeMap.countP fun r => w &&& r.mask == r.pattern := List.countP_eq_length_filter.symm
      _ ≤ opcodeMap.countP fun r => r.opcode == w.extractLsb' 0 8 :=
          List.countP_mono_left fun r hr h =>
            beq_iff_eq.mpr ((matches_row_iff hr w).mp (beq_iff_eq.mp h)).1.symm
      _ = (opcodeMap.map OpcodeRow.opcode).count (w.extractLsb' 0 8) := by
          rw [List.count, List.countP_map]; rfl
      _ ≤ 1 := List.nodup_iff_count_le_one.mp nodup_opcodes _

/-! ### The word of a command -/

/-- The word of the command a row builds from the fields of `w` has the bits of `w` outside the mask. -/
theorem encode_build : ∀ r ∈ opcodeMap, ∀ w : CmdWord,
    encode (r.build (rdField w) (raField w) (rbField w)) = (w &&& ~~~r.mask) ||| r.pattern := by
  simp [opcodeMap, encode, slotBits_rdField, slotBits_raField, slotBits_rbField,
    ← BitVec.and_or_distrib_left]

/-- Settles O2: outside the row's mask the two words agree by `encode_build`, inside it by the match. -/
theorem encodeOfDecode : Obligations.EncodeOfDecode := by
  intro w i h
  obtain ⟨r, hr, hmatch, rfl⟩ := decode_eq_some_iff.mp h
  rw [encode_build r hr w, ← hmatch, ← BitVec.and_or_distrib_left, BitVec.or_comm,
    BitVec.or_not_self, BitVec.and_allOnes]

/-- The row of a command. -/
def Instr.row : Instr → OpcodeRow
  | .malloc _ => opcodeMap[0]
  | .mfree _ => opcodeMap[1]
  | .mget _ => opcodeMap[2]
  | .mset _ => opcodeMap[3]
  | .mrand _ => opcodeMap[4]
  | .mtrans _ _ => opcodeMap[5]
  | .meq _ _ => opcodeMap[6]
  | .mrdw _ => opcodeMap[7]
  | .mwrw _ => opcodeMap[8]
  | .mdim _ => opcodeMap[9]
  | .muls _ _ _ => opcodeMap[10]
  | .mulv _ _ _ => opcodeMap[11]
  | .mulvg _ _ _ => opcodeMap[12]
  | .mult _ _ _ => opcodeMap[13]
  | .mul4r _ _ _ => opcodeMap[14]

theorem Instr.row_mem (i : Instr) : i.row ∈ opcodeMap := by
  cases i <;> exact List.getElem_mem _

theorem wordWellFormed_encode (i : Instr) : wordWellFormed (encode i) = true := by
  cases i with
  | malloc rd => exact Laws.Encoded.malloc rd
  | mfree rd => exact Laws.Encoded.mfree rd
  | mget ra => exact Laws.Encoded.mget ra
  | mset rd => exact Laws.Encoded.mset rd
  | mrand rd => exact Laws.Encoded.mrand rd
  | mtrans rd ra => exact Laws.Encoded.mtrans rd ra
  | meq ra rb => exact Laws.Encoded.meq ra rb
  | mrdw ra => exact Laws.Encoded.mrdw ra
  | mwrw rd => exact Laws.Encoded.mwrw rd
  | mdim ra => exact Laws.Encoded.mdim ra
  | muls rd ra rb => exact Laws.Encoded.muls rd ra rb
  | mulv rd ra rb => exact Laws.Encoded.mulv rd ra rb
  | mulvg rd ra rb => exact Laws.Encoded.mulvg rd ra rb
  | mult rd ra rb => exact Laws.Encoded.mult rd ra rb
  | mul4r rd ra rb => exact Laws.Encoded.mul4r rd ra rb

theorem opcode_encode (i : Instr) : (encode i).extractLsb' 0 8 = i.row.opcode := by
  cases i <;> simp [encode, Instr.row, opcodeMap, OpcodeRow.opcode, BitVec.extractLsb'_or]

/-- The row of a command builds it from the fields of its word. -/
theorem build_encode (i : Instr) :
    i.row.build (rdField (encode i)) (raField (encode i)) (rbField (encode i)) = i := by
  cases i <;>
    simp [encode, Instr.row, opcodeMap, rdField, raField, rbField, BitVec.extractLsb'_or]

/-- Settles O1: the word of a command is well-formed and has its row's opcode, so that row matches. -/
theorem decodeOfEncode : Obligations.DecodeOfEncode := by
  intro i
  have hmatch : encode i &&& i.row.mask = i.row.pattern :=
    (matches_row_iff i.row_mem _).mpr ⟨opcode_encode i, wordWellFormed_encode i⟩
  rw [decode_of_matches i.row_mem hmatch, build_encode]

end Sys2Proof
end

section
/-! SUPPORT. The CP's move on the latched word (R125, R126). -/

namespace Sys2Proof.Machine

/-- With no move given and a command in flight outside a dispatch, the CP moves (log 8). -/
theorem State.defaultTurn_command {s : State} (hb : s.busy = true) (hd : s.device = none) :
    s.defaultTurn = .command := by
  simp [State.defaultTurn, hb, hd]

/-- Settles O15: the three ways for the CP to have the next move. -/
theorem stepRunsDecodedCommand : Obligations.StepRunsDecodedCommand := by
  refine ⟨fun s i rest hb hd hi hs => ?_, fun s i hb hd hi hs => ?_, fun s w i hi => ?_⟩
  · rw [step_of_turns hs]
    exact State.runCommand_of_decode hb hd hi
  · rw [step_of_no_turns hs, State.defaultTurn_command hb hd]
    exact State.runCommand_of_decode hb hd hi
  · rw [step_of_turns (m := .command) (rest := s.turns) rfl]
    exact State.runCommand_of_decode rfl rfl hi

/-- With a command in flight outside a dispatch, an illegal word raises IllegalCommand (R126). -/
theorem State.runCommand_of_illegal {s : State} (hb : s.busy = true) (hd : s.device = none)
    (hw : wordWellFormed s.cmd = false) : s.runCommand = .next (s.raise .illegalCommand) := by
  have hnone : decode s.cmd = none := by
    rw [← Option.not_isSome_iff_eq_none, decodesExactlyWellFormedWords, hw]
    decide
  simp [State.runCommand, State.fetch, hb, hd, hnone]

/-- Settles O16: the CP held neither temporary nor device, so the raise releases nothing. -/
theorem illegalWordFails : Obligations.IllegalWordFails := by
  intro s rest hb hd ht hw hs
  rw [step_of_turns hs]
  have hrun := State.runCommand_of_illegal (s := { s with turns := rest }) hb hd hw
  exact hrun.trans (by simp [State.raise, State.complete, errorCode, hd, ht])

end Sys2Proof.Machine
end

section
/-! SUPPORT. What a BitMatrix command leaves by each of its ends: an error, an answer in RESULT, a written
slot (R33, R36, R47, R330); and how the validity of an operand slot decides the end (R336). -/

namespace Sys2Proof.Machine

/-! ### The frame of each end -/

theorem State.raise_frame (s : State) (e : CmdError) :
    Completed (s.raise e) (errorCode e) ∧ KeepsSlots s (s.raise e) ∧
      (s.raise e).result = s.result ∧ KeepsControl s (s.raise e) :=
  ⟨s.complete_completed _, s.slot_raise e, rfl, s.complete_keepsControl _⟩

theorem State.answer_frame (s : State) (v : Word) :
    Completed (s.answer v) 0 ∧ KeepsSlots s (s.answer v) ∧ KeepsControl s (s.answer v) :=
  ⟨State.complete_completed _ 0, s.slot_answer v, by constructor <;> rfl⟩

theorem State.setSlot_succeed_frame (s : State) (rd : SlotNo) (o : Option BitMatrix) :
    Completed (s.setSlot rd o).succeed 0 ∧ KeepsOtherSlots s (s.setSlot rd o).succeed rd ∧
      (s.setSlot rd o).succeed.result = s.result ∧ KeepsControl s (s.setSlot rd o).succeed :=
  ⟨State.complete_completed _ 0, fun _ hi => s.slot_setSlot_ne o hi, rfl, by constructor <;> rfl⟩

theorem State.finishWith_frame (s : State) (rd : SlotNo) (x : BitMatrix) :
    Completed (s.finishWith rd x) 0 ∧ KeepsOtherSlots s (s.finishWith rd x) rd ∧
      (s.finishWith rd x).result = s.result ∧ KeepsControl s (s.finishWith rd x) :=
  s.setSlot_succeed_frame rd (some x)

/-! ### Operand slots -/

variable {i : Instr} {s : State} {j : SlotNo} {f : BitMatrix → State} {x : BitMatrix}

theorem exec_of_valid (hi : exec i s = .next (s.withSlot j f)) (hx : s.slot j = some x) {t : State}
    (ht : f x = t) : exec i s = .next t := by
  rw [hi, State.withSlot_some hx, ht]

/-- A command whose operand slot is not valid fails with InvalidSlot and writes STATUS alone. -/
theorem exec_of_invalid (hi : exec i s = .next (s.withSlot j f)) (hj : s.slot j = none) :
    ∃ t, exec i s = .next t ∧ Completed t 5 ∧ KeepsSlots s t ∧ t.result = s.result ∧
      KeepsControl s t := by
  rw [State.withSlot_none hj] at hi
  exact ⟨_, hi, s.raise_frame .invalidSlot⟩

end Sys2Proof.Machine
end

section
/-! SUPPORT. The commands that make, destroy or write a matrix (R153, R154, R156, R162). -/

namespace Sys2Proof.Machine

/-! ### MALLOC (R153) -/

theorem exec_malloc (rd : SlotNo) (s : State) : exec (.malloc rd) s =
    if s.a0.toNat ≤ s.config.maxDim ∧ s.a1.toNat ≤ s.config.maxDim ∧
        s.usage - s.slotWords rd + s.a0.toNat * ((s.a1.toNat + 63) / 64) ≤ s.config.hostMemWords then
      .next (s.finishWith rd (zeroMatrix s.a0.toNat s.a1.toNat))
    else .next (s.raise .resourceExhausted) := by
  rw [← apply_ite Host.Outcome.next]
  exact congrArg Host.Outcome.next (s.constructIn_eq rd s.a0.toNat s.a1.toNat id)

/-- Settles O24: MALLOC makes the zero matrix exactly when the bounds hold. -/
theorem mallocCreatesZeroMatrix : Obligations.MallocCreatesZeroMatrix := by
  refine ⟨fun _ => decode_of_matches (Instr.malloc 0).row_mem, fun rd s =>
    ⟨fun hrows hcols hfits => ?_, fun hover => ?_⟩⟩
  · have hexec := (exec_malloc rd s).trans (if_pos ⟨hrows, hcols, hfits⟩)
    exact ⟨_, _, hexec, s.slot_finishWith_self rd _, rfl, rfl, rfl, rfl, s.finishWith_frame rd _⟩
  · have hexec := (exec_malloc rd s).trans (if_neg (by omega))
    exact ⟨_, hexec, s.raise_frame .resourceExhausted⟩

/-! ### MFREE (R154) -/

/-- Settles O25: the words of the freed slot leave the usage. -/
theorem mfreeDestroysMatrix : Obligations.MfreeDestroysMatrix := by
  refine ⟨fun _ => decode_of_matches (Instr.mfree 0).row_mem, fun rd s =>
    ⟨fun x hx => ?_, exec_of_invalid rfl⟩⟩
  have hexec : exec (.mfree rd) s = .next (s.setSlot rd none).succeed :=
    exec_of_valid rfl hx rfl
  have husage : (s.setSlot rd none).usage + x.rows * x.wpr = s.usage := by
    have h := s.usage_setSlot rd none
    rwa [State.slotWords_eq, hx] at h
  exact ⟨_, hexec, s.slot_setSlot_self rd none, husage, s.setSlot_succeed_frame rd none⟩

/-! ### MSET (R156) -/

/-- Settles O27: MSET is Set at (a0, a1), whose effect on every bit is `BitMatrix.getLsbD_set`. -/
theorem msetWritesOneBit : Obligations.MsetWritesOneBit := by
  refine ⟨fun _ => decode_of_matches (Instr.mset 0).row_mem, fun rd s =>
    ⟨fun x hx hwf => ?_, exec_of_invalid rfl⟩⟩
  have hexec : exec (.mset rd) s =
      .next (s.finishWith rd (x.set s.a0.toNat s.a1.toNat (s.a2.getLsbD 0))) :=
    exec_of_valid rfl hx rfl
  refine ⟨_, _, hexec, s.slot_finishWith_self rd _, x.set_rows .., x.set_cols .., x.set_wpr ..,
    x.set_length .., x.getLsbD_set hwf _ _ _, fun r c => ?_, s.finishWith_frame rd _⟩
  rw [x.get_set hwf]
  exact if_congr (by omega) rfl rfl

/-! ### MWRW (R162) -/

/-- The matrix with word `q` replaced, if its data has a word of that index (R162). -/
def BitMatrix.writeInRange (x : BitMatrix) (q : Nat) (v : Word) : BitMatrix :=
  if q < x.words then x.memWrite q v else x

section
variable {x : BitMatrix} {q : Nat}

theorem BitMatrix.writeInRange_of_lt (h : q < x.words) (v : Word) :
    x.writeInRange q v = x.memWrite q v := if_pos h

theorem BitMatrix.writeInRange_of_le (h : x.words ≤ q) (v : Word) : x.writeInRange q v = x :=
  if_neg (by omega)

/-- It is a write of one word or nothing at all. -/
theorem BitMatrix.writeInRange_rule {P : BitMatrix → Prop} {v : Word} (hwrite : P (x.memWrite q v))
    (hstay : P x) : P (x.writeInRange q v) := by
  unfold BitMatrix.writeInRange
  split
  · exact hwrite
  · exact hstay

theorem BitMatrix.memRead_writeInRange_self (hx : x.wf = true) (h : q < x.words) (v : Word) :
    (x.writeInRange q v).memRead q = v := by
  have hlen : x.data.length = x.words := (x.wf_iff.mp hx).2
  rw [x.writeInRange_of_lt h, x.memRead_memWrite, if_pos ⟨rfl, by rwa [hlen]⟩]

theorem BitMatrix.memRead_writeInRange_ne (v : Word) {p : Nat} (h : p ≠ q) :
    (x.writeInRange q v).memRead p = x.memRead p := by
  refine writeInRange_rule (P := fun y => y.memRead p = x.memRead p) ?_ rfl
  rw [x.memRead_memWrite, if_neg fun e => h e.1]

theorem BitMatrix.writeInRange_shape (x : BitMatrix) (q : Nat) (v : Word) :
    (x.writeInRange q v).rows = x.rows ∧ (x.writeInRange q v).cols = x.cols ∧
      (x.writeInRange q v).wpr = x.wpr ∧ (x.writeInRange q v).data.length = x.data.length :=
  writeInRange_rule (P := fun y => y.rows = x.rows ∧ y.cols = x.cols ∧ y.wpr = x.wpr ∧
    y.data.length = x.data.length) ⟨rfl, rfl, rfl, x.memWrite_length q v⟩ ⟨rfl, rfl, rfl, rfl⟩

end

/-- Settles O32: MWRW writes word a0 if the data has one. -/
theorem mwrwWritesRawWord : Obligations.MwrwWritesRawWord := by
  refine ⟨fun _ => decode_of_matches (Instr.mwrw 0).row_mem, fun rd s =>
    ⟨fun x hx hwf => ?_, exec_of_invalid rfl⟩⟩
  have hexec : exec (.mwrw rd) s = .next (s.finishWith rd (x.writeInRange s.a0.toNat s.a1)) :=
    exec_of_valid rfl hx rfl
  obtain ⟨hrows, hcols, hwpr, hlen⟩ := x.writeInRange_shape s.a0.toNat s.a1
  exact ⟨_, _, hexec, s.slot_finishWith_self rd _, hrows, hcols, hwpr, hlen,
    fun h => BitMatrix.memRead_writeInRange_self hwf h _,
    fun _ hq => BitMatrix.memRead_writeInRange_ne _ hq,
    fun h => BitMatrix.writeInRange_of_le h _, s.finishWith_frame rd _⟩

end Sys2Proof.Machine
end

section
/-! SUPPORT. The queries: they answer in RESULT and leave every slot (R155, R160, R161, R163). -/

namespace Sys2Proof.Machine

/-! ### MGET (R155) -/

/-- Get answers 1 for a 1 bit at a position in range (R150). -/
theorem BitMatrix.get_eq_true_iff (x : BitMatrix) (r c : Nat) : x.get r c = true ↔
    r < x.rows ∧ c < x.cols ∧ (x.data.getD (r * x.wpr + c / 64) 0).getLsbD (c % 64) = true := by
  unfold BitMatrix.get
  by_cases h : x.rows ≤ r ∨ x.cols ≤ c
  · rw [if_pos h]
    exact iff_of_false (by decide) fun ⟨hr, hc, _⟩ => by omega
  · rw [if_neg h]
    exact ⟨fun hbit => ⟨by omega, by omega, hbit⟩, fun ⟨_, _, hbit⟩ => hbit⟩

/-- Settles O26: MGET answers Get at (a0, a1). -/
theorem mgetReadsOneBit : Obligations.MgetReadsOneBit := by
  refine ⟨fun _ => decode_of_matches (Instr.mget 0).row_mem, fun ra s =>
    ⟨fun x hx => ?_, exec_of_invalid rfl⟩⟩
  have hexec : exec (.mget ra) s = .next (s.answer (zextBit (x.get s.a0.toNat s.a1.toNat))) :=
    exec_of_valid rfl hx rfl
  exact ⟨_, hexec, if_congr (x.get_eq_true_iff _ _) rfl rfl, s.answer_frame _⟩

/-! ### MEQ (R160) -/

theorem zextBit_eq_zero_or_one (b : Bool) : zextBit b = 0 ∨ zextBit b = 1 := by
  cases b <;> simp [zextBit]

theorem zextBit_eq_one_iff (b : Bool) : zextBit b = 1 ↔ b = true := by
  cases b <;> simp [zextBit]

theorem sameBits_iff (x y : BitMatrix) : sameBits x y = true ↔ x.rows = y.rows ∧ x.cols = y.cols ∧
    ∀ r c, r < x.rows → c < x.cols → x.get r c = y.get r c := by
  simp only [sameBits, Bool.and_eq_true, beq_iff_eq, List.all_eq_true, List.mem_range, and_assoc]
  exact and_congr_right fun _ => and_congr_right fun _ =>
    ⟨fun h r c hr hc => h r hr c hc, fun h r hr c hc => h r c hr hc⟩

/-- Settles O30: MEQ answers `sameBits`, and RB is read after RA. -/
theorem meqComparesValidBits : Obligations.MeqComparesValidBits := by
  refine ⟨fun _ => decode_of_matches (Instr.meq 0 0).row_mem, fun ra rb s x y hx hy => ?_,
    fun ra rb s hnone => ?_⟩
  · have hexec : exec (.meq ra rb) s = .next (s.answer (zextBit (sameBits x y))) :=
      exec_of_valid (exec_of_valid rfl hx rfl) hy rfl
    exact ⟨_, hexec, zextBit_eq_zero_or_one _, (zextBit_eq_one_iff _).trans (sameBits_iff x y),
      s.answer_frame _⟩
  · cases ha : s.slot ra with
    | none => exact exec_of_invalid rfl ha
    | some x => exact exec_of_invalid (exec_of_valid rfl ha rfl) (hnone.resolve_left (by simp [ha]))

/-! ### MRDW (R161) -/

/-- Settles O31: MRDW answers word a0 if the data has one. -/
theorem mrdwReadsRawWord : Obligations.MrdwReadsRawWord := by
  refine ⟨fun _ => decode_of_matches (Instr.mrdw 0).row_mem, fun ra s =>
    ⟨fun x hx hwf => ?_, exec_of_invalid rfl⟩⟩
  have hexec : exec (.mrdw ra) s =
      .next (s.answer (if s.a0.toNat < x.words then x.memRead s.a0.toNat else 0)) :=
    exec_of_valid rfl hx rfl
  refine ⟨_, hexec, fun v hv => ?_, fun hout => if_neg (Nat.not_lt.mpr hout), s.answer_frame _⟩
  obtain ⟨hin, -⟩ := List.getElem?_eq_some_iff.mp hv
  have hlen : x.data.length = x.words := (x.wf_iff.mp hwf).2
  have hread : x.memRead s.a0.toNat = v := by
    rw [BitMatrix.memRead, List.getD_eq_getElem?_getD, hv, Option.getD_some]
  exact (if_pos (hlen ▸ hin)).trans hread

/-! ### MDIM (R163) -/

theorem maxDim_lt_of_legal {c : Config} (h : c.legal = true) : c.maxDim < 2 ^ 32 := by
  simp only [Config.legal, Config.maxDimInRange, Bool.and_eq_true, decide_eq_true_eq] at h
  omega

/-- Settles O33: both counts fit in their half of RESULT. -/
theorem mdimReadsShape : Obligations.MdimReadsShape := by
  refine ⟨fun _ => decode_of_matches (Instr.mdim 0).row_mem, fun ra s =>
    ⟨fun x hx hlegal hdims => ?_, exec_of_invalid rfl⟩⟩
  have hexec : exec (.mdim ra) s =
      .next (s.answer (BitVec.ofNat 32 x.cols ++ BitVec.ofNat 32 x.rows)) :=
    exec_of_valid rfl hx rfl
  have hmax := maxDim_lt_of_legal hlegal
  obtain ⟨hrows, hcols⟩ := hdims ra x hx
  refine ⟨_, hexec, ?_, ?_, s.answer_frame _⟩
  · rw [State.answer_result, BitVec.extractLsb'_append_eq_left, BitVec.toNat_ofNat]
    exact Nat.mod_eq_of_lt (hcols.trans_lt hmax)
  · rw [State.answer_result, BitVec.extractLsb'_append_eq_right, BitVec.toNat_ofNat]
    exact Nat.mod_eq_of_lt (hrows.trans_lt hmax)

end Sys2Proof.Machine
end

section
/-! SUPPORT. The front end of the multiply commands (R201, R206, R207): a command is its checks and then its
product; what each check asks for, and that the first that fails ends the command. -/

namespace Sys2Proof.Machine

/-! ### A multiply command is its front end and then its product -/

/-- What the multiply command of variant `v` goes on with once every check has passed. -/
def State.product (s : State) (v : Variant) (rd : SlotNo) (a b : BitMatrix) : State :=
  match v with
  | .muls => s.commitProduct rd a.rows b.cols
      (scalarProduct a b (s.destination rd a.rows b.cols)).data
  | .mulv => s.commitProduct rd a.rows b.cols
      (simdProduct s.config.simdL.count a b (s.destination rd a.rows b.cols)).data
  | .mulvg => (s.enterDevice .vec rd a b).runDispatch
  | .mult => (s.enterDevice .tiled rd a b).runDispatch
  | .mul4r => (s.enterDevice .m4rBuild rd a b).runDispatch.runDispatch

theorem exec_mulCommand (v : Variant) (rd ra rb : SlotNo) (s : State) :
    exec (mulCommand v rd ra rb) s = .next (s.multiply v rd ra rb (s.product v rd)) := by
  cases v with
  | muls | mulv => rfl
  | mulvg => exact congrArg Host.Outcome.next (s.runDispatch_multiply .mulvg rd ra rb _)
  | mult => exact congrArg Host.Outcome.next (s.runDispatch_multiply .mult rd ra rb _)
  | mul4r =>
    refine congrArg Host.Outcome.next ?_
    rw [State.launchMultiply, State.runDispatch_multiply, State.runDispatch_multiply]
    rfl

variable {s : State} {v : Variant} {rd ra rb : SlotNo} {a b : BitMatrix}

theorem exec_mulCommand_of_checks {e : CmdError} (ha : s.slot ra = some a) (hb : s.slot rb = some b)
    (hc : s.mulChecks v rd ra rb a b = some e) :
    exec (mulCommand v rd ra rb) s = .next (s.raise e) := by
  rw [exec_mulCommand, State.multiply, State.withSlot_some ha, State.withSlot_some hb, hc]

theorem exec_mulCommand_of_invalid_ra (ha : s.slot ra = none) :
    exec (mulCommand v rd ra rb) s = .next (s.raise .invalidSlot) := by
  rw [exec_mulCommand, State.multiply, State.withSlot_none ha]

theorem exec_mulCommand_of_invalid_rb (ha : s.slot ra = some a) (hb : s.slot rb = none) :
    exec (mulCommand v rd ra rb) s = .next (s.raise .invalidSlot) := by
  rw [exec_mulCommand, State.multiply, State.withSlot_some ha, State.withSlot_none hb]

/-! ### What the checks ask for -/

theorem wordsPerRow_eq (cols : Nat) : wordsPerRow cols = (cols + 63) / 64 := rfl

theorem State.destFits_iff (s : State) (rd : SlotNo) (m n : Nat) :
    s.destFits rd m n = true ↔ ∀ c, s.slot rd = some c → c.rows = m ∧ c.cols = n := by
  unfold State.destFits
  cases s.slot rd <;> simp

theorem State.freshWords_eq (s : State) (rd : SlotNo) (m n : Nat) :
    s.freshWords rd m n = if (s.slot rd).isSome then 0 else m * wordsPerRow n := by
  unfold State.freshWords
  cases s.slot rd <;> rfl

/-- The words in use, slot by slot (R45). -/
theorem State.usage_eq_sum (s : State) :
    s.usage = ((List.finRange 16).map fun i => optionWords (s.slot i)).sum := by
  have hslots : s.slots.toList = (List.finRange 16).map s.slot :=
    List.ext_getElem (by simp) fun i _ _ => by simp [State.slot]
  rw [State.usage_eq, hslots, List.map_map]
  rfl

/-- MulReady is exactly what the checks ask for. -/
theorem MulReady.checks (h : MulReady s v rd ra rb a b) : s.mulChecks v rd ra rb a b = none :=
  (s.mulChecks_eq_none ..).mpr ⟨h.shapes, h.dest_not_a, h.dest_not_b,
    (s.destFits_iff ..).mpr h.dest_shape, h.backend, decide_eq_true h.host_fits,
    decide_eq_true h.device_fits⟩

theorem MulReady.multiply (h : MulReady s v rd ra rb a b) (f : BitMatrix → BitMatrix → State) :
    s.multiply v rd ra rb f = f a b :=
  State.multiply_ok h.operand_a h.operand_b h.checks f

theorem MulReady.exec (h : MulReady s v rd ra rb a b) :
    Machine.exec (mulCommand v rd ra rb) s = .next (s.product v rd a b) := by
  rw [exec_mulCommand, h.multiply]

/-! ### The first check that fails -/

theorem State.mulChecks_shape (h : a.cols ≠ b.rows) :
    s.mulChecks v rd ra rb a b = some .shapeMismatch := if_pos h

theorem State.mulChecks_aliased (h : a.cols = b.rows) (hrd : rd = ra ∨ rd = rb) :
    s.mulChecks v rd ra rb a b = some .aliasedOperands := by
  rw [State.mulChecks, if_neg (not_not.mpr h), if_pos hrd]

/-- Past the checks of the operands, those of the destination, the backend and the capacities are left. -/
theorem State.mulChecks_of_operands (h : a.cols = b.rows) (hra : rd ≠ ra) (hrb : rd ≠ rb) :
    s.mulChecks v rd ra rb a b =
      if s.destFits rd a.rows b.cols = false then some .shapeMismatch
      else if backendReady s.config v = false then some .backendUnavailable
      else if s.hostFits v rd a b = false ∨ s.devFits v a b = false then some .resourceExhausted
      else none := by
  rw [State.mulChecks, if_neg (not_not.mpr h), if_neg (not_or.mpr ⟨hra, hrb⟩)]
  cases s.hostFits v rd a b <;> simp

theorem State.mulChecks_capacity (h : a.cols = b.rows) (hra : rd ≠ ra) (hrb : rd ≠ rb)
    (hdest : s.destFits rd a.rows b.cols = true) (hback : backendReady s.config v = true)
    (hfull : s.config.hostMemWords < s.usage + s.freshWords rd a.rows b.cols + tempWords v a b ∨
      s.config.devMemWords < deviceWords v a b) :
    s.mulChecks v rd ra rb a b = some .resourceExhausted := by
  rw [State.mulChecks_of_operands h hra hrb, if_neg (by simp [hdest]), if_neg (by simp [hback]),
    if_pos]
  exact hfull.imp (fun hhost => decide_eq_false (Nat.not_le.mpr hhost))
    fun hdev => decide_eq_false (Nat.not_le.mpr hdev)

/-- Settles O34: each check in its turn, once those before it have passed. -/
theorem mulFrontEndOrder : Obligations.MulFrontEndOrder := by
  refine ⟨fun c => ⟨rfl, rfl, rfl, rfl, rfl⟩,
    fun a b => ⟨⟨rfl, rfl, rfl, rfl, rfl⟩, rfl, rfl, rfl, rfl, rfl⟩,
    fun s rd m n => ⟨s.freshWords_eq rd m n, s.usage_eq_sum⟩, fun v rd ra rb s => ?_⟩
  refine ⟨exec_mulCommand_of_invalid_ra, fun a ha => ⟨exec_mulCommand_of_invalid_rb ha,
    fun b hb => ⟨fun hne => ?_, fun hab => ⟨fun hsame => ?_, fun hra hrb => ⟨fun c hc hne => ?_,
      fun hdest => ⟨fun hback => ?_, fun hback hfull => ?_⟩⟩⟩⟩⟩⟩
  · exact exec_mulCommand_of_checks ha hb (State.mulChecks_shape hne)
  · exact exec_mulCommand_of_checks ha hb (State.mulChecks_aliased hab hsame)
  · have hdest : s.destFits rd a.rows b.cols = false := by
      rw [← Bool.not_eq_true, State.destFits_iff]
      exact fun h => not_and_or.mpr hne (h c hc)
    exact exec_mulCommand_of_checks ha hb
      ((State.mulChecks_of_operands hab hra hrb).trans (if_pos hdest))
  · have hdest := (s.destFits_iff rd a.rows b.cols).mpr hdest
    exact exec_mulCommand_of_checks ha hb ((State.mulChecks_of_operands hab hra hrb).trans
      (by rw [if_neg (by simp [hdest]), if_pos hback]))
  · have hdest := (s.destFits_iff rd a.rows b.cols).mpr hdest
    exact exec_mulCommand_of_checks ha hb
      (State.mulChecks_capacity hab hra hrb hdest hback hfull)

end Sys2Proof.Machine
end

section
/-! SUPPORT. The start of the device phase (R208): what the upload leaves in each buffer, the grid of the
first dispatch (R213), and the CP's launch of a GPU multiply. -/

namespace Sys2Proof.Machine

/-! ### The upload -/

/-- The words of a matrix, read one by one, are its data. -/
theorem BitMatrix.map_memRead_range (x : BitMatrix) :
    (List.range x.data.length).map x.memRead = x.data :=
  List.ext_getElem (by simp) fun q _ hq => by simp [BitMatrix.memRead, hq]

/-- The upload of a matrix fills a buffer of its size with its data (R208). -/
theorem Device.buf_load_memRead {d : Device} {y : Buf} {x : BitMatrix}
    (h : (d.buf y).length = x.data.length) : (d.load y x.memRead).buf y = x.data := by
  rw [Device.load, Device.buf_setBuf_self, h, x.map_memRead_range]

theorem Device.buf_load_ne (d : Device) {x y : Buf} (f : Nat → Word) (h : y ≠ x) :
    (d.load x f).buf y = d.buf y := d.buf_setBuf_ne _ h

theorem Device.buf_load_zero (d : Device) (x : Buf) :
    (d.load x fun _ => 0).buf x = List.replicate (d.buf x).length 0 := by
  simp [Device.load]

@[simp] theorem length_staleWords (n buf len : Nat) : (staleWords n buf len).length = len := by
  simp [staleWords]

variable {k : Kernel} {rd : SlotNo} {a b : BitMatrix} {n : Nat}

theorem BitMatrix.length_data {x : BitMatrix} (hx : x.wf = true) :
    x.data.length = x.rows * wordsPerRow x.cols := by
  obtain ⟨hwpr, hlen⟩ := x.wf_iff.mp hx
  rw [hlen, hwpr]

/-- bufA holds A's data, whatever the kernel. -/
theorem launchedDevice_bufA (ha : a.wf = true) : (launchedDevice k rd a b n).bufA = a.data := by
  have hload : ((acquireDevice k rd (descriptorOf a b) n).load .a a.memRead).buf .a = a.data :=
    Device.buf_load_memRead ((length_staleWords ..).trans (a.length_data ha).symm)
  cases k with
  | vec => exact (Device.buf_load_ne _ _ (by decide)).trans hload
  | tiled =>
    exact (Device.buf_load_ne _ _ (by decide)).trans
      ((Device.buf_load_ne _ _ (by decide)).trans hload)
  | m4rBuild | m4rMul => exact (Device.buf_load_ne _ _ (by decide)).trans hload

/-- bufBT holds the data of Transpose(B) for MULVG (R240). -/
theorem launchedDevice_bufBT (hab : a.cols = b.rows) :
    (launchedDevice .vec rd a b n).bufBT = (transpose b).data := by
  obtain ⟨hrows, hcols, hwf, -, -⟩ := transpose_spec b
  have hlen : (transpose b).data.length = b.cols * wordsPerRow a.cols := by
    rw [BitMatrix.length_data hwf, hrows, hcols, hab]
  exact Device.buf_load_memRead (y := .bt) ((length_staleWords ..).trans hlen.symm)

/-- bufB holds B's data for every other kernel. -/
theorem launchedDevice_bufB (hk : k ≠ .vec) (hb : b.wf = true) (hab : a.cols = b.rows) :
    (launchedDevice k rd a b n).bufB = b.data := by
  have hlen : a.cols * wordsPerRow b.cols = b.data.length := by rw [BitMatrix.length_data hb, hab]
  have hload : (((acquireDevice k rd (descriptorOf a b) n).load .a a.memRead).load .b
      b.memRead).buf .b = b.data := by
    refine Device.buf_load_memRead ?_
    rw [Device.length_load, ← hlen]
    cases k with
    | vec => exact absurd rfl hk
    | tiled | m4rBuild | m4rMul => exact length_staleWords ..
  cases k with
  | vec => exact absurd rfl hk
  | tiled => exact (Device.buf_load_ne _ _ (by decide)).trans hload
  | m4rBuild | m4rMul => exact hload

/-- MULT starts from an all-zero bufC (R269). -/
theorem launchedDevice_bufC_tiled :
    (launchedDevice .tiled rd a b n).bufC = List.replicate (a.rows * wordsPerRow b.cols) 0 := by
  refine (Device.buf_load_zero _ .c).trans (congrArg (List.replicate · 0) ?_)
  rw [Device.length_load, Device.length_load]
  exact length_staleWords ..

theorem launchedDevice_bufT_build : (launchedDevice .m4rBuild rd a b n).bufT.length =
    8 * wordsPerRow a.cols * 256 * wordsPerRow b.cols :=
  (launchedDevice_length .m4rBuild rd a b n .t).trans (length_staleWords ..)

@[simp] theorem launchedDevice_dispatchNo : (launchedDevice k rd a b n).dispatchNo = n := rfl

/-! ### The first dispatch -/

theorem launchedDevice_started {side width height : Nat} (hs : side = groupSide k)
    (hx : gridX k (descriptorOf a b) = ceilDiv width side)
    (hy : gridY k (descriptorOf a b) = ceilDiv height side) :
    DispatchStarted (launchedDevice k rd a b n) side width height (startPos k) := by
  rw [← launchedDevice_desc k rd a b n] at hx hy
  exact Device.begin_started _ k n hs hx hy

/-- Every work-group of MULT has two tiles of TILE_W by TILE_W cells (R51). -/
theorem launchedDevice_tiles {g : Group} (hg : g ∈ (launchedDevice .tiled rd a b n).groups) :
    g.ta.length = 32 * 32 ∧ g.tb.length = 32 * 32 := by
  simp only [launchedDevice, Device.begin, startGroups, List.mem_flatMap, List.mem_map] at hg
  obtain ⟨gy, -, gx, -, rfl⟩ := hg
  simp [startGroup, staleTile, Config.tileW]

/-! ### The launch -/

theorem GpuKernel.exists_of_gpu {v : Variant} (h : v = .mulvg ∨ v = .mult ∨ v = .mul4r) :
    ∃ k, GpuKernel v k := by
  obtain rfl | rfl | rfl := h
  · exact ⟨_, .mulvg⟩
  · exact ⟨_, .mult⟩
  · exact ⟨_, .mul4r⟩

/-- With a GPU multiply in flight and no dispatch in progress, the CP's launch is its front end (R208). -/
theorem State.launchCommand_of_decode {s : State} {v : Variant} {ra rb : SlotNo}
    (hk : GpuKernel v k) (hb : s.busy = true) (hd : s.device = none)
    (hi : decode s.cmd = some (mulCommand v rd ra rb)) :
    s.launchCommand = .next (s.launchMultiply v k rd ra rb) := by
  cases hk <;> simp [State.launchCommand, State.fetch, hb, hd, hi, mulCommand]

/-- The checks do not look at the moves to come. -/
theorem MulReady.withTurns {s : State} {v : Variant} {ra rb : SlotNo}
    (h : MulReady s v rd ra rb a b) (rest : List Turn) :
    MulReady { s with turns := rest } v rd ra rb a b := by
  obtain ⟨h1, h2, h3, h4, h5, h6, h7, h8, h9⟩ := h
  exact ⟨h1, h2, h3, h4, h5, h6, h7, h8, h9⟩

theorem step_launch {s : State} {v : Variant} {ra rb : SlotNo} {rest : List Turn}
    (hk : GpuKernel v k) (hb : s.busy = true) (hd : s.device = none)
    (hi : decode s.cmd = some (mulCommand v rd ra rb)) (hs : s.turns = .launch :: rest)
    (h : MulReady s v rd ra rb a b) :
    step s = .next (({ s with turns := rest } : State).enterDevice k rd a b) := by
  rw [step_of_turns hs, ← (h.withTurns rest).multiply fun a b =>
    ({ s with turns := rest } : State).enterDevice k rd a b]
  exact State.launchCommand_of_decode hk hb hd hi

/-- Settles O47: the launch enters the device phase with `launchedDevice`, kernel by kernel. -/
theorem launchUploadsOperands : Obligations.LaunchUploadsOperands := by
  intro v rd ra rb s a b rest hv hm hb hd hi hs h
  obtain ⟨k, hk⟩ := GpuKernel.exists_of_gpu hv
  have ha : a.wf = true := State.wf_of_slot hm h.operand_a
  have hbwf : b.wf = true := State.wf_of_slot hm h.operand_b
  refine ⟨_, launchedDevice k rd a b s.dispatches, step_launch hk hb hd hi hs h, rfl, hb,
    fun _ => rfl, rfl, rfl, rfl, by constructor <;> rfl, rfl, rfl, rfl, launchedDevice_dest ..,
    launchedDevice_desc .., launchedDevice_bufA ha, ?vec, ?tiled, ?build, ?bt, ?b, ?c,
    launchedDevice_bufC .., ?t, launchedDevice_size hk ..⟩
  case vec =>
    rintro rfl
    cases hk
    exact ⟨rfl, launchedDevice_started rfl rfl rfl⟩
  case tiled =>
    rintro rfl
    cases hk
    exact ⟨rfl, launchedDevice_started rfl rfl rfl, fun g => launchedDevice_tiles⟩
  case build =>
    rintro rfl
    cases hk
    exact ⟨rfl, launchedDevice_started rfl rfl rfl⟩
  case bt =>
    rintro rfl
    cases hk
    exact ⟨launchedDevice_bufBT h.shapes, rfl⟩
  case b =>
    intro hne
    cases hk with
    | mulvg => exact absurd rfl hne
    | mult | mul4r => exact ⟨launchedDevice_bufB (by decide) hbwf h.shapes, rfl⟩
  case c =>
    rintro rfl
    cases hk
    exact launchedDevice_bufC_tiled
  case t =>
    rintro rfl
    cases hk
    exact launchedDevice_bufT_build

end Sys2Proof.Machine
end

section
/-! SUPPORT. XORs over an index range cut into runs, and past a bound (R19). -/

namespace Sys2Proof.Machine

theorem word_index_div {w W : Nat} (i : Nat) (hw : w < W) : (i * W + w) / W = i := by
  rw [Nat.mul_comm, Nat.mul_add_div (by omega), Nat.div_eq_of_lt hw, Nat.add_zero]

theorem word_index_mod {w W : Nat} (i : Nat) (hw : w < W) : (i * W + w) % W = w := by
  rw [Nat.mul_comm, Nat.mul_add_mod, Nat.mod_eq_of_lt hw]

/-- Two nested XORs are one over the quotients and remainders. -/
theorem xorBits_xorBits (m n : Nat) (f : Nat → Nat → Bool) :
    (xorBits m fun i => xorBits n fun j => f i j) = xorBits (m * n) fun p => f (p / n) (p % n) := by
  rw [xorBits_mul]
  refine xorBits_congr fun i _ => xorBits_congr fun j hj => ?_
  rw [word_index_div i hj, word_index_mod i hj]

/-- Terms guarded by a bound are the terms below it. -/
theorem xorBits_guard {n k : Nat} (h : n ≤ k) (f : Nat → Bool) :
    (xorBits k fun t => decide (t < n) && f t) = xorBits n f := by
  rw [xorBits_extend h _ fun t ht => by simp [ht]]
  exact xorBits_congr fun t ht => by simp [ht]

theorem xorWords_mul (m n : Nat) (f : Nat → Word) :
    xorWords (m * n) f = xorWords m fun i => xorWords n fun j => f (i * n + j) :=
  BitVec.eq_of_getLsbD_eq fun b _ => by simp only [getLsbD_xorWords, xorBits_mul]

theorem xorWords_guard {n k : Nat} (h : n ≤ k) (f : Nat → Word) :
    (xorWords k fun t => if t < n then f t else 0) = xorWords n f := by
  refine BitVec.eq_of_getLsbD_eq fun b _ => ?_
  rw [getLsbD_xorWords, getLsbD_xorWords, ← xorBits_guard h]
  exact xorBits_congr fun t _ => by split <;> simp [*]

theorem xorWords_add (m n : Nat) (f : Nat → Word) :
    xorWords (m + n) f = xorWords m f ^^^ xorWords n fun t => f (m + t) := by
  induction n with
  | zero => simp
  | succ n ih => rw [← Nat.add_assoc, xorWords_succ, ih, xorWords_succ, BitVec.xor_assoc]

/-- A fold of XORs from `x` is `x` XORed with the XOR of the range. -/
theorem foldl_xor_range (n : Nat) (f : Nat → Word) (x : Word) :
    (List.range n).foldl (fun y t => y ^^^ f t) x = x ^^^ xorWords n f := by
  induction n with
  | zero => simp
  | succ n ih => simp [List.range_succ, ih, xorWords_succ, BitVec.xor_assoc]

/-- The parity of an XOR of words, each of whose bits is 0 past `k` in all (R20). -/
theorem parity_xorWords_guard {k W : Nat} (hk : k ≤ W * 64) {f : Nat → Word} {g : Nat → Bool}
    (h : ∀ p, p < W * 64 → (f (p / 64)).getLsbD (p % 64) = (decide (p < k) && g p)) :
    parity (xorWords W f) = xorBits k g := by
  rw [parity_xorWords]
  simp only [parity_eq]
  rw [xorBits_xorBits, ← xorBits_guard hk]
  exact xorBits_congr h

end Sys2Proof.Machine
end

section
/-! SUPPORT. The post-state of a successful multiply from the words it commits (R203), and the product that a
double loop of Sets leaves in the destination (R230, R242). -/

namespace Sys2Proof.Machine

theorem le_wordsPerRow_mul (cols : Nat) : cols ≤ wordsPerRow cols * 64 := by
  rw [wordsPerRow_eq]; omega

/-- A valid bit is a bit of a word of its row (R150). -/
theorem BitMatrix.get_of_lt (x : BitMatrix) {r c : Nat} (hr : r < x.rows) (hc : c < x.cols) :
    x.get r c = (x.memRead (r * x.wpr + c / 64)).getLsbD (c % 64) :=
  if_neg (by omega)

/-- A padding bit of a row after the padding is drawn: a bit of that row's draw (R203.3). -/
theorem getLsbD_drawPadding_padding (base : Nat) {x : BitMatrix} (hx : x.wf = true) {i p : Nat}
    (hi : i < x.rows) (hn : x.cols % 64 ≠ 0) (hp : x.cols % 64 ≤ p) :
    ((drawPadding base x.cols x.data).getD (i * x.wpr + (x.wpr - 1)) 0).getLsbD p =
      (Config.draw64 (base + i)).getLsbD p := by
  obtain ⟨hwpr, hlen⟩ := x.wf_iff.mp hx
  have hpos : x.wpr - 1 < x.wpr := by
    have := wordsPerRow_eq x.cols
    omega
  rw [getD_drawPadding _ _ _ _ (hlen ▸ word_lt hi hpos), ← hwpr, word_index_mod i hpos,
    word_index_div i hpos, if_pos ⟨hn, rfl⟩, getLsbD_mergeHigh _ _ _ _ (by omega),
    if_neg (by omega)]

variable {s : State} {rd ra rb : SlotNo} {a b : BitMatrix}

/-- Committing the words of a matrix with the shape and the bits of Prod(A, B) is R203's post-state. -/
theorem ProductState.of_matrix {y : BitMatrix} (hwf : y.wf = true) (hrows : y.rows = a.rows)
    (hcols : y.cols = b.cols)
    (hbits : ∀ i j, i < a.rows → j < b.cols → y.get i j = prodBit a b i j) :
    ProductState s (s.commitProduct rd a.rows b.cols y.data) rd a b := by
  have hend : CommandEnd (.muls rd rd rd) s (s.commitProduct rd a.rows b.cols y.data) :=
    .commitProduct rfl _ _ _
  obtain ⟨hwpr, hlen⟩ := y.wf_iff.mp hwf
  have hslot : (s.commitProduct rd a.rows b.cols y.data).slot rd =
      some { y with data := drawPadding s.draws y.cols y.data } := by
    rw [State.commitProduct_slot_self, ← hrows, ← hcols, ← hwpr]
  refine ⟨⟨_, hslot, hrows, hcols, hcols ▸ hwpr, by simpa using hlen, fun i j hi hj => ?_,
    fun i p hi hn hp _ => ?_⟩, hend.completed, fun i hi => State.commitProduct_slot_ne _ _ _ _ hi,
    rfl, hend.control, ?_⟩
  · rw [get_drawPadding s.draws y hwf]
    exact hbits i j hi hj
  · exact getLsbD_drawPadding_padding s.draws hwf (hrows ▸ hi) (hcols ▸ hn) (hcols ▸ hp)
  · show (if _ then s.draws else s.draws + _) = _
    split <;> rfl

/-- The device phase before the commit is no part of R203's post-state. -/
theorem ProductState.of_phase {t : State} {temp : Option BitMatrix} {device : Option Device}
    {dispatches : Nat} (h : ProductState { s with temp, device, dispatches } t rd a b) :
    ProductState s t rd a b := by
  obtain ⟨hr, hc, ho, hres, ⟨h1, h2, h3, h4, h5, h6, h7, h8, h9, h10, h11, h12⟩, hd⟩ := h
  exact ⟨hr, hc, ho, hres, ⟨h1, h2, h3, h4, h5, h6, h7, h8, h9, h10, h11, h12⟩, hd⟩

/-! ### The loops of MULS and MULV -/

/-- In a store of the right form, the matrix the loops start from has the shape of the result. -/
theorem MulReady.destination_of_wf {v : Variant} (h : MulReady s v rd ra rb a b)
    (hm : Memory.wf s.slots = true) :
    (s.destination rd a.rows b.cols).rows = a.rows ∧
      (s.destination rd a.rows b.cols).cols = b.cols ∧
      (s.destination rd a.rows b.cols).wf = true := by
  unfold State.destination
  cases hc : s.slot rd with
  | none => exact ⟨rfl, rfl, zeroMatrix_wf _ _⟩
  | some c =>
    obtain ⟨hrows, hcols⟩ := h.dest_shape c hc
    exact ⟨hrows, hcols, State.wf_of_slot hm hc⟩

theorem MulReady.productState_of_fillBits {v : Variant} (h : MulReady s v rd ra rb a b)
    (hm : Memory.wf s.slots = true) {f : Nat → Nat → Bool}
    (hf : ∀ i j, i < a.rows → j < b.cols → f i j = prodBit a b i j) :
    ProductState s (s.commitProduct rd a.rows b.cols
      (fillBits a.rows b.cols f (s.destination rd a.rows b.cols)).data) rd a b := by
  obtain ⟨hrows, hcols, hwf⟩ := h.destination_of_wf hm
  obtain ⟨hrows', hcols', -, hwf', hget⟩ := fillBits_spec a.rows b.cols f _ hwf
  refine .of_matrix hwf' (hrows'.trans hrows) (hcols'.trans hcols)
    fun i j hi hj => ?_
  rw [hget, hrows, hcols, if_pos ⟨hi, hj, hi, hj⟩, hf i j hi hj]

/-- MULS leaves the product (R230). -/
theorem MulReady.muls_product (h : MulReady s .muls rd ra rb a b) (hm : Memory.wf s.slots = true) :
    ProductState s (s.product .muls rd a b) rd a b :=
  h.productState_of_fillBits hm fun _ _ _ _ => rfl

end Sys2Proof.Machine
end

section
/-! SUPPORT. The vector form of the product: rows of A against rows of Transpose(B), whatever the padding of
A and B (R241), and the lanes of MULV (R243). -/

namespace Sys2Proof.Machine

/-! ### Dot products over packed words (R241) -/

/-- A raw bit of a row of Transpose(B): a bit of a column of B, or cleared padding (R158). -/
theorem getLsbD_transpose_row (b : BitMatrix) {j p : Nat} (hj : j < b.cols)
    (hp : p < wordsPerRow b.rows * 64) :
    ((transpose b).memRead (j * wordsPerRow b.rows + p / 64)).getLsbD (p % 64) =
      (decide (p < b.rows) && b.get p j) := by
  obtain ⟨hrows, hcols, hwf, hget, hpad⟩ := transpose_spec b
  by_cases hlt : p < b.rows
  · have hbit := (transpose b).get_of_lt (hrows.symm ▸ hj) (hcols.symm ▸ hlt)
    rw [hget, ((transpose b).wf_iff.mp hwf).1, hcols] at hbit
    simp [hlt, hbit]
  · rw [decide_eq_false hlt, Bool.false_and, ← Bool.not_eq_true]
    intro hbit
    obtain ⟨c, r, -, hr, hq, hrem⟩ := hpad _ _ (Nat.mod_lt _ (by decide)) hbit
    obtain ⟨-, hdiv⟩ := word_index_inj (by omega) (col_div_lt hr) hq
    omega

variable {a b : BitMatrix} {i j : Nat}

/-- DotParity(i, j) is Prod(A, B)(i, j): past A's columns Transpose(B) has only zeros. -/
theorem parity_dot_transpose (ha : a.wf = true) (hab : a.cols = b.rows) (hi : i < a.rows)
    (hj : j < b.cols) :
    parity (xorWords (wordsPerRow a.cols) fun t =>
      a.memRead (i * wordsPerRow a.cols + t) &&&
        (transpose b).memRead (j * wordsPerRow a.cols + t)) = prodBit a b i j := by
  refine parity_xorWords_guard (le_wordsPerRow_mul _) fun p hp => ?_
  rw [BitVec.getLsbD_and, hab, getLsbD_transpose_row b hj (hab ▸ hp)]
  by_cases hlt : p < b.rows
  · rw [a.get_of_lt hi (hab ▸ hlt), (a.wf_iff.mp ha).1, hab]
    simp [hlt]
  · simp [hlt]

/-! ### The lanes (R242, R243) -/

/-- The XOR of all lanes. -/
def lanesXor (lanes : List Word) : Word := lanes.foldl (fun y z => y ^^^ z) 0

theorem lanesXor_append_singleton (lanes : List Word) (x : Word) :
    lanesXor (lanes ++ [x]) = lanesXor lanes ^^^ x := by
  simp [lanesXor]

theorem lanesXor_replicate_zero (n : Nat) : lanesXor (List.replicate n 0) = 0 := by
  induction n with
  | zero => rfl
  | succ n ih => rw [List.replicate_succ', lanesXor_append_singleton, ih]; rfl

@[simp] theorem length_wideStep (f : Nat → Word) (t : Nat) (lanes : List Word) :
    (wideStep f t lanes).length = lanes.length := by
  simp [wideStep]

/-- A wide step adds one word to each lane, and so all of them to the XOR of the lanes. -/
theorem lanesXor_wideStep (f : Nat → Word) (t : Nat) (lanes : List Word) :
    lanesXor (wideStep f t lanes) =
      lanesXor lanes ^^^ xorWords lanes.length fun l => f (t + l) := by
  induction lanes using List.reverseRecOn with
  | nil => simp [wideStep, lanesXor]
  | append_singleton lanes x ih =>
    have hstep : wideStep f t (lanes ++ [x]) =
        wideStep f t lanes ++ [x ^^^ f (t + lanes.length)] := by simp [wideStep]
    rw [hstep, lanesXor_append_singleton, lanesXor_append_singleton, ih, List.length_append,
      List.length_singleton, xorWords_succ]
    ac_rfl

/-- After `n` wide steps the `L` lanes hold the XOR of the first `n * L` words. -/
theorem lanesXor_wideSteps (L n : Nat) (f : Nat → Word) :
    let lanes := (List.range n).foldl (fun ls u => wideStep f (u * L) ls) (List.replicate L 0)
    lanes.length = L ∧ lanesXor lanes = xorWords (n * L) f := by
  induction n with
  | zero => simpa using lanesXor_replicate_zero L
  | succ n ih =>
    obtain ⟨hlen, hxor⟩ := ih
    simp only [List.range_succ, List.foldl_append, List.foldl_cons, List.foldl_nil]
    refine ⟨(length_wideStep ..).trans hlen, ?_⟩
    rw [lanesXor_wideStep, hlen, hxor, Nat.succ_mul, xorWords_add]

/-- The wide steps and the scalar remainder leave the XOR of all words, for any number of lanes. -/
theorem simdXor_eq (L W : Nat) (f : Nat → Word) : simdXor L W f = xorWords W f := by
  show (List.range (W % L)).foldl (fun y r => y ^^^ f (W / L * L + r)) (lanesXor _) = _
  rw [foldl_xor_range, (lanesXor_wideSteps L (W / L) f).2, ← xorWords_add, Nat.div_add_mod']

/-- MULV leaves the product (R242). -/
theorem MulReady.mulv_product {s : State} {rd ra rb : SlotNo} (h : MulReady s .mulv rd ra rb a b)
    (hm : Memory.wf s.slots = true) : ProductState s (s.product .mulv rd a b) rd a b := by
  refine h.productState_of_fillBits hm fun i j hi hj => ?_
  rw [simdXor_eq]
  exact parity_dot_transpose (State.wf_of_slot hm h.operand_a) h.shapes hi hj

end Sys2Proof.Machine
end

section
/-! SUPPORT. A GPU multiply run to its end: the words its dispatches leave in bufC are downloaded as the product
(R203, R208). -/

namespace Sys2Proof.Machine

/-! ### A buffer filled word by word -/

/-- A word of a buffer filled by rows of `W` words. -/
theorem Device.word_load_row {d : Device} {x : Buf} {W i w : Nat} (f : Nat → Nat → Word)
    (hw : w < W) (hq : i * W + w < (d.buf x).length) :
    (d.load x fun q => f (q / W) (q % W)).word x (i * W + w) = f i w := by
  rw [Device.word_load d x _ _ hq, word_index_div i hw, word_index_mod i hw]

variable {d : Device} {s : State} {v : Variant} {k : Kernel} {rd ra rb : SlotNo} {a b : BitMatrix}
  {i j n : Nat}

/-! ### From bufC to the destination -/

/-- The device holds the product of A and B in bufC, for the destination RD. -/
structure Device.HoldsProduct (d : Device) (rd : SlotNo) (a b : BitMatrix) : Prop where
  dest : d.dest = rd
  desc : d.desc = descriptorOf a b
  words : d.bufC.length = a.rows * wordsPerRow b.cols
  bits : ∀ i j, i < a.rows → j < b.cols →
    (d.word .c (i * wordsPerRow b.cols + j / 64)).getLsbD (j % 64) = prodBit a b i j

/-- The download of a product is R203's post-state. -/
theorem Device.HoldsProduct.productState (h : d.HoldsProduct rd a b) :
    ProductState s (s.commitProduct d.dest d.desc.cRows d.desc.cCols d.bufC) rd a b := by
  obtain ⟨hdest, hdesc, hwords, hbits⟩ := h
  have hrows : d.resultMatrix.rows = a.rows := congrArg Descriptor.cRows hdesc
  have hcols : d.resultMatrix.cols = b.cols := congrArg Descriptor.cCols hdesc
  have hwf : d.resultMatrix.wf = true := Device.resultMatrix_wf (by rw [hdesc]; exact hwords)
  have hstate : ProductState s (s.commitProduct rd a.rows b.cols d.bufC) rd a b := by
    refine .of_matrix hwf hrows hcols fun i j hi hj => ?_
    rw [d.resultMatrix.get_of_lt (hrows.symm ▸ hi) (hcols.symm ▸ hj),
      ((BitMatrix.wf_iff _).mp hwf).1, hcols]
    exact hbits i j hi hj
  rwa [hdest, hdesc]

/-- The last dispatch, not failed, of a kernel that leaves the product. -/
theorem State.runDispatch_product (hs : s.device = some d) (hk : d.kernel ≠ .m4rBuild)
    (hok : dispatchFails s.config d.dispatchNo = false) (h : d.runKernel.HoldsProduct rd a b) :
    ProductState s s.runDispatch rd a b := by
  rw [State.runDispatch_some hs, hok, if_neg (by decide),
    State.afterDispatch_last _ (by simpa using hk)]
  exact h.productState

/-- bufC has the product's layout after a dispatch on the operands, so its bits are left to show. -/
theorem launchedDevice_holdsProduct
    (hbits : ∀ i j, i < a.rows → j < b.cols →
      ((launchedDevice k rd a b n).runKernel.word .c
        (i * wordsPerRow b.cols + j / 64)).getLsbD (j % 64) = prodBit a b i j) :
    (launchedDevice k rd a b n).runKernel.HoldsProduct rd a b where
  dest := (Device.dest_runKernel _).trans (launchedDevice_dest ..)
  desc := (Device.desc_runKernel _).trans (launchedDevice_desc ..)
  words := (Device.length_runKernel _ .c).trans (launchedDevice_bufC ..)
  bits := hbits

/-- A GPU multiply with one dispatch, not failed. -/
theorem State.enterDevice_product (hk : k ≠ .m4rBuild)
    (hok : dispatchFails s.config s.dispatches = false)
    (h : (launchedDevice k rd a b s.dispatches).runKernel.HoldsProduct rd a b) :
    ProductState s (s.enterDevice k rd a b).runDispatch rd a b :=
  .of_phase (temp := deviceTemp k b) (device := some (launchedDevice k rd a b s.dispatches))
    (dispatches := s.dispatches + 1) (State.runDispatch_product rfl hk hok h)

/-! ### The words of the operands in the buffers -/

theorem launchedDevice_word_a (ha : a.wf = true) (q : Nat) :
    (launchedDevice k rd a b n).word .a q = a.memRead q :=
  congrArg (List.getD · q 0) (launchedDevice_bufA ha)

theorem launchedDevice_word_bt (hab : a.cols = b.rows) (q : Nat) :
    (launchedDevice .vec rd a b n).word .bt q = (transpose b).memRead q :=
  congrArg (List.getD · q 0) (launchedDevice_bufBT hab)

theorem launchedDevice_word_b (hk : k ≠ .vec) (hb : b.wf = true) (hab : a.cols = b.rows) (q : Nat) :
    (launchedDevice k rd a b n).word .b q = b.memRead q :=
  congrArg (List.getD · q 0) (launchedDevice_bufB hk hb hab)

/-- The word of a valid bit of C is in bufC. -/
theorem launchedDevice_inRange_c (hi : i < a.rows) (hj : j < b.cols) :
    i * wordsPerRow b.cols + j / 64 < ((launchedDevice k rd a b n).buf .c).length := by
  show _ < (launchedDevice k rd a b n).bufC.length
  rw [launchedDevice_bufC]
  exact word_lt hi (col_div_lt hj)

/-- ABit reads Get of A at a valid position (R262). -/
theorem launchedDevice_aBit (ha : a.wf = true) (hi : i < a.rows) (hj : j < a.cols) :
    aBit (launchedDevice k rd a b n) i j = a.get i j := by
  rw [aBit, launchedDevice_word_a ha, launchedDevice_desc, a.get_of_lt hi hj, (a.wf_iff.mp ha).1]
  rfl

/-- BBit reads Get of B at a valid position (R262). -/
theorem launchedDevice_bBit (hk : k ≠ .vec) (hb : b.wf = true) (hab : a.cols = b.rows)
    (hi : i < b.rows) (hj : j < b.cols) : bBit (launchedDevice k rd a b n) i j = b.get i j := by
  rw [bBit, launchedDevice_word_b hk hb hab, launchedDevice_desc, b.get_of_lt hi hj,
    (b.wf_iff.mp hb).1]
  rfl

/-! ### MULVG (R244, R245) -/

theorem Device.word_runKernel_vec (hk : d.kernel = .vec) {w : Nat} (hw : w < d.desc.cWpr)
    (hq : i * d.desc.cWpr + w < (d.buf .c).length) :
    d.runKernel.word .c (i * d.desc.cWpr + w) = vecWord d i w := by
  rw [Device.runKernel, hk]
  exact Device.word_load_row (vecWord d) hw hq

/-- A bit of the word of a work-item of MULVG is the parity of its column's `acc`. -/
theorem getLsbD_vecWord (hj : j < d.desc.bCols) :
    (vecWord d i (j / 64)).getLsbD (j % 64) = parity (vecAcc d i j) := by
  rw [vecWord, getLsbD_packBits _ _ (Nat.mod_lt _ (by decide)), Nat.div_add_mod, decide_eq_true hj,
    Bool.true_and]

theorem launchedDevice_vec_product (ha : a.wf = true) (hab : a.cols = b.rows) :
    (launchedDevice .vec rd a b n).runKernel.HoldsProduct rd a b := by
  refine launchedDevice_holdsProduct fun i j hi hj => ?_
  have hword := Device.word_runKernel_vec (d := launchedDevice .vec rd a b n) (i := i) rfl
    (w := j / 64)
  simp only [launchedDevice_desc, descriptorOf] at hword
  rw [hword (col_div_lt hj) (launchedDevice_inRange_c hi hj), getLsbD_vecWord, vecAcc]
  · simp only [launchedDevice_word_a ha, launchedDevice_word_bt hab, launchedDevice_desc]
    exact parity_dot_transpose ha hab hi hj
  · rw [launchedDevice_desc]; exact hj

theorem MulReady.mulvg_product (h : MulReady s .mulvg rd ra rb a b)
    (hm : Memory.wf s.slots = true) (hok : dispatchFails s.config s.dispatches = false) :
    ProductState s (s.product .mulvg rd a b) rd a b :=
  State.enterDevice_product (by decide) hok
    (launchedDevice_vec_product (State.wf_of_slot hm h.operand_a) h.shapes)

/-! ### MULT (R262 to R270) -/

theorem Device.word_runKernel_tiled (hk : d.kernel = .tiled) {w : Nat} (hw : w < d.desc.cWpr)
    (hq : i * d.desc.cWpr + w < (d.buf .c).length) :
    d.runKernel.word .c (i * d.desc.cWpr + w) = tiledWord d i w := by
  rw [Device.runKernel, hk]
  exact Device.word_load_row (tiledWord d) hw hq

/-- A bit of a word that MULT's work-items have ORed into is the old bit or their `sum` (R268). -/
theorem getLsbD_tiledWord (hi : i < d.desc.aRows) (hj : j < d.desc.bCols) :
    (tiledWord d i (j / 64)).getLsbD (j % 64) =
      ((d.word .c (i * d.desc.cWpr + j / 64)).getLsbD (j % 64) || tileSum d i j) := by
  have hlt : j % 64 < 64 := Nat.mod_lt _ (by decide)
  have hfold := getLsbD_foldl_setBits (fun b => decide (i < d.desc.aRows ∧
    64 * (j / 64) + b < d.desc.bCols ∧ tileSum d i (64 * (j / 64) + b) = true)) (List.range 64)
    (d.word .c (i * d.desc.cWpr + j / 64)) (j % 64) hlt
  simp only [decide_eq_true_eq] at hfold
  rw [tiledWord, hfold, Nat.div_add_mod]
  simp [hi, hj, hlt]

/-- The tile steps together run over the columns of A, and past them over zeros (R263, R264, R266). -/
theorem launchedDevice_tileSum (ha : a.wf = true) (hb : b.wf = true) (hab : a.cols = b.rows)
    (hi : i < a.rows) (hj : j < b.cols) :
    tileSum (launchedDevice .tiled rd a b n) i j = prodBit a b i j := by
  have hbound : a.cols ≤ ceilDiv a.cols Config.tileW * Config.tileW := by
    simp only [ceilDiv, Config.tileW]; omega
  rw [tileSum, launchedDevice_desc, prodBit, ← xorBits_guard hbound]
  show xorBits (ceilDiv a.cols Config.tileW) _ = _
  rw [xorBits_mul]
  refine xorBits_congr fun u _ => xorBits_congr fun t _ => ?_
  simp only [tileBitA, tileBitB, launchedDevice_desc, descriptorOf, hi, hj, true_and, and_true]
  by_cases hlt : u * Config.tileW + t < a.cols
  · rw [launchedDevice_aBit ha hi hlt, launchedDevice_bBit (by decide) hb hab (hab ▸ hlt) hj]
    simp [hlt]
  · simp [hlt]

theorem launchedDevice_tiled_product (ha : a.wf = true) (hb : b.wf = true) (hab : a.cols = b.rows) :
    (launchedDevice .tiled rd a b n).runKernel.HoldsProduct rd a b := by
  refine launchedDevice_holdsProduct fun i j hi hj => ?_
  have hzero : (launchedDevice .tiled rd a b n).word .c (i * wordsPerRow b.cols + j / 64) = 0 :=
    (congrArg (List.getD · _ 0) launchedDevice_bufC_tiled).trans
      (List.getD_replicate _ (word_lt hi (col_div_lt hj)))
  have hword := Device.word_runKernel_tiled (d := launchedDevice .tiled rd a b n) (i := i) rfl
    (w := j / 64)
  have hbit := getLsbD_tiledWord (d := launchedDevice .tiled rd a b n) (i := i) (j := j)
  simp only [launchedDevice_desc, descriptorOf, hzero] at hword hbit
  rw [hword (col_div_lt hj) (launchedDevice_inRange_c hi hj), hbit hi hj,
    launchedDevice_tileSum ha hb hab hi hj]
  simp

theorem MulReady.mult_product (h : MulReady s .mult rd ra rb a b)
    (hm : Memory.wf s.slots = true) (hok : dispatchFails s.config s.dispatches = false) :
    ProductState s (s.product .mult rd a b) rd a b :=
  State.enterDevice_product (by decide) hok (launchedDevice_tiled_product
    (State.wf_of_slot hm h.operand_a) (State.wf_of_slot hm h.operand_b) h.shapes)

end Sys2Proof.Machine
end

section
/-! SUPPORT. MUL4R: the table of phase 1, and its entries in phase 2 as combinations of the rows of B
(R281 to R292). -/

namespace Sys2Proof.Machine

/-! ### Chunks (R282) -/

theorem chunkKey_lt (x : Word) (c : Nat) : chunkKey x c < 256 := by
  rw [chunkKey, BitVec.toNat_and]
  exact Nat.lt_of_le_of_lt Nat.and_le_right (by decide)

/-- Bit `i` of chunk `c` is bit `8 * c + i` of the word. -/
theorem testBit_chunkKey (x : Word) (c : Nat) {i : Nat} (hi : i < 8) :
    (chunkKey x c).testBit i = x.getLsbD (8 * c + i) := by
  have hmask : (0xFF : Word).getLsbD i = true := by
    rw [show (0xFF : Word) = lowMask 8 from rfl, getLsbD_lowMask 8 i (by decide), decide_eq_true hi]
  rw [chunkKey, BitVec.testBit_toNat, BitVec.getLsbD_and, hmask, BitVec.getLsbD_ushiftRight,
    Bool.and_true]

/-! ### The table after phase 1 (R281, R288) -/

variable {d : Device} {t key w i : Nat}

theorem tableIndex_lt (ht : t < 8 * d.desc.aWpr) (hkey : key < 256) (hw : w < d.desc.bWpr) :
    tableIndex d.desc t key w < 8 * d.desc.aWpr * 256 * d.desc.bWpr :=
  word_lt (word_lt ht hkey) hw

/-- The words of bufT after phase 1 are the entries of R288's closed form. -/
theorem Device.word_runKernel_build (hk : d.kernel = .m4rBuild)
    (hT : d.bufT.length = 8 * d.desc.aWpr * 256 * d.desc.bWpr) (ht : t < 8 * d.desc.aWpr)
    (hkey : key < 256) (hw : w < d.desc.bWpr) :
    d.runKernel.word .t (tableIndex d.desc t key w) = tableEntry d t key w := by
  have hq : tableIndex d.desc t key w < (d.buf .t).length := hT ▸ tableIndex_lt ht hkey hw
  rw [Device.runKernel, hk, tableIndex,
    Device.word_load_row (fun r w => tableEntry d (r / 256) (r % 256) w) hw hq,
    word_index_div t hkey, word_index_mod t hkey]

/-- Phase 1 writes bufT alone. -/
theorem Device.word_runKernel_build_ne (hk : d.kernel = .m4rBuild) {x : Buf} (hx : x ≠ .t)
    (q : Nat) : d.runKernel.word x q = d.word x q := by
  rw [Device.runKernel, hk]
  exact d.word_load_ne _ q hx

/-- Entry 0 is the zero vector (R285), so a chunk with key 0 may be skipped (R291). -/
theorem tableEntry_zero (d : Device) (t w : Nat) : tableEntry d t 0 w = 0 := by
  refine BitVec.eq_of_getLsbD_eq fun b _ => ?_
  rw [tableEntry, getLsbD_xorWords]
  simpa using xorBits_false _

/-! ### Phase 2 over the table of phase 1 (R290 to R292) -/

/-- The chunks of row `i` of A select 64 rows of B for each of its words. -/
theorem m4rWord_runKernel_build (hk : d.kernel = .m4rBuild)
    (hT : d.bufT.length = 8 * d.desc.aWpr * 256 * d.desc.bWpr) (i : Nat) (hw : w < d.desc.bWpr) :
    m4rWord d.runKernel i w = xorWords d.desc.aWpr fun u => xorWords 8 fun c =>
      tableEntry d (8 * u + c) (chunkKey (d.word .a (i * d.desc.aWpr + u)) c) w := by
  rw [m4rWord, Device.desc_runKernel]
  refine xorWords_congr fun u hu => xorWords_congr fun c hc => ?_
  rw [d.word_runKernel_build_ne hk (by decide)]
  dsimp only
  split
  case isTrue hzero => rw [hzero, tableEntry_zero]
  case isFalse =>
    exact Device.word_runKernel_build hk hT (by omega) (chunkKey_lt _ c) hw

/-- An entry at chunk `c` of word `u` of row `i` of A is the XOR of the 8 rows of B that it selects. -/
theorem tableEntry_chunkKey (d : Device) (i u c w : Nat) (hc : c < 8) :
    tableEntry d (8 * u + c) (chunkKey (d.word .a (i * d.desc.aWpr + u)) c) w =
      xorWords 8 fun b =>
        let q := u * 64 + (c * 8 + b)
        if q < d.desc.aCols then
          if aBit d i q = true then d.word .b (q * d.desc.bWpr + w) else 0
        else 0 := by
  refine xorWords_congr fun b (hb : b < 8) => ?_
  have hq : 8 * (8 * u + c) + b = u * 64 + (c * 8 + b) := by omega
  have hbit : (chunkKey (d.word .a (i * d.desc.aWpr + u)) c).testBit b =
      aBit d i (u * 64 + (c * 8 + b)) := by
    rw [testBit_chunkKey _ _ hb, aBit, word_index_div u (by omega : c * 8 + b < 64),
      word_index_mod u (by omega : c * 8 + b < 64), Nat.mul_comm 8 c]
  rw [hq, hbit]
  exact (if_congr and_comm rfl rfl).trans (ite_and ..)

/-- Phase 2 stores the XOR of the words of the rows of B that row `i` of A selects; A's padding selects
nothing. -/
theorem m4rWord_runKernel_build_eq (hk : d.kernel = .m4rBuild)
    (hA : d.desc.aWpr = wordsPerRow d.desc.aCols)
    (hT : d.bufT.length = 8 * d.desc.aWpr * 256 * d.desc.bWpr) (i : Nat) (hw : w < d.desc.bWpr) :
    m4rWord d.runKernel i w = xorWords d.desc.aCols fun q =>
      if aBit d i q = true then d.word .b (q * d.desc.bWpr + w) else 0 := by
  have hcols : d.desc.aCols ≤ d.desc.aWpr * (8 * 8) := hA ▸ le_wordsPerRow_mul _
  rw [m4rWord_runKernel_build hk hT i hw, ← xorWords_guard hcols, xorWords_mul]
  refine xorWords_congr fun u _ => ?_
  rw [xorWords_mul]
  exact xorWords_congr fun c hc => tableEntry_chunkKey d i u c w hc

/-! ### The product (R280) -/

theorem Device.word_runKernel_m4rMul (hk : d.kernel = .m4rMul) (hw : w < d.desc.cWpr)
    (hq : i * d.desc.cWpr + w < (d.buf .c).length) :
    d.runKernel.word .c (i * d.desc.cWpr + w) = m4rWord d i w := by
  rw [Device.runKernel, hk]
  exact Device.word_load_row (m4rWord d) hw hq

variable {s : State} {rd ra rb : SlotNo} {a b : BitMatrix} {n n' j : Nat}

/-- The device at the start of the dispatch of phase 2 (R289). -/
def secondDevice (rd : SlotNo) (a b : BitMatrix) (n n' : Nat) : Device :=
  (launchedDevice .m4rBuild rd a b n).runKernel.begin .m4rMul n'

theorem secondDevice_desc : (secondDevice rd a b n n').desc = descriptorOf a b :=
  (Device.desc_runKernel _).trans (launchedDevice_desc ..)

theorem secondDevice_bufC :
    (secondDevice rd a b n n').bufC.length = a.rows * wordsPerRow b.cols :=
  (Device.length_runKernel _ .c).trans (launchedDevice_bufC ..)

/-- The dispatch number and the groups do not matter to the words of phase 2. -/
theorem m4rWord_secondDevice (i w : Nat) : m4rWord (secondDevice rd a b n n') i w =
    m4rWord (launchedDevice .m4rBuild rd a b n).runKernel i w := rfl

/-- A bit of the word of a work-item of phase 2 is the product's. -/
theorem getLsbD_m4rWord_launched (ha : a.wf = true) (hb : b.wf = true) (hab : a.cols = b.rows)
    (hi : i < a.rows) (hj : j < b.cols) :
    (m4rWord (launchedDevice .m4rBuild rd a b n).runKernel i (j / 64)).getLsbD (j % 64) =
      prodBit a b i j := by
  have hword := m4rWord_runKernel_build_eq (d := launchedDevice .m4rBuild rd a b n) (w := j / 64)
    rfl (by rw [launchedDevice_desc]; rfl)
    (by rw [launchedDevice_desc]; exact launchedDevice_bufT_build) i
    (by rw [launchedDevice_desc]; exact col_div_lt hj)
  rw [hword, getLsbD_xorWords, launchedDevice_desc]
  refine xorBits_congr fun q hq => ?_
  have hrow : ((launchedDevice .m4rBuild rd a b n).word .b
      (q * wordsPerRow b.cols + j / 64)).getLsbD (j % 64) = b.get q j := by
    rw [launchedDevice_word_b (by decide) hb hab, b.get_of_lt (hab ▸ hq) hj, (b.wf_iff.mp hb).1]
  rw [launchedDevice_aBit ha hi hq, ← hrow]
  cases a.get i q
  · simp
  · rfl

theorem secondDevice_product (ha : a.wf = true) (hb : b.wf = true) (hab : a.cols = b.rows) :
    (secondDevice rd a b n n').runKernel.HoldsProduct rd a b where
  dest := (Device.dest_runKernel _).trans ((Device.dest_runKernel _).trans (launchedDevice_dest ..))
  desc := (Device.desc_runKernel _).trans secondDevice_desc
  words := (Device.length_runKernel _ .c).trans secondDevice_bufC
  bits i j hi hj := by
    have hword := Device.word_runKernel_m4rMul (d := secondDevice rd a b n n') (i := i)
      (w := j / 64) rfl
    simp only [secondDevice_desc, descriptorOf] at hword
    have hq : i * wordsPerRow b.cols + j / 64 < (secondDevice rd a b n n').bufC.length :=
      secondDevice_bufC ▸ word_lt hi (col_div_lt hj)
    rw [hword (col_div_lt hj) hq, m4rWord_secondDevice,
      getLsbD_m4rWord_launched ha hb hab hi hj]

/-- The first dispatch of MUL4R, not failed, starts the second one. -/
theorem State.runDispatch_enterDevice_build (hok : dispatchFails s.config s.dispatches = false) :
    (s.enterDevice .m4rBuild rd a b).runDispatch = { s with
      temp := none
      device := some (secondDevice rd a b s.dispatches (s.dispatches + 1))
      dispatches := s.dispatches + 1 + 1 } := by
  rw [State.runDispatch_some (s.enterDevice_device .m4rBuild rd a b), launchedDevice_dispatchNo,
    show dispatchFails (s.enterDevice .m4rBuild rd a b).config s.dispatches = false from hok,
    if_neg (by decide), State.afterDispatch_build _ (Device.kernel_runKernel _)]
  rfl

/-- MUL4R leaves the product when neither dispatch is failed. -/
theorem MulReady.mul4r_product (h : MulReady s .mul4r rd ra rb a b)
    (hm : Memory.wf s.slots = true) (hok : dispatchFails s.config s.dispatches = false)
    (hok' : dispatchFails s.config (s.dispatches + 1) = false) :
    ProductState s (s.product .mul4r rd a b) rd a b := by
  rw [State.product, State.runDispatch_enterDevice_build hok]
  exact .of_phase (State.runDispatch_product rfl (show Kernel.m4rMul ≠ .m4rBuild by decide) hok'
    (secondDevice_product (State.wf_of_slot hm h.operand_a) (State.wf_of_slot hm h.operand_b)
      h.shapes))

end Sys2Proof.Machine
end

section
/-! SUPPORT. The five multiply commands agree (R211). -/

namespace Sys2Proof.Machine

theorem dispatchFails_of_no_faults {c : Config} (h : c.deviceFaults = false) (n : Nat) :
    dispatchFails c n = false := by
  rw [dispatchFails, h, Bool.false_and]

variable {s : State} {v : Variant} {rd ra rb : SlotNo} {a b : BitMatrix}

/-- Where no dispatch can fail, every multiply that passes its checks ends in R203's post-state. -/
theorem MulReady.exec_product (h : MulReady s v rd ra rb a b) (hm : Memory.wf s.slots = true)
    (hf : s.config.deviceFaults = false) :
    ∃ t, Machine.exec (mulCommand v rd ra rb) s = .next t ∧ ProductState s t rd a b := by
  have hok := dispatchFails_of_no_faults hf
  refine ⟨_, h.exec, ?_⟩
  cases v with
  | muls => exact h.muls_product hm
  | mulv => exact h.mulv_product hm
  | mulvg => exact h.mulvg_product hm (hok _)
  | mult => exact h.mult_product hm (hok _)
  | mul4r => exact h.mul4r_product hm (hok _) (hok _)

/-- Settles O40: each of the five leaves the bits of Prod(A, B). -/
theorem allMultipliersAgree : Obligations.AllMultipliersAgree := by
  intro rd ra rb s a b hm hf h
  choose t ht hstate using fun v => (h v).exec_product hm hf
  choose c hc hrows hcols _ _ hbits _ using fun v => (hstate v).result_matrix
  refine ⟨c, fun v => ⟨t v, ht v, hc v⟩, hbits, fun v w => (sameBits_iff _ _).mpr
    ⟨(hrows v).trans (hrows w).symm, (hcols v).trans (hcols w).symm, fun i j hi hj => ?_⟩⟩
  rw [hrows] at hi
  rw [hcols] at hj
  exact (hbits v i j hi hj).trans (hbits w i j hi hj).symm

end Sys2Proof.Machine
end

section
/-! SUPPORT. The frame of a work-item's step (R95, R99): the effect of each site stores the word that
storedWord computes, in the one buffer that the site's kernel writes. -/

namespace Sys2Proof.Machine

variable {d d' : Device} {g : Group} {it : WorkItem} {e : Effect} {p : Pos} {gi n : Nat}

/-! ### One group and one work-item replaced -/

/-- The group with work-item `n` replaced. -/
def Group.withItem (g : Group) (n : Nat) (it : WorkItem) : Group :=
  { g with items := g.items.set n it }

/-- The device with group `gi` replaced. -/
def Device.withGroup (d : Device) (gi : Nat) (g : Group) : Device :=
  { d with groups := d.groups.set gi g }

theorem Group.withItem_self (hit : g.items[n]? = some it) : g.withItem n it = g := by
  obtain ⟨hn, rfl⟩ := List.getElem?_eq_some_iff.mp hit
  rw [Group.withItem, List.set_getElem_self]

theorem Device.withGroup_self (hg : d.groups[gi]? = some g) : d.withGroup gi g = d := by
  obtain ⟨hgi, rfl⟩ := List.getElem?_eq_some_iff.mp hg
  rw [Device.withGroup, List.set_getElem_self]

@[simp] theorem Group.withItem_withItem (g : Group) (n : Nat) (it it' : WorkItem) :
    (g.withItem n it).withItem n it' = g.withItem n it' := by
  simp [Group.withItem]

@[simp] theorem Device.withGroup_withGroup (d : Device) (gi : Nat) (g g' : Group) :
    (d.withGroup gi g).withGroup gi g' = d.withGroup gi g' := by
  simp [Device.withGroup]

theorem Group.items_withItem_self (hit : g.items[n]? = some it) (it' : WorkItem) :
    (g.withItem n it').items[n]? = some it' :=
  List.getElem?_set_self (List.getElem?_eq_some_iff.mp hit).1

theorem Group.items_withItem_ne (g : Group) (it : WorkItem) {m : Nat} (h : m ≠ n) :
    (g.withItem n it).items[m]? = g.items[m]? := List.getElem?_set_ne h.symm

theorem Device.groups_withGroup_self (hg : d.groups[gi]? = some g) (g' : Group) :
    (d.withGroup gi g').groups[gi]? = some g' :=
  List.getElem?_set_self (List.getElem?_eq_some_iff.mp hg).1

theorem Device.groups_withGroup_ne (d : Device) (g : Group) {m : Nat} (h : m ≠ gi) :
    (d.withGroup gi g).groups[m]? = d.groups[m]? := List.getElem?_set_ne h.symm

/-! ### The word an effect stores -/

/-- The device word that an effect stores to, and the word it leaves there. -/
def Effect.stored (d : Device) : Effect → Option (Buf × Nat × Word)
  | .store x q v => some (x, q, v)
  | .fetchOr x q mask => some (x, q, d.word x q ||| mask)
  | _ => none

theorem Device.apply_of_stored_none (h : e.stored d = none) : d.apply e = d := by
  cases e with
  | store | fetchOr => cases h
  | quiet | tileA | tileB | arrive => rfl

theorem Device.apply_of_stored {x : Buf} {q : Nat} {v : Word} (h : e.stored d = some (x, q, v)) :
    d.apply e = d.store x q v := by
  cases e with
  | store | fetchOr => cases h; rfl
  | quiet | tileA | tileB | arrive => cases h

@[simp] theorem Device.length_apply (d : Device) (e : Effect) (y : Buf) :
    ((d.apply e).buf y).length = (d.buf y).length := by
  cases e with
  | store x q v => exact d.length_store x y q v
  | fetchOr x q mask => exact d.length_store x y q _
  | quiet | tileA | tileB | arrive => rfl

@[simp] theorem Device.kernel_apply (d : Device) (e : Effect) : (d.apply e).kernel = d.kernel := by
  cases e with
  | store x | fetchOr x => exact d.kernel_setBuf x _
  | quiet | tileA | tileB | arrive => rfl

@[simp] theorem Device.dispatchNo_apply (d : Device) (e : Effect) :
    (d.apply e).dispatchNo = d.dispatchNo := by
  cases e with
  | store x | fetchOr x => exact d.dispatchNo_setBuf x _
  | quiet | tileA | tileB | arrive => rfl

@[simp] theorem Device.groups_apply (d : Device) (e : Effect) : (d.apply e).groups = d.groups := by
  cases e with
  | store x | fetchOr x => exact d.groups_setBuf x _
  | quiet | tileA | tileB | arrive => rfl

/-- The work-items, the ids and the generation of a group are out of an effect's reach. -/
theorem Group.apply_frame (g : Group) (e : Effect) : (g.apply e).items = g.items ∧
    (g.apply e).gx = g.gx ∧ (g.apply e).gy = g.gy ∧ (g.apply e).generation = g.generation := by
  cases e <;> exact ⟨rfl, rfl, rfl, rfl⟩

/-! ### The effect of each site -/

/-- An effect that stores a device word leaves the group as it is. -/
theorem Group.apply_of_stored {r : Buf × Nat × Word} (h : e.stored d = some r) : g.apply e = g := by
  cases e with
  | quiet | store | fetchOr => rfl
  | tileA | tileB | arrive => cases h

/-- Every effect that the action answers, when it does not fault, meets `P`. -/
def OnlyEffects (P : Effect → Prop) (a : Action) : Prop := ∀ e p, a = .ok (e, p) → P e

namespace OnlyEffects

variable {P : Effect → Prop} {x : Buf} {q : Nat}

theorem ok (h : P e) : OnlyEffects P (.ok (e, p)) := fun _ _ ha => by cases ha; exact h

theorem ite {c : Prop} [Decidable c] {a b : Action} (hc : c → OnlyEffects P a)
    (hn : ¬c → OnlyEffects P b) : OnlyEffects P (if c then a else b) := by
  split
  · exact hc ‹_›
  · exact hn ‹_›

theorem error {f : Fault} : OnlyEffects P (.error f) := fun _ _ ha => by cases ha

theorem reading {next : Word → Action} (h : OnlyEffects P (next (d.word x q))) :
    OnlyEffects P (Machine.reading d x q next) := .ite (fun _ => h) fun _ => error

theorem writing (h : d.inRange x q = true → P e) : OnlyEffects P (Machine.writing d x q e p) :=
  .ite (fun hq => ok (h hq)) fun _ => error

end OnlyEffects

/-- The one buffer that the work-items of a kernel write (R245, R268, R284, R290). -/
def Kernel.output : Kernel → Buf
  | .m4rBuild => .t
  | _ => .c

/-- Effect `e` at the site of `it` keeps the discipline of R95: it stores the word that storedWord computes,
in range of the kernel's output buffer, and but in MULT it leaves the group's tiles and counter. -/
structure Effect.Disciplined (e : Effect) (d : Device) (g : Group) (it : WorkItem) : Prop where
  stored : e.stored d = storedWord d g it
  in_output : ∀ x q v, e.stored d = some (x, q, v) → x = d.kernel.output ∧ d.inRange x q = true
  group : d.kernel ≠ .tiled → ∀ h : Group, h.apply e = h

/-- The effects of an action at the site of `it` keep the discipline. -/
abbrev KeepsDiscipline (d : Device) (g : Group) (it : WorkItem) : Action → Prop :=
  OnlyEffects fun e => e.Disciplined d g it

/-- Where storedWord gives nothing, a step may leave everything shared as it is. -/
theorem KeepsDiscipline.quiet (h : storedWord d g it = none) :
    KeepsDiscipline d g it (.ok (.quiet, p)) :=
  .ok ⟨h.symm, fun _ _ _ hs => (Option.some_ne_none _ hs.symm).elim, fun _ _ => rfl⟩

/-- Where storedWord gives nothing, a step of MULT may write a tile or arrive at the barrier. -/
theorem KeepsDiscipline.shared (hk : d.kernel = .tiled) (h : storedWord d g it = none)
    (he : e.stored d = none) : KeepsDiscipline d g it (.ok (e, p)) :=
  .ok ⟨he.trans h.symm, fun _ _ _ hs => (Option.some_ne_none _ (hs.symm.trans he)).elim,
    fun hne => absurd hk hne⟩

/-- A step may write the word that storedWord computes, in range of the kernel's output buffer. -/
theorem KeepsDiscipline.store {x : Buf} {q : Nat} {v : Word}
    (h : storedWord d g it = some (x, q, v)) (hx : x = d.kernel.output)
    (he : e.stored d = some (x, q, v)) : KeepsDiscipline d g it (writing d x q e p) := by
  refine .writing fun hq =>
    ⟨he.trans h.symm, fun y r u hs => ?_, fun _ _ => Group.apply_of_stored he⟩
  cases he.symm.trans hs
  exact ⟨hx, hq⟩

section
open KeepsDiscipline

theorem vecAction_disciplined (hk : d.kernel = .vec) :
    KeepsDiscipline d g it (itemAction d g it) := by
  obtain ⟨lx, ly, pos⟩ := it
  simp only [itemAction, hk]
  cases pos with
  | v3 word => exact store (by simp [storedWord, hk]) (by rw [hk]; rfl) rfl
  | v0 =>
    have hs : storedWord d g ⟨lx, ly, .v0⟩ = none := by simp [storedWord, hk]
    exact .ite (fun _ => quiet hs) fun _ => quiet hs
  | v2 word b =>
    have hs : storedWord d g ⟨lx, ly, .v2 word b⟩ = none := by simp [storedWord, hk]
    exact .ite (fun _ => .ite (fun _ => quiet hs) fun _ => quiet hs) fun _ => quiet hs
  | v2Dot word b acc t =>
    have hs : storedWord d g ⟨lx, ly, .v2Dot word b acc t⟩ = none := by simp [storedWord, hk]
    exact .ite (fun _ => .reading (.reading (quiet hs))) fun _ => quiet hs
  | _ => exact quiet (by simp [storedWord, hk])

theorem m4rAction_disciplined (hk : d.kernel = .m4rMul) :
    KeepsDiscipline d g it (itemAction d g it) := by
  obtain ⟨lx, ly, pos⟩ := it
  simp only [itemAction, hk]
  cases pos with
  | q3 acc => exact store (by simp [storedWord, hk]) (by rw [hk]; rfl) rfl
  | q0 =>
    have hs : storedWord d g ⟨lx, ly, .q0⟩ = none := by simp [storedWord, hk]
    exact .ite (fun _ => quiet hs) fun _ => quiet hs
  | q2 acc a =>
    have hs : storedWord d g ⟨lx, ly, .q2 acc a⟩ = none := by simp [storedWord, hk]
    exact .ite (fun _ => .reading (quiet hs)) fun _ => quiet hs
  | q2Chunk acc a x c =>
    have hs : storedWord d g ⟨lx, ly, .q2Chunk acc a x c⟩ = none := by simp [storedWord, hk]
    exact .ite (fun _ => .ite (fun _ => quiet hs) fun _ => .reading (quiet hs)) fun _ => quiet hs
  | _ => exact quiet (by simp [storedWord, hk])

theorem buildAction_disciplined (hk : d.kernel = .m4rBuild) :
    KeepsDiscipline d g it (itemAction d g it) := by
  obtain ⟨lx, ly, pos⟩ := it
  have hout : Buf.t = d.kernel.output := by rw [hk]; rfl
  simp only [itemAction, hk]
  cases pos with
  | p0 =>
    have hs : storedWord d g ⟨lx, ly, .p0⟩ = none := by simp [storedWord, hk]
    exact .ite (fun _ => quiet hs) fun _ => quiet hs
  | p1 => exact store (by simp [storedWord, hk]) hout rfl
  | p2 i =>
    refine .ite (fun hi => .ite (fun hrow => .reading ?_) fun hrow => ?_) fun hi => quiet ?_
    · exact store (by simp [storedWord, hk, hi, hrow]) hout rfl
    · exact store (by simp [storedWord, hk, hi, hrow]) hout rfl
    · simp [storedWord, hk, hi]
  | p3 p key =>
    refine .ite (fun hp => .ite (fun hkey => .reading (.reading ?_)) fun hkey => quiet ?_)
      fun hp => quiet ?_
    · exact store (by simp [storedWord, hk, hp, hkey]) hout rfl
    · simp [storedWord, hk, hkey]
    · simp [storedWord, hk, hp]
  | _ => exact quiet (by simp [storedWord, hk])

theorem tiledAction_disciplined (hk : d.kernel = .tiled) :
    KeepsDiscipline d g it (itemAction d g it) := by
  obtain ⟨lx, ly, pos⟩ := it
  rw [itemAction_tiled hk]
  cases pos with
  | t1 sum s =>
    have hs : storedWord d g ⟨lx, ly, .t1 sum s⟩ = none := by simp [storedWord, hk]
    exact .ite (fun _ => quiet hs) fun _ => quiet hs
  | t2 sum s =>
    have hs : storedWord d g ⟨lx, ly, .t2 sum s⟩ = none := by simp [storedWord, hk]
    exact .ite (fun _ => .reading (shared hk hs rfl)) fun _ => shared hk hs rfl
  | t3 sum s =>
    have hs : storedWord d g ⟨lx, ly, .t3 sum s⟩ = none := by simp [storedWord, hk]
    exact .ite (fun _ => .reading (shared hk hs rfl)) fun _ => shared hk hs rfl
  | t4 | t6 => exact shared hk (by simp [storedWord, hk]) rfl
  | t5 sum s t =>
    have hs : storedWord d g ⟨lx, ly, .t5 sum s t⟩ = none := by simp [storedWord, hk]
    exact .ite (fun _ => quiet hs) fun _ => quiet hs
  | t7 sum =>
    refine .ite (fun hin => ?_) fun hout => quiet ?_
    · refine store ?_ (by rw [hk]; rfl) rfl
      obtain ⟨h1, h2, h3⟩ := hin
      simp only [Config.tileW] at h2 h3
      simp [storedWord, hk, h1, h2, h3, groupSide]
    · simp only [Config.tileW] at hout
      simp [storedWord, hk, hout, groupSide]
  | _ => exact quiet (by simp [storedWord, hk])

end

/-- R95: the effect of every site of every kernel keeps the discipline. -/
theorem itemAction_disciplined (d : Device) (g : Group) (it : WorkItem) :
    KeepsDiscipline d g it (itemAction d g it) := by
  cases hk : d.kernel with
  | vec => exact vecAction_disciplined hk
  | tiled => exact tiledAction_disciplined hk
  | m4rBuild => exact buildAction_disciplined hk
  | m4rMul => exact m4rAction_disciplined hk

/-! ### The step -/

/-- A work-item that cannot step stands where its kernel would leave it. -/
theorem itemAction_of_not_canStep (d : Device) (g : Group) (h : it.pos.canStep = false) :
    itemAction d g it = .ok (.quiet, it.pos) := by
  obtain ⟨lx, ly, pos⟩ := it
  simp only [itemAction]
  cases pos with
  | done | t4Wait | t6Wait => cases d.kernel <;> rfl
  | _ => cases h

/-- The step of a work-item that can step and whose accesses are in range. -/
theorem Device.stepItem_of_action (hg : d.groups[gi]? = some g) (hit : g.items[n]? = some it)
    (hc : it.pos.canStep = true) (ha : itemAction d g it = .ok (e, p)) :
    d.stepItem gi n = .ok ((d.apply e).withGroup gi ((g.withItem n { it with pos := p }).apply e)) := by
  rw [Device.stepItem_ok hg hit hc ha, ← d.groups_apply e]
  rfl

/-- The step of a work-item that exists and does not fault is the effect of its site and its move, and
these change nothing where it cannot step. -/
theorem Device.stepItem_eq_ok (hg : d.groups[gi]? = some g) (hit : g.items[n]? = some it)
    (h : d.stepItem gi n = .ok d') : ∃ e p, itemAction d g it = .ok (e, p) ∧
      d' = (d.apply e).withGroup gi ((g.withItem n { it with pos := p }).apply e) := by
  by_cases hc : it.pos.canStep = true
  · cases ha : itemAction d g it with
    | error f => simp [Device.stepItem, hg, hit, hc, ha] at h
    | ok r =>
      obtain ⟨e, p⟩ := r
      exact ⟨e, p, rfl, Except.ok.inj (h.symm.trans (Device.stepItem_of_action hg hit hc ha))⟩
  · refine ⟨.quiet, it.pos, itemAction_of_not_canStep d g (by simpa using hc), ?_⟩
    have hd : d' = d := by simpa [Device.stepItem, hg, hit, hc] using h.symm
    exact hd.trans (by rw [g.withItem_self hit]; exact (d.withGroup_self hg).symm)

/-- A step where nothing exists is no step (log 21). -/
theorem Device.stepItem_of_no_item (h : ∀ g, d.groups[gi]? = some g → g.items[n]? = none) :
    d.stepItem gi n = .ok d := by
  cases hg : d.groups[gi]? with
  | none => simp [Device.stepItem, hg]
  | some g => simp [Device.stepItem, hg, h g hg]

namespace Effect.Disciplined

variable (h : e.Disciplined d g it)
include h

/-- No buffer but the kernel's output is written. -/
theorem buf_apply_ne {y : Buf} (hy : y ≠ d.kernel.output) : (d.apply e).buf y = d.buf y := by
  cases hs : e.stored d with
  | none => rw [Device.apply_of_stored_none hs]
  | some r =>
    obtain ⟨x, q, v⟩ := r
    obtain ⟨rfl, -⟩ := h.in_output x q v hs
    rw [Device.apply_of_stored hs, Device.store, Device.buf_setBuf_ne _ _ hy]

/-- The stored word is left where storedWord says, and every other word stays. -/
theorem word_apply {x : Buf} {q : Nat} {v : Word} (hs : storedWord d g it = some (x, q, v)) :
    (d.apply e).word x q = v ∧ ∀ y p, (y ≠ x ∨ p ≠ q) → (d.apply e).word y p = d.word y p := by
  rw [← h.stored] at hs
  obtain ⟨-, hq⟩ := h.in_output x q v hs
  rw [Device.apply_of_stored hs]
  refine ⟨by rw [Device.word_store, if_pos ⟨rfl, hq⟩], fun y p hne => ?_⟩
  by_cases hy : y = x
  · subst hy
    rw [Device.word_store, if_neg fun hp => hne.elim (absurd rfl) (absurd hp.1)]
  · exact Device.word_store_ne d q p v hy

end Effect.Disciplined

/-- Kernels write bufT or bufC, and never an operand's buffer. -/
theorem Kernel.output_ne (k : Kernel) : .a ≠ k.output ∧ .b ≠ k.output ∧ .bt ≠ k.output ∧
    (k ≠ .m4rBuild → .t ≠ k.output) ∧ (k = .m4rBuild → .c ≠ k.output) := by
  cases k <;> decide

/-- Settles O49: the discipline of each site, carried over the step of the work-item. -/
theorem workItemWriteDiscipline : Obligations.WorkItemWriteDiscipline := by
  refine ⟨fun d d' gi n g it hg hit hstep => ?_, fun d gi n => Device.stepItem_of_no_item⟩
  obtain ⟨e, p, ha, rfl⟩ := Device.stepItem_eq_ok hg hit hstep
  have hdisc : e.Disciplined d g it := itemAction_disciplined d g it e p ha
  obtain ⟨-, -, hdesc, hdest⟩ := Device.SameLayout.apply d e
  obtain ⟨hA, hB, hBT, hT, hC⟩ := d.kernel.output_ne
  obtain ⟨hitems, hgx, hgy, hgen⟩ := (g.withItem n { it with pos := p }).apply_frame e
  have hgroup : (d.apply e).groups[gi]? = some g := by rw [d.groups_apply, hg]
  refine ⟨fun hs => ?_, fun x q v => hdisc.word_apply, d.length_apply e, hdisc.buf_apply_ne hA,
    hdisc.buf_apply_ne hB, hdisc.buf_apply_ne hBT, fun hk => hdisc.buf_apply_ne (hT hk),
    fun hk => hdisc.buf_apply_ne (hC hk), hdesc, d.kernel_apply e, hdest, d.dispatchNo_apply e,
    ?_, fun k hk => ?_, _, Device.groups_withGroup_self hgroup _, hgx, hgy, hgen, fun m hm => ?_,
    ⟨p, ?_⟩, fun hk => ?_⟩
  · have hd : d.apply e = d := Device.apply_of_stored_none (hdisc.stored.trans hs)
    rw [hd]
    exact ⟨rfl, rfl, rfl, rfl, rfl⟩
  · exact List.length_set.trans (congrArg List.length (d.groups_apply e))
  · rw [Device.groups_withGroup_ne _ _ hk, d.groups_apply]
  · rw [hitems, g.items_withItem_ne _ hm]
  · rw [hitems, Group.items_withItem_self hit]
  · rw [hdisc.group hk]
    exact ⟨rfl, rfl, rfl⟩

end Sys2Proof.Machine
end

section
/-! SUPPORT. A work-item that steps alone (R88, R214): a path of its positions along which nothing shared is
written, and then one last step, is a run of the device. -/

namespace Sys2Proof.Machine

variable {d d' : Device} {g : Group} {it : WorkItem} {e : Effect} {p q : Pos} {gi n k : Nat}

/-- The device with work-item `it`, number `n` of group `g`, moved to position `p`. -/
def Device.withPos (d : Device) (gi n : Nat) (g : Group) (it : WorkItem) (p : Pos) : Device :=
  d.withGroup gi (g.withItem n { it with pos := p })

theorem Device.withPos_self (hg : d.groups[gi]? = some g) (hit : g.items[n]? = some it) :
    d.withPos gi n g it it.pos = d := by
  rw [Device.withPos, Group.withItem_self (it := { it with pos := it.pos }) hit,
    Device.withGroup_self hg]

/-- An effect on the buffers does not look at the groups. -/
theorem Device.apply_withGroup (d : Device) (gi : Nat) (g : Group) (e : Effect) :
    (d.withGroup gi g).apply e = (d.apply e).withGroup gi g := by
  cases e with
  | store x | fetchOr x => cases x <;> rfl
  | quiet | tileA | tileB | arrive => rfl

/-- A site does not look at where the work-items stand. -/
theorem itemAction_withGroup (d : Device) (g g' : Group) (it it' : WorkItem) :
    itemAction (d.withGroup gi g') (g.withItem n it') it = itemAction d g it := rfl

/-- One step of the work-item alone, by an effect that leaves the group's tiles and counter. -/
theorem Device.stepItem_withPos (hg : d.groups[gi]? = some g) (hit : g.items[n]? = some it)
    (hc : p.canStep = true) (ha : itemAction d g { it with pos := p } = .ok (e, q))
    (he : ∀ h : Group, h.apply e = h) :
    (d.withPos gi n g it p).stepItem gi n = .ok ((d.apply e).withPos gi n g it q) := by
  have hstep := Device.stepItem_of_action (Device.groups_withGroup_self hg _)
    (Group.items_withItem_self hit { it with pos := p }) hc
    ((itemAction_withGroup d g _ { it with pos := p } _).trans ha)
  rw [he, Device.apply_withGroup, Device.withGroup_withGroup, Group.withItem_withItem] at hstep
  exact hstep

theorem runItem_succ (h : d.stepItem gi n = .ok d') : runItem d gi n (k + 1) = runItem d' gi n k := by
  rw [runItem, h]

/-- At position `p` a work-item that acts by `act` can step, writes nothing shared and goes on at `q`. -/
def QuietStep (act : Pos → Action) (p q : Pos) : Prop := p.canStep = true ∧ act p = .ok (.quiet, q)

/-- A path of quiet steps of a work-item that acts by `act`. -/
abbrev QuietPath (act : Pos → Action) : Pos → Pos → Prop := Relation.ReflTransGen (QuietStep act)

/-- The steps of a quiet path move the work-item along it and change nothing else. -/
theorem QuietPath.run {act : Pos → Action} (hpath : QuietPath act p q)
    (hact : ∀ p, itemAction d g { it with pos := p } = act p) (hg : d.groups[gi]? = some g)
    (hit : g.items[n]? = some it) :
    ∃ k, ∀ m, runItem (d.withPos gi n g it p) gi n (k + m) = runItem (d.withPos gi n g it q) gi n m := by
  induction hpath using Relation.ReflTransGen.head_induction_on with
  | refl => exact ⟨0, fun m => by rw [Nat.zero_add]⟩
  | head hstep _ ih =>
    obtain ⟨k, hk⟩ := ih
    obtain ⟨hc, ha⟩ := hstep
    refine ⟨k + 1, fun m => ?_⟩
    rw [Nat.add_right_comm,
      runItem_succ (Device.stepItem_withPos hg hit hc ((hact _).trans ha) fun _ => rfl)]
    exact hk m

/-- A quiet path and then a step that finishes the work-item run it from its position to its end. -/
theorem QuietPath.run_to_end {act : Pos → Action} (hpath : QuietPath act q p) (hpos : it.pos = q)
    (hact : ∀ p, itemAction d g { it with pos := p } = act p) (hg : d.groups[gi]? = some g)
    (hit : g.items[n]? = some it) (hc : p.canStep = true) (hlast : act p = .ok (e, .done))
    (he : ∀ h : Group, h.apply e = h) :
    ∃ k d' g', runItem d gi n k = .ok d' ∧ d'.groups[gi]? = some g' ∧
      g'.items[n]? = some { it with pos := .done } ∧ d'.bufC = (d.apply e).bufC := by
  subst hpos
  obtain ⟨k, hk⟩ := hpath.run hact hg hit
  have hstart : runItem d gi n (k + 1) = .ok ((d.apply e).withPos gi n g it .done) := by
    rw [Device.withPos_self hg hit] at hk
    rw [hk, runItem_succ (Device.stepItem_withPos hg hit hc ((hact _).trans hlast) he)]
    rfl
  have hgroup : (d.apply e).groups[gi]? = some g := by rw [d.groups_apply, hg]
  exact ⟨k + 1, _, _, hstart, Device.groups_withGroup_self hgroup _, Group.items_withItem_self hit _,
    rfl⟩

end Sys2Proof.Machine
end

section
/-! SUPPORT. A work-item of MULVG from V0 to its end (R245): the loop over the words of two rows, the loop over
the 64 columns of its word, and the store. -/

namespace Sys2Proof.Machine

variable {d : Device} {w i : Nat}

/-! ### The word as the loops build it -/

/-- The first `n` bits of packBits. -/
def packFirst (n : Nat) (f : Nat → Bool) : Word :=
  (List.range n).foldl (fun w b => if f b then w ||| onehot b else w) 0

theorem packFirst_succ (n : Nat) (f : Nat → Bool) :
    packFirst (n + 1) f = if f n then packFirst n f ||| onehot n else packFirst n f := by
  simp [packFirst, List.range_succ]

/-- The word that the loop over t XORs to `acc` (R245, V2). -/
def vecTerm (d : Device) (i j t : Nat) : Word :=
  d.word .a (i * d.desc.aWpr + t) &&& d.word .bt (j * d.desc.aWpr + t)

/-- The bit that V2 ORs into the word at its column `b`. -/
def vecBit (d : Device) (i w b : Nat) : Bool :=
  decide (64 * w + b < d.desc.bCols) && parity (vecAcc d i (64 * w + b))

theorem vecAcc_eq (d : Device) (i j : Nat) : vecAcc d i j = xorWords d.desc.aWpr (vecTerm d i j) := rfl

theorem vecWord_eq (d : Device) (i w : Nat) : vecWord d i w = packFirst 64 (vecBit d i w) := rfl

theorem or_zextBit_shiftLeft (x : Word) (v : Bool) (b : Nat) :
    x ||| zextBit v <<< b = if v then x ||| onehot b else x := by
  cases v <;> simp [zextBit, onehot]

/-! ### The loops -/

/-- The operands have their words, and row `i` exists (R245). -/
structure VecOperands (d : Device) (i : Nat) : Prop where
  length_a : d.bufA.length = d.desc.aRows * d.desc.aWpr
  length_bt : d.bufBT.length = d.desc.bCols * d.desc.aWpr
  row_lt : i < d.desc.aRows

theorem VecOperands.dot_path (h : VecOperands d i) {b : Nat} (hj : 64 * w + b < d.desc.bCols)
    (word : Word) {t : Nat} (ht : t ≤ d.desc.aWpr) :
    QuietPath (vecAction d w i) (.v2Dot word b 0 0)
      (.v2Dot word b (xorWords t (vecTerm d i (64 * w + b))) t) := by
  induction t with
  | zero => exact .refl
  | succ t ih =>
    have hA : d.inRange .a (i * d.desc.aWpr + t) = true :=
      decide_eq_true (h.length_a ▸ word_lt h.row_lt ht)
    have hBT : d.inRange .bt ((64 * w + b) * d.desc.aWpr + t) = true :=
      decide_eq_true (h.length_bt ▸ word_lt hj ht)
    refine (ih (by omega)).tail ⟨rfl, ?_⟩
    rw [xorWords_succ]
    simp only [vecAction, if_pos (show t < d.desc.aWpr from ht), reading, if_pos hA, if_pos hBT, vecTerm]

/-- One turn of the loop over b: enter the loop over t, run it and OR the parity in, or skip the column. -/
theorem VecOperands.column_path (h : VecOperands d i) {b : Nat} (hb : b < 64) (word : Word) :
    QuietPath (vecAction d w i) (.v2 word b)
      (.v2 (if vecBit d i w b then word ||| onehot b else word) (b + 1)) := by
  by_cases hj : 64 * w + b < d.desc.bCols
  · have henter : QuietStep (vecAction d w i) (.v2 word b) (.v2Dot word b 0 0) :=
      ⟨rfl, by simp only [vecAction, if_pos hb, if_pos hj]⟩
    refine ((h.dot_path hj word le_rfl).head henter).tail ⟨rfl, ?_⟩
    rw [← vecAcc_eq]
    simp only [vecAction, lt_irrefl, if_false, or_zextBit_shiftLeft, vecBit, decide_eq_true hj,
      Bool.true_and]
  · refine .single ⟨rfl, ?_⟩
    simp [vecAction, vecBit, hb, hj]

theorem VecOperands.columns_path (h : VecOperands d i) {b : Nat} (hb : b ≤ 64) :
    QuietPath (vecAction d w i) (.v2 0 0) (.v2 (packFirst b (vecBit d i w)) b) := by
  induction b with
  | zero => exact .refl
  | succ b ih =>
    rw [packFirst_succ]
    exact (ih (by omega)).trans (h.column_path hb _)

/-- Inside the problem a work-item goes quietly from V0 to V3 with its word packed. -/
theorem VecOperands.path (h : VecOperands d i) (hw : w < d.desc.cWpr) :
    QuietPath (vecAction d w i) .v0 (.v3 (vecWord d i w)) := by
  have henter : QuietStep (vecAction d w i) .v0 (.v2 0 0) :=
    ⟨rfl, if_neg (by have := h.row_lt; omega)⟩
  rw [vecWord_eq]
  exact ((h.columns_path le_rfl).head henter).tail ⟨rfl, rfl⟩

/-- Settles O53: the quiet path from V0 to V3 and the store, or the exit at V0. -/
theorem vecWorkItemStoresItsWord : Obligations.VecWorkItemStoresItsWord := by
  intro d gi n g it hk hg hit hpos hA hBT hC w i
  have hact : ∀ p, itemAction d g { it with pos := p } = vecAction d w i p := fun p => by
    simp only [itemAction, hk]; rfl
  by_cases hin : i < d.desc.aRows ∧ w < d.desc.cWpr
  · obtain ⟨hi, hw⟩ := hin
    have hpath := VecOperands.path ⟨hA, hBT, hi⟩ hw
    have hq : d.inRange .c (i * d.desc.cWpr + w) = true := decide_eq_true (hC ▸ word_lt hi hw)
    have hstore : vecAction d w i (.v3 (vecWord d i w)) =
        .ok (.store .c (i * d.desc.cWpr + w) (vecWord d i w), .done) := if_pos hq
    rw [if_pos ⟨hi, hw⟩]
    exact hpath.run_to_end hpos hact hg hit rfl hstore fun _ => rfl
  · rw [if_neg hin]
    have hexit : vecAction d w i .v0 = .ok (.quiet, .done) := if_pos (by omega)
    exact QuietPath.run_to_end .refl hpos hact hg hit rfl hexit fun _ => rfl

end Sys2Proof.Machine
end

section
/-! SUPPORT. The sites of MULT's kernel but its barriers (R262 to R264, R266, R268): what a work-item does at
each of them when the buffers have the sizes of the descriptor, and its step of the device. -/

namespace Sys2Proof.Machine

variable {d : Device} {g : Group} {it : WorkItem} {e : Effect} {p q : Pos} {gi n : Nat}

/-- The word that holds the bit of row `r` and column `c` exists in a buffer of `rows` packed rows. -/
theorem Device.inRange_bit {x : Buf} {r c rows cols wpr : Nat} (hlen : (d.buf x).length = rows * wpr)
    (hwpr : wpr = wordsPerRow cols) (hr : r < rows) (hc : c < cols) :
    d.inRange x (r * wpr + c / 64) = true :=
  decide_eq_true (hlen ▸ word_lt hr (hwpr ▸ col_div_lt hc))

/-- The buffers of MULT have the sizes of the descriptor (R208). -/
structure TiledBuffers (d : Device) : Prop where
  length_a : d.bufA.length = d.desc.aRows * d.desc.aWpr
  wpr_a : d.desc.aWpr = wordsPerRow d.desc.aCols
  length_b : d.bufB.length = d.desc.aCols * d.desc.bWpr
  wpr_b : d.desc.bWpr = wordsPerRow d.desc.bCols
  length_c : d.bufC.length = d.desc.aRows * d.desc.cWpr
  wpr_c : d.desc.cWpr = wordsPerRow d.desc.bCols

/-! ### The action at each site -/

theorem tiledAction_t1 (d : Device) (g : Group) (lx ly : Nat) (sum : Bool) (s : Nat) :
    tiledAction d g lx ly (.t1 sum s) =
      .ok (.quiet, if s < (d.desc.aCols + 31) / 32 then .t2 sum s else .t7 sum) :=
  (apply_ite (fun p : Pos => (.ok (.quiet, p) : Action)) ..).symm

/-- T2 writes the bit of A that R263 loads. -/
theorem TiledBuffers.tiledAction_t2 (h : TiledBuffers d) (g : Group) (lx ly : Nat) (sum : Bool)
    (s : Nat) : tiledAction d g lx ly (.t2 sum s) =
      .ok (.tileA ly lx (tileBitA d (g.gy * 32 + ly) (s * 32) lx), .t3 sum s) := by
  by_cases hin : g.gy * 32 + ly < d.desc.aRows ∧ s * 32 + lx < d.desc.aCols
  · have hq := Device.inRange_bit (x := .a) h.length_a h.wpr_a hin.1 hin.2
    simp only [tiledAction, tileBitA, Config.tileW, if_pos hin, reading, if_pos hq, aBit]
  · simp only [tiledAction, tileBitA, Config.tileW, if_neg hin]

/-- T3 writes the bit of B that R264 loads, in transposed placement. -/
theorem TiledBuffers.tiledAction_t3 (h : TiledBuffers d) (g : Group) (lx ly : Nat) (sum : Bool)
    (s : Nat) : tiledAction d g lx ly (.t3 sum s) =
      .ok (.tileB lx ly (tileBitB d (s * 32) ly (g.gx * 32 + lx)), .t4 sum s) := by
  by_cases hin : s * 32 + ly < d.desc.aCols ∧ g.gx * 32 + lx < d.desc.bCols
  · have hq := Device.inRange_bit (x := .b) h.length_b h.wpr_b hin.1 hin.2
    simp only [tiledAction, tileBitB, Config.tileW, if_pos hin, reading, if_pos hq, bBit]
  · simp only [tiledAction, tileBitB, Config.tileW, if_neg hin]

theorem tiledAction_t5 (d : Device) (g : Group) (lx ly : Nat) (sum : Bool) (s t : Nat) :
    tiledAction d g lx ly (.t5 sum s t) =
      .ok (.quiet, if t < 32 then .t5 (sum ^^ (tileCell g.ta ly t && tileCell g.tb lx t)) s (t + 1)
        else .t6 sum s) :=
  (apply_ite (fun p : Pos => (.ok (.quiet, p) : Action)) ..).symm

/-- T7 with `sum` 1 within the result is the fetch-or of R268. -/
theorem TiledBuffers.tiledAction_t7_write (h : TiledBuffers d) {lx ly : Nat} {sum : Bool}
    (hsum : sum = true) (hrow : g.gy * 32 + ly < d.desc.aRows)
    (hcol : g.gx * 32 + lx < d.desc.bCols) :
    tiledAction d g lx ly (.t7 sum) =
      .ok (.fetchOr .c ((g.gy * 32 + ly) * d.desc.cWpr + (g.gx * 32 + lx) / 64)
        (onehot ((g.gx * 32 + lx) % 64)), .done) := by
  have hq := Device.inRange_bit (x := .c) h.length_c h.wpr_c hrow hcol
  exact (if_pos ⟨hsum, hrow, hcol⟩).trans (if_pos hq)

/-! ### The step -/

/-- The step of a work-item of MULT that stands at a site and whose access there is in range. -/
theorem Device.stepItem_tiled (hk : d.kernel = .tiled) (hg : d.groups[gi]? = some g)
    (hit : g.items[n]? = some it) (hp : it.pos = p) (hc : p.canStep = true)
    (ha : tiledAction d g it.lx it.ly p = .ok (e, q)) :
    d.stepItem gi n = .ok { d.apply e with
      groups := d.groups.set gi
        (({ g with items := g.items.set n { it with pos := q } } : Group).apply e) } := by
  subst hp
  exact Device.stepItem_ok hg hit hc ((itemAction_tiled hk g it).trans ha)

/-- Settles O50: the action of each site, carried over the step of the device. -/
theorem tiledSites : Obligations.TiledSites := by
  intro d gi n g it sum s hk hg hit hA hAw hB hBw hC hCw row col moved
  have hbuf : TiledBuffers d := ⟨hA, hAw, hB, hBw, hC, hCw⟩
  refine ⟨fun hp => ?t0, fun hp => ?t1, fun hp => ?t2, fun hp => ?t3, fun t hp => ?t5, fun hp => ?t7⟩
  case t0 => exact Device.stepItem_tiled hk hg hit hp rfl rfl
  case t1 => exact Device.stepItem_tiled hk hg hit hp rfl (tiledAction_t1 ..)
  case t2 => exact Device.stepItem_tiled hk hg hit hp rfl (hbuf.tiledAction_t2 ..)
  case t3 => exact Device.stepItem_tiled hk hg hit hp rfl (hbuf.tiledAction_t3 ..)
  case t5 => exact Device.stepItem_tiled hk hg hit hp rfl (tiledAction_t5 ..)
  case t7 =>
    by_cases hin : sum = true ∧ row < d.desc.aRows ∧ col < d.desc.bCols
    · simp only [if_pos hin]
      obtain ⟨hsum, hrow, hcol⟩ := hin
      exact Device.stepItem_tiled hk hg hit hp rfl (hbuf.tiledAction_t7_write hsum hrow hcol)
    · simp only [if_neg hin]
      exact Device.stepItem_tiled hk hg hit hp rfl (if_neg hin)

end Sys2Proof.Machine
end

section
/-! SUPPORT. Entries of the table of MUL4R as a function of their key (R285, R286): an entry is linear in the
key, and a single-bit key selects one row of B. -/

namespace Sys2Proof.Machine

/-! ### XORs of words -/

theorem xorWords_xor (n : Nat) (f g : Nat → Word) :
    xorWords n (fun t => f t ^^^ g t) = xorWords n f ^^^ xorWords n g :=
  BitVec.eq_of_getLsbD_eq fun b _ => by
    simp only [BitVec.getLsbD_xor, getLsbD_xorWords, xorBits_xor]

/-- An XOR of terms that are 0 but at one index is the term there. -/
theorem xorWords_single {n i : Nat} (hi : i < n) (f : Nat → Word) :
    (xorWords n fun t => if t = i then f t else 0) = f i := by
  obtain ⟨m, rfl⟩ := Nat.exists_eq_add_of_le (show i + 1 ≤ n from hi)
  have hbelow : (xorWords i fun t => if t = i then f t else 0) = xorWords i fun _ => 0 :=
    xorWords_congr fun t ht => if_neg ht.ne
  have habove : (xorWords m fun t => if i + 1 + t = i then f (i + 1 + t) else 0) =
      xorWords m fun _ => 0 :=
    xorWords_congr fun t _ => if_neg (by omega)
  have hzero (k : Nat) : (xorWords k fun _ => 0) = 0 := by
    simpa using xorWords_guard (Nat.zero_le k) fun _ => 0
  rw [xorWords_add, xorWords_succ, hbelow, habove, hzero, hzero, if_pos rfl]
  simp

/-! ### Keys -/

theorem lowestSetBit_lt (key : Nat) : lowestSetBit key < 256 := BitVec.isLt _

/-- The entry of the XOR of two keys is the XOR of their entries (R286). -/
theorem tableEntry_xor (d : Device) (t key key' w : Nat) :
    tableEntry d t (key ^^^ key') w = tableEntry d t key w ^^^ tableEntry d t key' w := by
  rw [tableEntry, tableEntry, tableEntry, ← xorWords_xor]
  refine xorWords_congr fun i _ => ?_
  rw [Nat.testBit_xor]
  by_cases hrow : 8 * t + i < d.desc.aCols
  · cases key.testBit i <;> cases key'.testBit i <;> simp [hrow]
  · simp [hrow]

/-- The entry of a single-bit key is a row of B, or 0 past the last row (R285). -/
theorem tableEntry_two_pow (d : Device) (t w : Nat) {i : Nat} (hi : i < 8) :
    tableEntry d t (2 ^ i) w =
      if 8 * t + i < d.desc.aCols then d.word .b ((8 * t + i) * d.desc.bWpr + w) else 0 := by
  rw [← xorWords_single hi fun i =>
    if 8 * t + i < d.desc.aCols then d.word .b ((8 * t + i) * d.desc.bWpr + w) else 0]
  refine xorWords_congr fun j _ => ?_
  have hbit : (2 ^ i).testBit j = true ↔ j = i := by
    rw [Nat.testBit_two_pow, decide_eq_true_eq, eq_comm]
  exact (if_congr (and_congr_left' hbit) rfl rfl).trans (ite_and ..)

/-- Settles O45: the words of bufT are R288's closed form, which is linear in the key. -/
theorem tableEntriesAfterPhaseOne : Obligations.TableEntriesAfterPhaseOne := by
  intro d hk hT t w ht hw entry
  have hentry : ∀ key, key < 256 → entry key = tableEntry d t key w := fun key hkey =>
    Device.word_runKernel_build hk hT ht hkey hw
  refine ⟨?zero, fun i hi => ?single, fun key _ hkey => ?multi⟩
  case zero => rw [hentry 0 (by decide), tableEntry_zero]
  case single =>
    have hpow : 2 ^ i < 2 ^ 8 := Nat.pow_lt_pow_right (by decide) hi
    rw [hentry _ hpow, tableEntry_two_pow d t w hi]
  case multi =>
    have hlow := lowestSetBit_lt key
    have hrest : key ^^^ lowestSetBit key < 2 ^ 8 := Nat.xor_lt_two_pow hkey hlow
    have hkeys : lowestSetBit key ^^^ (key ^^^ lowestSetBit key) = key := by
      rw [Nat.xor_comm key, Nat.xor_xor_cancel_left]
    rw [hentry _ hkey, hentry _ hlow, hentry _ hrest, ← tableEntry_xor, hkeys]

end Sys2Proof.Machine
end

section
/-! SUPPORT. A work-item of phase 2 of MUL4R from Q0 to its end (R290, R291): the loop over the words of a row
of A, the loop over the chunks of a word, and the store. -/

namespace Sys2Proof.Machine

variable {d : Device} {w i : Nat}

/-! ### The word as the loops build it -/

/-- What the loop over c XORs to `acc` for chunk `c` of word `a` of a row of A, which is `x` (R290, Q2): a
chunk with key 0 is skipped (R291). -/
def m4rTerm (d : Device) (w a : Nat) (x : Word) (c : Nat) : Word :=
  if chunkKey x c = 0 then 0 else d.word .t (tableIndex d.desc (8 * a + c) (chunkKey x c) w)

/-- What one turn of the loop over a XORs to `acc`. -/
def m4rRowTerm (d : Device) (w i a : Nat) : Word :=
  xorWords 8 (m4rTerm d w a (d.word .a (i * d.desc.aWpr + a)))

theorem m4rWord_eq (d : Device) (i w : Nat) :
    m4rWord d i w = xorWords d.desc.aWpr (m4rRowTerm d w i) := rfl

/-! ### The loops -/

/-- The row of A and the table have their words, and (w, i) is in the problem (R290). -/
structure M4rOperands (d : Device) (w i : Nat) : Prop where
  length_a : d.bufA.length = d.desc.aRows * d.desc.aWpr
  length_t : d.bufT.length = 8 * d.desc.aWpr * 256 * d.desc.bWpr
  row_lt : i < d.desc.aRows
  col_lt : w < d.desc.bWpr

/-- One turn of the loop over c: XOR in the table's entry, or skip the chunk. -/
theorem M4rOperands.chunk_step (h : M4rOperands d w i) {a c : Nat} (ha : a < d.desc.aWpr)
    (hc : c < 8) (acc x : Word) :
    QuietStep (m4rAction d w i) (.q2Chunk acc a x c)
      (.q2Chunk (acc ^^^ m4rTerm d w a x c) a x (c + 1)) := by
  refine ⟨rfl, ?_⟩
  by_cases hkey : chunkKey x c = 0
  · simp [m4rAction, m4rTerm, hc, hkey]
  · have hT : d.inRange .t (tableIndex d.desc (8 * a + c) (chunkKey x c) w) = true :=
      decide_eq_true (h.length_t ▸ tableIndex_lt (by omega) (chunkKey_lt x c) h.col_lt)
    simp only [m4rAction, m4rTerm, if_pos hc, if_neg hkey, reading, if_pos hT]

theorem M4rOperands.chunks_path (h : M4rOperands d w i) {a c : Nat} (ha : a < d.desc.aWpr)
    (hc : c ≤ 8) (acc x : Word) :
    QuietPath (m4rAction d w i) (.q2Chunk acc a x 0)
      (.q2Chunk (acc ^^^ xorWords c (m4rTerm d w a x)) a x c) := by
  induction c with
  | zero => simp [Relation.ReflTransGen.refl]
  | succ c ih =>
    rw [xorWords_succ, ← BitVec.xor_assoc]
    exact (ih (by omega)).tail (h.chunk_step ha hc _ x)

/-- One turn of the loop over a: read the word of A and run the loop over its chunks. -/
theorem M4rOperands.word_path (h : M4rOperands d w i) {a : Nat} (ha : a < d.desc.aWpr) (acc : Word) :
    QuietPath (m4rAction d w i) (.q2 acc a) (.q2 (acc ^^^ m4rRowTerm d w i a) (a + 1)) := by
  have hA : d.inRange .a (i * d.desc.aWpr + a) = true :=
    decide_eq_true (h.length_a ▸ word_lt h.row_lt ha)
  have henter : QuietStep (m4rAction d w i) (.q2 acc a)
      (.q2Chunk acc a (d.word .a (i * d.desc.aWpr + a)) 0) :=
    ⟨rfl, by simp only [m4rAction, if_pos ha, reading, if_pos hA]⟩
  exact ((h.chunks_path ha le_rfl acc _).head henter).tail ⟨rfl, rfl⟩

theorem M4rOperands.words_path (h : M4rOperands d w i) {a : Nat} (ha : a ≤ d.desc.aWpr) :
    QuietPath (m4rAction d w i) (.q2 0 0) (.q2 (xorWords a (m4rRowTerm d w i)) a) := by
  induction a with
  | zero => exact .refl
  | succ a ih =>
    rw [xorWords_succ]
    exact (ih (by omega)).trans (h.word_path ha _)

/-- Inside the problem a work-item goes quietly from Q0 to Q3 with its word in `acc`. -/
theorem M4rOperands.path (h : M4rOperands d w i) (hcols : d.desc.cWpr = d.desc.bWpr) :
    QuietPath (m4rAction d w i) .q0 (.q3 (m4rWord d i w)) := by
  have hin : ¬(d.desc.cWpr ≤ w ∨ d.desc.aRows ≤ i) := by
    have hrow := h.row_lt
    have hcol := h.col_lt
    omega
  have henter : QuietStep (m4rAction d w i) .q0 (.q2 0 0) := ⟨rfl, if_neg hin⟩
  rw [m4rWord_eq]
  exact ((h.words_path le_rfl).head henter).tail ⟨rfl, if_neg (lt_irrefl _)⟩

/-- Settles O56: the quiet path from Q0 to Q3 and the store, or the exit at Q0. -/
theorem m4rWorkItemStoresItsWord : Obligations.M4rWorkItemStoresItsWord := by
  intro d gi n g it hk hg hit hpos hA hT hcols hC w i
  have hact : ∀ p, itemAction d g { it with pos := p } = m4rAction d w i p := fun p => by
    simp only [itemAction, hk]; rfl
  by_cases hin : w < d.desc.cWpr ∧ i < d.desc.aRows
  · obtain ⟨hw, hi⟩ := hin
    have hpath := M4rOperands.path ⟨hA, hT, hi, hcols ▸ hw⟩ hcols
    have hq : d.inRange .c (i * d.desc.cWpr + w) = true := decide_eq_true (hC ▸ word_lt hi hw)
    have hstore : m4rAction d w i (.q3 (m4rWord d i w)) =
        .ok (.store .c (i * d.desc.cWpr + w) (m4rWord d i w), .done) := if_pos hq
    rw [if_pos ⟨hw, hi⟩]
    exact hpath.run_to_end hpos hact hg hit rfl hstore fun _ => rfl
  · rw [if_neg hin]
    have hexit : m4rAction d w i .q0 = .ok (.quiet, .done) := if_pos (by omega)
    exact QuietPath.run_to_end .refl hpos hact hg hit rfl hexit fun _ => rfl

end Sys2Proof.Machine
end

section
/-! SUPPORT. The CP and the environment of an idle unit (R351, R371). -/

namespace Sys2Proof.Machine

variable {s : State}

theorem State.runCommand_idle (hb : s.busy = false) : s.runCommand = .next s := by
  simp [State.runCommand, hb]

theorem State.launchCommand_idle (hb : s.busy = false) : s.launchCommand = .next s := by
  simp [State.launchCommand, hb]

theorem State.proceed_of_no_device (hd : s.device = none) : s.proceed = s := by
  simp [State.proceed, hd]

theorem State.deviceFail_of_no_device (hd : s.device = none) : s.deviceFail = s := by
  simp [State.deviceFail, hd]

/-- Settles O17: the CP has no command to run, and there is no dispatch to go on with or to fail. -/
theorem idleUnitKeepsState : Obligations.IdleUnitKeepsState := by
  intro s m rest hb hd hm hs
  rw [step_of_turns hs]
  simp only [List.mem_cons, List.not_mem_nil, or_false] at hm
  obtain rfl | rfl | rfl | rfl := hm
  · exact State.runCommand_idle hb
  · exact State.launchCommand_idle hb
  · exact congrArg Host.Outcome.next (State.proceed_of_no_device hd)
  · exact congrArg Host.Outcome.next (State.deviceFail_of_no_device hd)

end Sys2Proof.Machine
end

section
/-! SUPPORT. OVR: a write of CMD while BUSY = 1 sets it, nothing else does, and only reset clears it (R37,
R343). -/

namespace Sys2Proof.Machine

variable {s t : State} {rest : List Turn}

/-! ### The moves of the host -/

/-- After an access OVR is 1 exactly when it was 1, or the access wrote CMD with a command in flight. -/
theorem State.access_ovr_iff (s : State) (a : HostAccess) : (s.access a).ovr = true ↔
    s.ovr = true ∨ (s.busy = true ∧ ∃ v, a = .write 0x00 v) := by
  cases a with
  | read offset => simp [State.access]
  | write offset v =>
    show (s.writePort offset v).ovr = true ↔ _
    obtain ⟨h0, h⟩ | ⟨h0, h⟩ | ⟨h0, h⟩ | ⟨h0, h⟩ | ⟨h0, h⟩ := s.writePort_cases offset v
    · rw [h]
      cases hb : s.busy with
      | true => simp [State.writeCmd_busy hb, h0]
      | false => simp [State.writeCmd_idle hb]
    iterate 3 rw [h]; simp [h0]
    · have hne : offset ≠ 0x00 := fun e => h0 (by simp [e])
      simp [h, hne]

/-- A statement of the host program keeps OVR at 1. -/
theorem State.hostStep_keeps_ovr (h : s.hostStep = .ok t) (hs : s.ovr = true) : t.ovr = true := by
  unfold State.hostStep at h
  split at h
  case h_2 => cases h; exact hs
  obtain ⟨a, rfl⟩ | ⟨r, a, rfl⟩ | ⟨r, v, a, rfl, -⟩ := State.hostStatement_cases h
  · exact hs
  · exact (s.access_ovr_iff _).mpr (.inl hs)
  · exact (s.access_ovr_iff _).mpr (.inl hs)

/-- A statement of the host program sets OVR only as a write of CMD with a command in flight. -/
theorem State.hostStep_sets_ovr (h : s.hostStep = .ok t) (hs : s.ovr = false) (ht : t.ovr = true) :
    s.busy = true ∧ s.hostWrites .cmd := by
  unfold State.hostStep at h
  split at h
  case h_2 => cases h; simp [hs] at ht
  rename_i st hst
  obtain ⟨a, rfl⟩ | ⟨r, a, rfl⟩ | ⟨r, v, a, rfl, hr⟩ := State.hostStatement_cases h
  · simp [hs] at ht
  · simp [State.access, hs] at ht
  · obtain ho | ⟨hb, w, hw⟩ := (s.access_ovr_iff _).mp ht
    · simp [hs] at ho
    obtain rfl : r = .cmd := by cases r <;> simp [regOffset] at hw ⊢
    exact ⟨hb, st, hst, hr⟩

/-! ### A step -/

/-- A reset clears OVR, or is not possible. -/
theorem State.ovr_of_resetTo {c : Config} (h : (s.resetTo c).ovr = true) : s.ovr = true := by
  obtain ⟨-, ht⟩ | ⟨-, ht⟩ := s.resetTo_cases c
  · rw [ht] at h; cases h
  · rwa [ht] at h

/-- While a command is in flight the host moves only when its move is given (log 8). -/
theorem State.NextTurn.host (h : s.NextTurn .host rest) (hb : s.busy = true) :
    s.turns = .host :: rest := by
  obtain h | ⟨-, -, h⟩ := h
  · exact h
  · obtain hd | ⟨hidle, -⟩ := s.defaultTurn_cases
    · simp [← h, Turn.ofUnit] at hd
    · simp [hb] at hidle

/-- A step keeps OVR at 1, or it is a reset. -/
theorem step_keeps_ovr (hs : s.ovr = true) (h : step s = .next t) :
    t.ovr = true ∨ ∃ c rest, s.turns = .reset c :: rest := by
  obtain ⟨m, rest, hm, (hg | he) | ⟨rfl | ⟨a, rfl⟩, hmove⟩ | ⟨c, rfl, -⟩⟩ := step_next_cases h
  · exact .inl (hg.keepsControl.ovr.trans hs)
  · exact .inl (he.control.ovr.trans hs)
  · exact .inl (State.hostStep_keeps_ovr (outcomeOf_next hmove) hs)
  · cases hmove
    exact .inl ((State.access_ovr_iff _ a).mpr (.inl hs))
  · exact .inr ⟨c, rest, hm.reset⟩

/-- A step that sets OVR is a write of CMD with a command in flight, by an access or by the host
program. -/
theorem step_sets_ovr (hs : s.ovr = false) (h : step s = .next t) (ht : t.ovr = true) :
    s.busy = true ∧ ((∃ v rest, s.turns = .access (.write 0x00 v) :: rest) ∨
      ((∃ rest, s.turns = .host :: rest) ∧ s.hostWrites .cmd)) := by
  obtain ⟨m, rest, hm, (hg | he) | ⟨rfl | ⟨a, rfl⟩, hmove⟩ | ⟨c, -, rfl⟩⟩ := step_next_cases h
  · simp [hg.keepsControl.ovr, hs] at ht
  · simp [he.control.ovr, hs] at ht
  · obtain ⟨hb, hw⟩ := State.hostStep_sets_ovr (outcomeOf_next hmove) hs ht
    exact ⟨hb, .inr ⟨⟨rest, hm.host hb⟩, hw⟩⟩
  · cases hmove
    obtain ho | ⟨hb, v, rfl⟩ := (State.access_ovr_iff _ a).mp ht
    · simp [hs] at ho
    · exact ⟨hb, .inl ⟨v, rest, hm.access⟩⟩
  · simpa [hs] using State.ovr_of_resetTo ht

/-- Settles O7: the write is ignored but for OVR, and every step is a move of the unit, the host or
reset. -/
theorem overrunIsIgnoredAndSticky : Obligations.OverrunIsIgnoredAndSticky := by
  refine ⟨fun s v rest hb hs => ?_, fun s t => step_keeps_ovr, fun s t hs h ht => ?_⟩
  · rw [step_of_turns hs]
    exact congrArg Host.Outcome.next (State.writeCmd_busy (s := { s with turns := rest }) hb v)
  · obtain ⟨hb, hw | ⟨⟨rest, hturns⟩, st, hst, hr⟩⟩ := step_sets_ovr hs h ht
    · exact ⟨hb, .inl hw⟩
    · exact ⟨hb, .inr ⟨rest, st, hturns, hst, hr.symm.imp_left And.right⟩⟩

end Sys2Proof.Machine
end

section
/-! SUPPORT. The error codes of each command (R331): one rule for each shared operation, then one line for
each command. -/

namespace Sys2Proof.Machine

/-- The command that left the state `t` ended without error, or with a code of `codes`. -/
def State.EndsWithin (t : State) (codes : List (BitVec 8)) : Prop :=
  t.errCode = 0 ∨ t.errCode ∈ codes

variable {s : State} {codes : List (BitVec 8)} {d : Device}

/-! ### The shared operations -/

theorem State.withSlot_endsWithin {i : SlotNo} {f : BitMatrix → State} (h5 : 5 ∈ codes)
    (hf : ∀ x, (f x).EndsWithin codes) : (s.withSlot i f).EndsWithin codes := by
  cases hx : s.slot i with
  | none => rw [State.withSlot_none hx]; exact .inr h5
  | some x => rw [State.withSlot_some hx]; exact hf x

theorem State.constructIn_endsWithin {rd : SlotNo} {rows cols : Nat} {build : BitMatrix → BitMatrix}
    (h7 : 7 ∈ codes) : (s.constructIn rd rows cols build).EndsWithin codes := by
  rw [State.constructIn_eq]
  split
  · exact .inl rfl
  · exact .inr h7

/-- A failed dispatch ends the command with DeviceFault (R209). -/
theorem State.failDevice_errCode (s : State) (d : Device) : (s.failDevice d).errCode = 3 := by
  unfold State.failDevice
  split <;> rfl

/-- The last dispatch of a command ends it, without error or with DeviceFault. -/
theorem State.runDispatch_endsWithin (h3 : 3 ∈ codes) (hs : s.device = some d)
    (hk : d.kernel ≠ .m4rBuild) : s.runDispatch.EndsWithin codes := by
  rw [State.runDispatch_some hs]
  split
  · exact .inr (s.failDevice_errCode d ▸ h3)
  · rw [State.afterDispatch_last _ (by simpa using hk)]
    exact .inl rfl

/-- So do the two dispatches of MUL4R. -/
theorem State.runDispatch_runDispatch_endsWithin (h3 : 3 ∈ codes) (hs : s.device = some d)
    (hk : d.kernel = .m4rBuild) : s.runDispatch.runDispatch.EndsWithin codes := by
  rw [State.runDispatch_some hs]
  split
  · rw [State.runDispatch_none (UnitEnd.failDevice s d).completed.no_device]
    exact .inr (s.failDevice_errCode d ▸ h3)
  · rw [State.afterDispatch_build _ (by simpa using hk)]
    exact State.runDispatch_endsWithin h3 rfl (by simp [Device.begin])

/-! ### The multiply commands -/

variable {v : Variant} {rd ra rb : SlotNo}

/-- Every error of the front end (R201) is in the rows of the command: BackendUnavailable in those of every
variant but MULS, which is always ready. -/
theorem errorCode_mem_mulCommand {e : CmdError} (hfault : e ≠ .deviceFault)
    (hillegal : e ≠ .illegalCommand) (hready : v = .muls → e ≠ .backendUnavailable) :
    errorCode e ∈ errorCodes (mulCommand v rd ra rb) := by
  cases e with
  | deviceFault => exact absurd rfl hfault
  | illegalCommand => exact absurd rfl hillegal
  | backendUnavailable =>
    cases v with
    | muls => exact absurd rfl (hready rfl)
    | mulv | mulvg | mult | mul4r => simp [mulCommand, errorCodes, errorCode]
  | shapeMismatch | invalidSlot | aliasedOperands | resourceExhausted =>
    cases v <;> simp [mulCommand, errorCodes, errorCode]

/-- Past the front end MULS and MULV cannot fail, and the GPU variants only by a dispatch. -/
theorem State.product_endsWithin (s : State) (v : Variant) (rd ra rb : SlotNo) (a b : BitMatrix) :
    (s.product v rd a b).EndsWithin (errorCodes (mulCommand v rd ra rb)) := by
  cases v with
  | muls | mulv => exact .inl rfl
  | mulvg =>
    exact State.runDispatch_endsWithin (by simp [mulCommand, errorCodes])
      (s.enterDevice_device .vec rd a b) (by simp)
  | mult =>
    exact State.runDispatch_endsWithin (by simp [mulCommand, errorCodes])
      (s.enterDevice_device .tiled rd a b) (by simp)
  | mul4r =>
    exact State.runDispatch_runDispatch_endsWithin (by simp [mulCommand, errorCodes])
      (s.enterDevice_device .m4rBuild rd a b) (by simp)

theorem exec_mulCommand_endsWithin (v : Variant) (rd ra rb : SlotNo) (s : State) :
    ∃ t, exec (mulCommand v rd ra rb) s = .next t ∧
      t.EndsWithin (errorCodes (mulCommand v rd ra rb)) := by
  refine ⟨_, exec_mulCommand v rd ra rb s, ?_⟩
  obtain ⟨e, he, hfault, hillegal, hready⟩ | ⟨a, b, -, -, -, he⟩ :=
    s.multiply_cases v rd ra rb (s.product v rd)
  · rw [he]; exact .inr (errorCode_mem_mulCommand hfault hillegal hready)
  · rw [he]; exact s.product_endsWithin v rd ra rb a b

/-! ### Every command -/

/-- Every command answers a next state, with a code of its rows. -/
theorem exec_endsWithin (i : Instr) (s : State) :
    ∃ t, exec i s = .next t ∧ t.EndsWithin (errorCodes i) := by
  cases i with
  | malloc rd => exact ⟨_, rfl, State.constructIn_endsWithin (by simp [errorCodes])⟩
  | mtrans rd ra =>
    exact ⟨_, rfl, State.withSlot_endsWithin (by simp [errorCodes]) fun _ =>
      State.constructIn_endsWithin (by simp [errorCodes])⟩
  | meq ra rb =>
    exact ⟨_, rfl, State.withSlot_endsWithin (by simp [errorCodes]) fun _ =>
      State.withSlot_endsWithin (by simp [errorCodes]) fun _ => .inl rfl⟩
  | mfree | mget | mset | mrand | mrdw | mwrw | mdim =>
    exact ⟨_, rfl, State.withSlot_endsWithin (by simp [errorCodes]) fun _ => .inl rfl⟩
  | muls rd ra rb => exact exec_mulCommand_endsWithin .muls rd ra rb s
  | mulv rd ra rb => exact exec_mulCommand_endsWithin .mulv rd ra rb s
  | mulvg rd ra rb => exact exec_mulCommand_endsWithin .mulvg rd ra rb s
  | mult rd ra rb => exact exec_mulCommand_endsWithin .mult rd ra rb s
  | mul4r rd ra rb => exact exec_mulCommand_endsWithin .mul4r rd ra rb s

/-- Settles O22: exec answers one next state, whose code is one of the command's. -/
theorem errorCodesPerCommand : Obligations.ErrorCodesPerCommand := by
  intro i s t h
  obtain ⟨u, hu, hend⟩ := exec_endsWithin i s
  obtain rfl : u = t := by simpa [hu] using h
  exact hend

end Sys2Proof.Machine
end

section
/-! SUPPORT. Every step keeps the configuration or is a reset that fixes it anew; CAPS reads as the
configuration alone (R38, R372). -/

namespace Sys2Proof.Machine

variable {s t : State}

/-- A read of CAPS depends on the configuration alone (R38). -/
theorem State.readPort_caps_of_config (h : t.config = s.config) :
    t.readPort 0x30 = s.readPort 0x30 :=
  congrArg capsWord h

/-- A reset fixes its configuration, or is not possible and changes no configuration (R39, R57). -/
theorem State.resetTo_config (s : State) (c : Config) :
    (s.resetTo c).config = c ∨ (s.resetTo c).config = s.config := by
  obtain ⟨-, ht⟩ | ⟨-, ht⟩ := s.resetTo_cases c
  · exact .inl (by rw [ht]; rfl)
  · exact .inr (by rw [ht])

/-- A step keeps the configuration, or is a reset that fixes its own. -/
theorem step_config (h : step s = .next t) :
    t.config = s.config ∨ ∃ c rest, s.turns = .reset c :: rest ∧ t.config = c := by
  obtain ⟨m, rest, hm, (hg | he) | ⟨hh, hmove⟩ | ⟨c, rfl, rfl⟩⟩ := step_next_cases h
  · exact .inl hg.keepsControl.config
  · exact .inl he.control.config
  · exact .inl (State.move_host_keepsUnit hh hmove).config
  · obtain hc | hs := State.resetTo_config { s with turns := rest } c
    · exact .inr ⟨c, rest, hm.reset, hc⟩
    · exact .inl hs

/-- Settles O14: a step that keeps the configuration keeps the value of CAPS with it. -/
theorem configurationConstantUntilReset : Obligations.ConfigurationConstantUntilReset :=
  fun _ _ h => (step_config h).imp_left fun hc => ⟨hc, State.readPort_caps_of_config hc⟩

end Sys2Proof.Machine
end

section
/-! SUPPORT. The sample words of the test vectors (spec/95_test_vectors.md 2.1). -/

namespace Sys2Proof

/-- Settles O5: the decoder evaluated on each word. -/
theorem sampleWordsDecode : Obligations.SampleWordsDecode := by
  unfold Obligations.SampleWordsDecode
  decide

end Sys2Proof
end

section
/-! SUPPORT. The facts about lanes, dot products and the table of MUL4R that claims name (R241, R243, R292). -/

namespace Sys2Proof.Machine

/-- Settles O43: the wide steps, the lanes' XOR and the remainder together run over all words. -/
theorem lanesDoNotMatter : Obligations.LanesDoNotMatter := fun l W f => simdXor_eq l.count W f

/-- Settles O44: `parity_dot_transpose`, with the words of a row by the layout of R42. -/
theorem dotParityIsProduct : Obligations.DotParityIsProduct := by
  intro a b ha _ hab i j hi hj
  rw [(a.wf_iff.mp ha).1]
  exact parity_dot_transpose ha hab hi hj

/-- Settles O46: the chunks of a row of A run over its columns, and past them select nothing. -/
theorem tableLookupIsRowCombination : Obligations.TableLookupIsRowCombination :=
  fun _ hk hA hT i _ hw => m4rWord_runKernel_build_eq hk hA hT i hw

end Sys2Proof.Machine
end

section
/-! SUPPORT. Each multiply command leaves the product (R203), and the algebraic laws of products (R212). -/

namespace Sys2Proof.Machine

/-- Settles O35: past its checks MULS commits the double loop of Sets (R230). -/
theorem mulsComputesProduct : Obligations.MulsComputesProduct :=
  fun _ _ _ _ _ _ hm h => ⟨_, h.exec, h.muls_product hm⟩

/-- Settles O36: the lanes compute the dot products of the rows (R241, R243). -/
theorem mulvComputesProduct : Obligations.MulvComputesProduct :=
  fun _ _ _ _ _ _ hm h => ⟨_, h.exec, h.mulv_product hm⟩

/-- Settles O37: the words of the dispatch are the packed dot products (R245). -/
theorem mulvgComputesProduct : Obligations.MulvgComputesProduct :=
  fun _ _ _ _ _ _ hm h hok => ⟨_, h.exec, h.mulvg_product hm hok⟩

/-- Settles O38: the tile steps run over the columns of A (R266, R270). -/
theorem multComputesProduct : Obligations.MultComputesProduct :=
  fun _ _ _ _ _ _ hm h hok => ⟨_, h.exec, h.mult_product hm hok⟩

/-- Settles O39: phase 2 combines the rows of B that a row of A selects (R292). -/
theorem mul4rComputesProduct : Obligations.Mul4rComputesProduct :=
  fun _ _ _ _ _ _ hm h hok hok' => ⟨_, h.exec, h.mul4r_product hm hok hok'⟩

/-! ### Identity and zero operands (R212) -/

variable {a b : BitMatrix} {i j : Nat}

/-- An XOR of terms that are 0 but at one index is the term there. -/
theorem xorBits_single {n i : Nat} (hi : i < n) (f : Nat → Bool) :
    (xorBits n fun t => decide (t = i) && f t) = f i := by
  rw [xorBits_extend (show i + 1 ≤ n from hi) _ fun t ht => by simp [show t ≠ i by omega],
    xorBits_succ, xorBits_congr (g := fun _ => false) fun t ht => by simp [ht.ne], xorBits_false]
  simp

theorem prodBit_identity_left (hi : i < a.cols)
    (h : ∀ t, t < a.cols → a.get i t = decide (i = t)) : prodBit a b i j = b.get i j := by
  rw [← xorBits_single hi fun t => b.get t j]
  exact xorBits_congr fun t ht => by rw [h t ht, decide_eq_decide.mpr eq_comm]

theorem prodBit_identity_right (hj : j < a.cols)
    (h : ∀ t, t < a.cols → b.get t j = decide (t = j)) : prodBit a b i j = a.get i j := by
  rw [← xorBits_single hj (a.get i)]
  exact xorBits_congr fun t ht => by rw [h t ht, Bool.and_comm]

theorem prodBit_zero (h : ∀ t, t < a.cols → (a.get i t && b.get t j) = false) :
    prodBit a b i j = false :=
  (xorBits_congr h).trans (xorBits_false _)

/-- Settles O41: every variant leaves Prod(A, B), whose bits the laws are about. -/
theorem algebraicLawsOfProducts : Obligations.AlgebraicLawsOfProducts := by
  intro v rd ra rb s a b hm hf h
  obtain ⟨t, ht, hstate⟩ := h.exec_product hm hf
  obtain ⟨c, hc, hrows, hcols, -, -, hbits, -⟩ := hstate.result_matrix
  have hab := h.shapes
  refine ⟨t, c, ht, hc, hrows, hcols, fun hsq hid => ?_, fun hsq hid => ?_, fun hzero i j hi hj => ?_⟩
  · refine (sameBits_iff c b).mpr ⟨by omega, hcols, fun i j hi hj => ?_⟩
    rw [hbits i j (hrows ▸ hi) (hcols ▸ hj)]
    exact prodBit_identity_left (by omega) (hid i · (hrows ▸ hi))
  · refine (sameBits_iff c a).mpr ⟨hrows, by omega, fun i j hi hj => ?_⟩
    rw [hbits i j (hrows ▸ hi) (hcols ▸ hj)]
    exact prodBit_identity_right (by omega) fun t ht => hid t j (by omega) (by omega)
  · rw [hbits i j hi hj]
    refine prodBit_zero fun t ht => ?_
    obtain ha | hb | hk := hzero
    · rw [ha, Bool.false_and]
    · rw [hb, Bool.and_false]
    · omega

end Sys2Proof.Machine
end

section
/-! SUPPORT. MRAND and MTRANS (R157 to R159): the drawn words, and the shape, bits and padding of a
transpose. -/

namespace Sys2Proof.Machine

/-- What a command that is no query leaves beside its own slot (R33, R36, R47). -/
theorem CommandEnd.frame {i : Instr} {s t : State} {rd : SlotNo} {code : BitVec 8}
    (h : CommandEnd i s t) (hd : destSlot i = some rd) (hq : isQuery i = false)
    (hc : t.errCode = code) :
    Completed t code ∧ KeepsOtherSlots s t rd ∧ t.result = s.result ∧ KeepsControl s t := by
  subst hc
  exact ⟨h.completed, fun j hj => h.slots j fun e => hj (Option.some.inj (hd.symm.trans e)).symm,
    h.result_eq hq, h.control⟩

/-! ### MRAND (R157) -/

/-- Word `q` of drawn words is draw number `base + q`. -/
theorem getD_drawWords {base n q : Nat} (hq : q < n) :
    (drawWords base n).getD q 0 = Config.draw64 (base + q) := by
  simp [drawWords, hq]

/-- Settles O28: each word of the slot is replaced by its own draw. -/
theorem mrandDrawsEveryWord : Obligations.MrandDrawsEveryWord := by
  refine ⟨fun _ => decode_of_matches (Instr.mrand 0).row_mem, fun rd s =>
    ⟨fun x hx => ?_, fun hx => ?_⟩⟩
  · have hexec : exec (.mrand rd) s =
        .next (({ s with draws := s.draws + x.words } : State).finishWith rd
          { x with data := drawWords s.draws x.words }) := exec_of_valid rfl hx rfl
    exact ⟨_, _, hexec, State.slot_finishWith_self _ rd _, rfl, rfl, rfl, length_drawWords ..,
      fun _ hq => getD_drawWords hq, rfl, (commandEnd_of_exec hexec).frame rfl rfl rfl⟩
  · have hexec : exec (.mrand rd) s = .next (s.raise .invalidSlot) :=
      congrArg Host.Outcome.next (State.withSlot_none hx _)
    obtain ⟨hcompleted, hslots, hresult, hcontrol⟩ := s.raise_frame .invalidSlot
    exact ⟨_, hexec, hcompleted, hslots, hresult, hcontrol, rfl⟩

/-! ### MTRANS (R158, R159) -/

/-- No padding bit of a transpose is set: a set bit of the last word of a row is that of a valid column. -/
theorem getLsbD_transpose_padding (x : BitMatrix) {c p : Nat} (hp : x.rows % 64 ≤ p) (hp64 : p < 64)
    (hpad : x.rows % 64 ≠ 0) :
    ((transpose x).memRead (c * wordsPerRow x.rows + (wordsPerRow x.rows - 1))).getLsbD p =
      false := by
  obtain ⟨-, -, -, -, hset⟩ := transpose_spec x
  rw [← Bool.not_eq_true]
  intro hbit
  obtain ⟨c', r, -, hr, hq, rfl⟩ := hset _ _ hp64 hbit
  have hwpr := wordsPerRow_eq x.rows
  obtain ⟨-, hdiv⟩ := word_index_inj (by omega) (col_div_lt hr) hq
  omega

/-- Transposing twice changes no valid bit. -/
theorem sameBits_transpose_transpose (x : BitMatrix) :
    sameBits x (transpose (transpose x)) = true := by
  obtain ⟨hrows, hcols, -, hget, -⟩ := transpose_spec x
  obtain ⟨hrows', hcols', -, hget', -⟩ := transpose_spec (transpose x)
  exact (sameBits_iff _ _).mpr ⟨(hrows'.trans hcols).symm, (hcols'.trans hrows).symm,
    fun r c _ _ => by rw [hget', hget]⟩

theorem exec_mtrans {ra : SlotNo} {s : State} {x : BitMatrix} (hx : s.slot ra = some x)
    (rd : SlotNo) : exec (.mtrans rd ra) s =
      if x.cols ≤ s.config.maxDim ∧ x.rows ≤ s.config.maxDim ∧
          s.usage - s.slotWords rd + x.cols * ((x.rows + 63) / 64) ≤ s.config.hostMemWords then
        .next (s.finishWith rd (transpose x))
      else .next (s.raise .resourceExhausted) := by
  rw [← apply_ite Host.Outcome.next]
  exact exec_of_valid rfl hx (s.constructIn_eq rd x.cols x.rows fun _ => transpose x)

/-- Settles O29: MTRANS constructs the transpose exactly when the bounds hold. -/
theorem mtransTransposes : Obligations.MtransTransposes := by
  refine ⟨fun _ => decode_of_matches (Instr.mtrans 0 0).row_mem, fun rd ra s x hx =>
    ⟨fun hcols hrows hfits => ?_, fun hover => ?_⟩, fun rd ra s => exec_of_invalid rfl,
    sameBits_transpose_transpose⟩
  · have hexec := (exec_mtrans hx rd).trans (if_pos ⟨hcols, hrows, hfits⟩)
    obtain ⟨hrows', hcols', hwf, hget, -⟩ := transpose_spec x
    refine ⟨_, _, hexec, s.slot_finishWith_self rd _, hrows', hcols', hwf, hget,
      fun c p _ hpad hp hp64 => ?_, s.finishWith_frame rd _⟩
    rw [hcols'] at hpad hp
    rw [((transpose x).wf_iff.mp hwf).1, hcols']
    exact getLsbD_transpose_padding x hp hp64 hpad
  · have hexec := (exec_mtrans hx rd).trans (if_neg (by omega))
    exact ⟨_, hexec, s.raise_frame .resourceExhausted⟩

end Sys2Proof.Machine
end

section
/-! SUPPORT. The counts of draws and dispatches never go back (R18, log 3, log 4). -/

namespace Sys2Proof.Machine

/-- Neither the count of draws nor that of dispatches is lower in `t` than in `s`. -/
structure CountsUp (s t : State) : Prop where
  draws : s.draws ≤ t.draws
  dispatches : s.dispatches ≤ t.dispatches

variable {s t : State}

theorem CountsUp.refl (s : State) : CountsUp s s := ⟨le_rfl, le_rfl⟩

theorem CountsUp.trans {u : State} (h : CountsUp s t) (h' : CountsUp t u) : CountsUp s u :=
  ⟨h.draws.trans h'.draws, h.dispatches.trans h'.dispatches⟩

/-! ### The operations that count -/

theorem State.raise_countsUp (s : State) (e : CmdError) : CountsUp s (s.raise e) := ⟨le_rfl, le_rfl⟩

theorem State.commitProduct_countsUp (s : State) (rd : SlotNo) (m n : Nat) (data : List Word) :
    CountsUp s (s.commitProduct rd m n data) := by
  refine ⟨?_, le_rfl⟩
  show s.draws ≤ if n % 64 = 0 then s.draws else s.draws + m
  split
  · exact le_rfl
  · exact Nat.le_add_right _ _

theorem State.failDevice_countsUp (s : State) (d : Device) : CountsUp s (s.failDevice d) := by
  unfold State.failDevice
  split
  · exact s.raise_countsUp _
  · exact ⟨Nat.le_add_right _ _, le_rfl⟩

theorem State.afterDispatch_countsUp (s : State) (d : Device) : CountsUp s (s.afterDispatch d) := by
  by_cases hk : d.kernel = .m4rBuild
  · rw [s.afterDispatch_build hk]
    exact ⟨le_rfl, Nat.le_succ _⟩
  · rw [s.afterDispatch_last hk]
    exact s.commitProduct_countsUp ..

theorem State.runDispatch_countsUp (s : State) : CountsUp s s.runDispatch := by
  cases hd : s.device with
  | none => rw [State.runDispatch_none hd]; exact .refl s
  | some d =>
    rw [State.runDispatch_some hd]
    split
    · exact s.failDevice_countsUp d
    · exact s.afterDispatch_countsUp _

theorem State.enterDevice_countsUp (s : State) (k : Kernel) (rd : SlotNo) (a b : BitMatrix) :
    CountsUp s (s.enterDevice k rd a b) := ⟨le_rfl, Nat.le_succ _⟩

theorem State.product_countsUp (s : State) (v : Variant) (rd : SlotNo) (a b : BitMatrix) :
    CountsUp s (s.product v rd a b) := by
  have hone (k : Kernel) : CountsUp s (s.enterDevice k rd a b).runDispatch :=
    (s.enterDevice_countsUp k rd a b).trans (State.runDispatch_countsUp _)
  cases v with
  | muls | mulv => exact s.commitProduct_countsUp ..
  | mulvg => exact hone .vec
  | mult => exact hone .tiled
  | mul4r => exact (hone .m4rBuild).trans (State.runDispatch_countsUp _)

/-! ### Every command -/

/-- No draw is taken and no dispatch begun. -/
def KeepsCounts (s t : State) : Prop := t.draws = s.draws ∧ t.dispatches = s.dispatches

/-- The commands that take draws: MRAND and the multiplies. -/
def TakesDraws (i : Instr) : Prop :=
  (∃ rd, i = .mrand rd) ∨ ∃ v rd ra rb, i = mulCommand v rd ra rb

theorem exec_mulCommand_countsUp (v : Variant) (rd ra rb : SlotNo)
    (h : exec (mulCommand v rd ra rb) s = .next t) : CountsUp s t := by
  rw [exec_mulCommand] at h
  cases h
  exact State.multiply_rule s.raise_countsUp fun a b _ _ _ => s.product_countsUp v rd a b

/-- The counts go up only in a command that takes draws. -/
theorem exec_counts {i : Instr} (h : exec i s = .next t) :
    KeepsCounts s t ∨ (TakesDraws i ∧ CountsUp s t) := by
  have hraise (e) : KeepsCounts s (s.raise e) := ⟨rfl, rfl⟩
  have hmul (v rd ra rb) (h : exec (mulCommand v rd ra rb) s = .next t) :
      KeepsCounts s t ∨ (TakesDraws (mulCommand v rd ra rb) ∧ CountsUp s t) :=
    .inr ⟨.inr ⟨v, rd, ra, rb, rfl⟩, exec_mulCommand_countsUp v rd ra rb h⟩
  cases i with
  | malloc rd =>
    cases h
    exact .inl (State.constructIn_rule hraise fun _ _ _ => ⟨rfl, rfl⟩)
  | mtrans rd ra =>
    cases h
    exact .inl (State.withSlot_rule hraise fun _ _ =>
      State.constructIn_rule hraise fun _ _ _ => ⟨rfl, rfl⟩)
  | meq ra rb =>
    cases h
    exact .inl (State.withSlot_rule hraise fun _ _ =>
      State.withSlot_rule hraise fun _ _ => ⟨rfl, rfl⟩)
  | mfree | mget | mset | mrdw | mwrw | mdim =>
    cases h
    exact .inl (State.withSlot_rule hraise fun _ _ => ⟨rfl, rfl⟩)
  | mrand rd =>
    cases h
    exact .inr ⟨.inl ⟨rd, rfl⟩, State.withSlot_rule s.raise_countsUp fun _ _ =>
      ⟨Nat.le_add_right _ _, le_rfl⟩⟩
  | muls rd ra rb => exact hmul .muls rd ra rb h
  | mulv rd ra rb => exact hmul .mulv rd ra rb h
  | mulvg rd ra rb => exact hmul .mulvg rd ra rb h
  | mult rd ra rb => exact hmul .mult rd ra rb h
  | mul4r rd ra rb => exact hmul .mul4r rd ra rb h

theorem exec_countsUp {i : Instr} (h : exec i s = .next t) : CountsUp s t := by
  obtain ⟨hdraws, hdispatches⟩ | ⟨-, hup⟩ := exec_counts h
  · exact ⟨hdraws.ge, hdispatches.ge⟩
  · exact hup

/-! ### Every move -/

theorem State.access_countsUp (s : State) (a : HostAccess) : CountsUp s (s.access a) := by
  cases a with
  | read offset => exact ⟨le_rfl, le_rfl⟩
  | write offset v =>
    show CountsUp s (s.writePort offset v)
    obtain ⟨-, h⟩ | ⟨-, h⟩ | ⟨-, h⟩ | ⟨-, h⟩ | ⟨-, h⟩ := s.writePort_cases offset v
    · rw [h]
      cases hb : s.busy with
      | true => rw [State.writeCmd_busy hb]; exact ⟨le_rfl, le_rfl⟩
      | false => rw [State.writeCmd_idle hb]; exact ⟨le_rfl, le_rfl⟩
    all_goals rw [h]; exact ⟨le_rfl, le_rfl⟩

theorem State.hostStep_countsUp (h : s.hostStep = .ok t) : CountsUp s t := by
  unfold State.hostStep at h
  split at h
  case h_2 => cases h; exact .refl s
  obtain ⟨a, rfl⟩ | ⟨r, a, rfl⟩ | ⟨r, v, a, rfl, -⟩ := State.hostStatement_cases h
  · exact ⟨le_rfl, le_rfl⟩
  · exact ⟨(s.access_countsUp _).draws, (s.access_countsUp _).dispatches⟩
  · exact ⟨(s.access_countsUp _).draws, (s.access_countsUp _).dispatches⟩

theorem State.resetTo_countsUp (s : State) (c : Config) : CountsUp s (s.resetTo c) := by
  obtain ⟨-, h⟩ | ⟨-, h⟩ := s.resetTo_cases c
  · rw [h]; exact ⟨le_rfl, le_rfl⟩
  · rw [h]; exact .refl s

theorem State.runCommand_countsUp (h : s.runCommand = .next t) : CountsUp s t := by
  unfold State.runCommand at h
  split at h
  case isFalse => cases h; exact .refl s
  split at h
  · exact exec_countsUp h
  · cases h; exact ⟨le_rfl, le_rfl⟩

theorem State.launchCommand_countsUp (h : s.launchCommand = .next t) : CountsUp s t := by
  obtain rfl | h | ⟨-, -, v, k, rd, ra, rb, -, rfl⟩ := State.launchCommand_cases h
  · exact .refl _
  · exact State.runCommand_countsUp h
  · exact State.multiply_rule s.raise_countsUp fun a b _ _ _ =>
      s.enterDevice_countsUp k rd a b

theorem State.move_countsUp {m : Turn} (h : s.move m = .next t) : CountsUp s t := by
  cases m with
  | access a => cases h; exact s.access_countsUp a
  | host => exact State.hostStep_countsUp (outcomeOf_next h)
  | reset c => cases h; exact s.resetTo_countsUp c
  | command => exact State.runCommand_countsUp h
  | launch => exact State.launchCommand_countsUp h
  | workItem g n | barrier g => rw [State.onDevice_frame h]; exact ⟨le_rfl, le_rfl⟩
  | proceed =>
    cases h
    unfold State.proceed
    split
    · exact .refl s
    split
    · exact s.afterDispatch_countsUp _
    · exact .refl s
  | deviceFail =>
    cases h
    unfold State.deviceFail
    split
    · exact .refl s
    split
    · exact s.failDevice_countsUp _
    · exact .refl s

/-- Settles O21: every move keeps the counts up, and the arms of exec without draws keep them equal. -/
theorem drawsAreFresh : Obligations.DrawsAreFresh := by
  refine ⟨fun s t h => ?_, fun i s t h hne => ?_⟩
  · obtain ⟨m, rest, -, hm⟩ := step_cases s
    have hup := State.move_countsUp (hm ▸ h)
    exact ⟨hup.draws, hup.dispatches⟩
  · obtain ⟨hdraws, -⟩ | ⟨htakes, -⟩ := exec_counts h
    · exact absurd hdraws hne
    · exact htakes

end Sys2Proof.Machine
end

section
/-! SUPPORT. What a failed dispatch leaves (R209), when a multiply has one, and that every other failure
changes nothing but STATUS (R340). -/

namespace Sys2Proof.Machine

/-! ### A failed dispatch -/

/-- A command into `rd` ended with a dispatch that the environment failed: each data word of a valid RD is a
draw, and the draws are used up (R209). -/
structure DispatchFailed (s t : State) (rd : SlotNo) : Prop where
  errCode : t.errCode = 3
  draws : t.draws = s.draws + s.slotWords rd
  invalid : s.slot rd = none → t.slot rd = none
  drawn : ∀ x, s.slot rd = some x → ∃ y, t.slot rd = some y ∧ y.rows = x.rows ∧ y.cols = x.cols ∧
    y.wpr = x.wpr ∧ y.data.length = x.rows * x.wpr ∧
    ∀ q, q < x.rows * x.wpr → y.memRead q = Config.draw64 (s.draws + q)

variable {s t : State} {d : Device} {v : Variant} {k : Kernel} {rd ra rb : SlotNo} {a b : BitMatrix}

theorem State.failDevice_of_none (hd : s.slot d.dest = none) :
    s.failDevice d = s.raise .deviceFault := by
  simp [State.failDevice, hd]

theorem State.failDevice_of_some {x : BitMatrix} (hd : s.slot d.dest = some x) : s.failDevice d =
    (({ s with draws := s.draws + x.words } : State).setSlot d.dest
      (some { x with data := drawWords s.draws x.words })).raise .deviceFault := by
  simp [State.failDevice, hd]

theorem State.failDevice_failed (s : State) (d : Device) :
    DispatchFailed s (s.failDevice d) d.dest := by
  refine ⟨s.failDevice_errCode d, ?_, fun hd => ?_, fun x hx => ?_⟩
  · rw [State.slotWords_eq]
    cases hd : s.slot d.dest with
    | none => rw [State.failDevice_of_none hd]; rfl
    | some x => rw [State.failDevice_of_some hd]; rfl
  · rw [State.failDevice_of_none hd]; exact hd
  · rw [State.failDevice_of_some hx]
    exact ⟨_, State.slot_setSlot_self _ d.dest _, rfl, rfl, rfl, length_drawWords ..,
      fun _ hq => getD_drawWords hq⟩

theorem State.failDevice_dispatches (s : State) (d : Device) :
    (s.failDevice d).dispatches = s.dispatches := by
  unfold State.failDevice
  split <;> rfl

/-- The device phase before the failure is no part of what it leaves. -/
theorem DispatchFailed.of_phase {temp : Option BitMatrix} {device : Option Device}
    {dispatches : Nat} (h : DispatchFailed { s with temp, device, dispatches } t rd) :
    DispatchFailed s t rd := ⟨h.errCode, h.draws, h.invalid, h.drawn⟩

/-! ### The dispatches of a GPU multiply -/

/-- Whether the environment fails one of the dispatches that a GPU multiply begins. -/
def State.failsMultiply (s : State) (v : Variant) : Bool :=
  dispatchFails s.config s.dispatches ||
    (v == .mul4r && dispatchFails s.config (s.dispatches + 1))

/-- A GPU multiply has ended: the outcome is that of its dispatches, of which MUL4R begins two unless the
first fails. -/
structure GpuOutcome (s t : State) (v : Variant) (rd : SlotNo) : Prop where
  failed : s.failsMultiply v = true → DispatchFailed s t rd
  succeeded : s.failsMultiply v = false → t.errCode = 0
  dispatches : t.dispatches = s.dispatches +
    if v = .mul4r ∧ dispatchFails s.config s.dispatches = false then 2 else 1

/-- The end of the last dispatch of a command. -/
theorem State.runDispatch_last (hs : s.device = some d) (hk : d.kernel ≠ .m4rBuild) :
    (dispatchFails s.config d.dispatchNo = true → DispatchFailed s s.runDispatch d.dest) ∧
      (dispatchFails s.config d.dispatchNo = false → s.runDispatch.errCode = 0) ∧
      s.runDispatch.dispatches = s.dispatches := by
  rw [State.runDispatch_some hs]
  cases hf : dispatchFails s.config d.dispatchNo with
  | true => exact ⟨fun _ => s.failDevice_failed d, nofun, s.failDevice_dispatches d⟩
  | false =>
    refine ⟨nofun, fun _ => ?_, ?_⟩ <;>
      rw [if_neg (by decide), State.afterDispatch_last _ (by simpa using hk)] <;> rfl

theorem State.enterDevice_outcome (s : State) (hk : k ≠ .m4rBuild) (hv : v ≠ .mul4r) :
    GpuOutcome s (s.enterDevice k rd a b).runDispatch v rd := by
  obtain ⟨hfailed, hok, hn⟩ := State.runDispatch_last (s.enterDevice_device k rd a b) hk
  rw [launchedDevice_dest] at hfailed
  have hfails : s.failsMultiply v = dispatchFails s.config s.dispatches := by
    simp [State.failsMultiply, hv]
  refine ⟨fun hf => ?_, fun hf => hok (hfails ▸ hf), ?_⟩
  · exact .of_phase (hfailed (hfails ▸ hf))
  · rw [hn, if_neg fun h => hv h.1]; rfl

/-- After a failed first dispatch MUL4R begins no second one (R209). -/
theorem State.enterDevice_build_failed (hf : dispatchFails s.config s.dispatches = true) :
    (s.enterDevice .m4rBuild rd a b).runDispatch.runDispatch =
      (s.enterDevice .m4rBuild rd a b).failDevice (launchedDevice .m4rBuild rd a b s.dispatches) := by
  have hfirst : (s.enterDevice .m4rBuild rd a b).runDispatch =
      (s.enterDevice .m4rBuild rd a b).failDevice (launchedDevice .m4rBuild rd a b s.dispatches) :=
    (State.runDispatch_some (s.enterDevice_device .m4rBuild rd a b)).trans (if_pos hf)
  rw [hfirst, State.runDispatch_none (UnitEnd.failDevice _ _).completed.no_device]

theorem State.enterDevice_build_outcome (s : State) :
    GpuOutcome s (s.enterDevice .m4rBuild rd a b).runDispatch.runDispatch .mul4r rd := by
  cases hf : dispatchFails s.config s.dispatches with
  | true =>
    rw [State.enterDevice_build_failed hf]
    have hfailed := (s.enterDevice .m4rBuild rd a b).failDevice_failed
      (launchedDevice .m4rBuild rd a b s.dispatches)
    rw [launchedDevice_dest] at hfailed
    refine ⟨fun _ => .of_phase hfailed, fun h => ?_, ?_⟩
    · simp [State.failsMultiply, hf] at h
    · rw [State.failDevice_dispatches]; simp [hf, State.enterDevice]
  | false =>
    rw [State.runDispatch_enterDevice_build hf]
    obtain ⟨hfailed, hok, hn⟩ := State.runDispatch_last (s := { s with
      temp := none
      device := some (secondDevice rd a b s.dispatches (s.dispatches + 1))
      dispatches := s.dispatches + 1 + 1 }) rfl (show Kernel.m4rMul ≠ .m4rBuild by decide)
    have hdest : (secondDevice rd a b s.dispatches (s.dispatches + 1)).dest = rd :=
      (Device.dest_runKernel _).trans (launchedDevice_dest ..)
    rw [hdest] at hfailed
    have hfails : s.failsMultiply .mul4r = dispatchFails s.config (s.dispatches + 1) := by
      simp [State.failsMultiply, hf]
    exact ⟨fun h => .of_phase (hfailed (hfails ▸ h)), fun h => hok (hfails ▸ h), by simp [hn, hf]⟩

theorem GpuKernel.outcome (hk : GpuKernel v k) (s : State) (rd : SlotNo) (a b : BitMatrix) :
    GpuOutcome s (s.product v rd a b) v rd := by
  cases hk with
  | mulvg => exact s.enterDevice_outcome (by decide) (by decide)
  | mult => exact s.enterDevice_outcome (by decide) (by decide)
  | mul4r => exact s.enterDevice_build_outcome

/-! ### Every command -/

/-- A product is left without error, or a dispatch has failed, which needs DEVICE_FAULTS = 1. -/
theorem State.product_cases (s : State) (v : Variant) (rd : SlotNo) (a b : BitMatrix) :
    (s.product v rd a b).errCode = 0 ∨
      (s.config.deviceFaults = true ∧ DispatchFailed s (s.product v rd a b) rd) := by
  have hgpu {k : Kernel} (hk : GpuKernel v k) : (s.product v rd a b).errCode = 0 ∨
      (s.config.deviceFaults = true ∧ DispatchFailed s (s.product v rd a b) rd) := by
    obtain ⟨hfailed, hok, -⟩ := hk.outcome s rd a b
    cases hf : s.failsMultiply v with
    | false => exact .inl (hok hf)
    | true =>
      refine .inr ⟨?_, hfailed hf⟩
      by_contra hno
      simp [State.failsMultiply, dispatchFails_of_no_faults (by simpa using hno)] at hf
  cases v with
  | muls | mulv => exact .inl rfl
  | mulvg => exact hgpu .mulvg
  | mult => exact hgpu .mult
  | mul4r => exact hgpu .mul4r

theorem destSlot_mulCommand (v : Variant) (rd ra rb : SlotNo) :
    destSlot (mulCommand v rd ra rb) = some rd := by cases v <;> rfl

theorem isQuery_mulCommand (v : Variant) (rd ra rb : SlotNo) :
    isQuery (mulCommand v rd ra rb) = false := by cases v <;> rfl

/-- The ways for a multiply to end: without error, with an error of its front end, or with a failed
dispatch. -/
theorem exec_mulCommand_cases (h : exec (mulCommand v rd ra rb) s = .next t) :
    t.errCode = 0 ∨ (∃ e, e ≠ .deviceFault ∧ t = s.raise e) ∨
      (s.config.deviceFaults = true ∧ DispatchFailed s t rd) := by
  rw [exec_mulCommand] at h
  cases h
  obtain ⟨e, he, hfault, -⟩ | ⟨a, b, -, -, -, he⟩ := s.multiply_cases v rd ra rb (s.product v rd)
  · exact .inr (.inl ⟨e, hfault, he⟩)
  · rw [he]
    exact (s.product_cases v rd a b).imp_right .inr

/-- Command `i` has ended without error, with an error raised before anything was changed, or with a failed
dispatch. -/
def EndsPrecisely (i : Instr) (s t : State) : Prop :=
  t.errCode = 0 ∨ (∃ e, t = s.raise e) ∨ ∃ rd, destSlot i = some rd ∧ DispatchFailed s t rd

theorem exec_endsPrecisely {i : Instr} (h : exec i s = .next t) : EndsPrecisely i s t := by
  have hraise (e) : EndsPrecisely i s (s.raise e) := .inr (.inl ⟨e, rfl⟩)
  have hmul (v rd ra rb) (h : exec (mulCommand v rd ra rb) s = .next t) :
      EndsPrecisely (mulCommand v rd ra rb) s t :=
    (exec_mulCommand_cases h).imp_right <| Or.imp (fun ⟨e, _, he⟩ => ⟨e, he⟩)
      fun ⟨_, hf⟩ => ⟨rd, destSlot_mulCommand v rd ra rb, hf⟩
  cases i with
  | malloc rd => cases h; exact State.constructIn_rule hraise fun _ _ _ => .inl rfl
  | mtrans rd ra =>
    cases h
    exact State.withSlot_rule hraise fun _ _ => State.constructIn_rule hraise fun _ _ _ => .inl rfl
  | meq ra rb =>
    cases h
    exact State.withSlot_rule hraise fun _ _ => State.withSlot_rule hraise fun _ _ => .inl rfl
  | mfree | mget | mset | mrand | mrdw | mwrw | mdim =>
    cases h
    exact State.withSlot_rule hraise fun _ _ => .inl rfl
  | muls rd ra rb => exact hmul .muls rd ra rb h
  | mulv rd ra rb => exact hmul .mulv rd ra rb h
  | mulvg rd ra rb => exact hmul .mulvg rd ra rb h
  | mult rd ra rb => exact hmul .mult rd ra rb h
  | mul4r rd ra rb => exact hmul .mul4r rd ra rb h

/-- An error raised with no device and no temporary held writes STATUS alone. -/
theorem State.raise_of_no_phase (hd : s.device = none) (ht : s.temp = none) (e : CmdError) :
    s.raise e = { s with busy := false, err := true, errCode := errorCode e } := by
  have hcode : errorCode e ≠ 0#8 := by cases e <;> decide
  simp [State.raise, State.complete, hcode, hd, ht]

/-- Settles O23: an error is raised before any change, and a failed dispatch redraws the words of RD alone. -/
theorem failuresArePrecise : Obligations.FailuresArePrecise := by
  intro i s t hd ht h hne
  have hend := commandEnd_of_exec h
  obtain hok | ⟨e, rfl⟩ | ⟨rd, hrd, hf⟩ := exec_endsPrecisely h
  · exact absurd hok hne
  · exact .inl (State.raise_of_no_phase hd ht e)
  · have hresult : t.result = s.result := by
      by_contra hr
      exact hne (hend.result hr).2
    refine .inr ⟨hf.errCode, hend.control, hresult, hf.errCode ▸ hend.completed,
      fun j => ⟨hend.slots j, ?_⟩⟩
    by_cases hj : rd = j
    · subst hj
      refine ⟨hf.invalid, fun x hx => ?_⟩
      obtain ⟨y, hy, hrows, hcols, hwpr, -⟩ := hf.drawn x hx
      exact ⟨y, hy, hrows, hcols, hwpr⟩
    · have hsame : t.slot j = s.slot j := hend.slots j (by simpa [hrd] using hj)
      exact ⟨fun hx => hsame.trans hx, fun x hx => ⟨x, hsame.trans hx, rfl, rfl, rfl⟩⟩

/-! ### DeviceFault (R209) -/

/-- Of all commands only a multiply has the code of DeviceFault in its rows. -/
theorem mulCommand_of_fault_code {i : Instr} (h : 3 ∈ errorCodes i) :
    ∃ v rd ra rb, i = mulCommand v rd ra rb := by
  cases i with
  | mulvg rd ra rb => exact ⟨.mulvg, rd, ra, rb, rfl⟩
  | mult rd ra rb => exact ⟨.mult, rd, ra, rb, rfl⟩
  | mul4r rd ra rb => exact ⟨.mul4r, rd, ra, rb, rfl⟩
  | _ => simp [errorCodes] at h

theorem eq_deviceFault_of_errorCode {e : CmdError} (h : errorCode e = 3) : e = .deviceFault := by
  cases e with
  | deviceFault => rfl
  | _ => cases h

/-- With DEVICE_FAULTS = 0 no command ends with DeviceFault. -/
theorem exec_errCode_ne_fault {i : Instr} (hno : s.config.deviceFaults = false)
    (h : exec i s = .next t) : t.errCode ≠ 3 := by
  intro h3
  have hcode : t.errCode = 0 ∨ t.errCode ∈ errorCodes i := errorCodesPerCommand i s t h
  rw [h3] at hcode
  obtain ⟨v, rd, ra, rb, rfl⟩ := mulCommand_of_fault_code (hcode.resolve_left (by decide))
  obtain hok | ⟨e, he, rfl⟩ | ⟨hf, -⟩ := exec_mulCommand_cases h
  · simp [hok] at h3
  · exact he (eq_deviceFault_of_errorCode h3)
  · simp [hno] at hf

/-- The environment's move fails a dispatch only when DEVICE_FAULTS = 1 and before it is complete. -/
theorem State.deviceFail_eq_self
    (h : s.config.deviceFaults = false ∨ ∃ d, s.device = some d ∧ d.finished = true) :
    s.deviceFail = s := by
  unfold State.deviceFail
  split
  · rfl
  · rename_i d hd
    obtain hf | ⟨e, he, hfin⟩ := h
    · simp [hf]
    · obtain rfl : d = e := by simpa [hd] using he
      simp [hfin]

theorem State.deviceFail_of_unfinished (hd : s.device = some d) (hfin : d.finished = false)
    (hf : s.config.deviceFaults = true) : s.deviceFail = s.failDevice d := by
  simp [State.deviceFail, hd, hfin, hf]

/-- Settles O42: the outcome of the dispatches of a multiply, and the environment's move. -/
theorem deviceFaultOutcome : Obligations.DeviceFaultOutcome := by
  refine ⟨fun v rd ra rb s a b h hv hf => ?multiply,
    fun s d rest hd hfin hf hs => ?move, fun _ _ _ => exec_errCode_ne_fault, fun s rest h hs => ?none⟩
  case multiply =>
    intro failed
    obtain ⟨k, hk⟩ := GpuKernel.exists_of_gpu hv
    obtain ⟨hfailed, hok, hn⟩ := hk.outcome s rd a b
    have horacle (n) : dispatchFails s.config n = Config.dispatchFails n := by
      rw [dispatchFails, hf, Bool.true_and]
    have hfails : s.failsMultiply v = failed := by
      rw [State.failsMultiply, horacle, horacle]
    rw [hfails] at hfailed hok
    rw [horacle] at hn
    have hcode : (s.product v rd a b).errCode = if failed = true then 3 else 0 := by
      split
      case isTrue h => exact (hfailed h).errCode
      case isFalse h => exact hok (by simpa using h)
    obtain ⟨hcompleted, hothers, hresult, hcontrol⟩ := (commandEnd_of_exec h.exec).frame
      (destSlot_mulCommand ..) (isQuery_mulCommand ..) hcode
    exact ⟨_, h.exec, hcompleted, hothers, hresult, hcontrol, hn,
      fun h => ⟨(hfailed h).draws, (hfailed h).invalid, (hfailed h).drawn⟩⟩
  case move =>
    have hstep : step s = .next (({ s with turns := rest } : State).failDevice d) :=
      (step_of_turns hs).trans (congrArg Host.Outcome.next
        (State.deviceFail_of_unfinished (s := { s with turns := rest }) hd hfin hf))
    obtain ⟨hcode, hdraws, hinvalid, hdrawn⟩ :=
      ({ s with turns := rest } : State).failDevice_failed d
    have hend : CommandEnd (mulCommand .mulvg d.dest 0 0) { s with turns := rest } _ :=
      .failDevice (d := d) rfl
    obtain ⟨hcompleted, hothers, hresult, hcontrol⟩ := hend.frame rfl rfl hcode
    exact ⟨_, hstep, hcompleted, hothers, hresult, hcontrol, hdraws, hinvalid, hdrawn⟩
  case none =>
    rw [step_of_turns hs]
    exact congrArg Host.Outcome.next (State.deviceFail_eq_self (s := { s with turns := rest }) h)

end Sys2Proof.Machine
end

section
/-! SUPPORT. Fetch-ors on one buffer (R89, R98): they commute, and each word collects its masks. -/

namespace Sys2Proof.Machine

/-- A fetch-or replaces one word of its buffer, if the buffer has it. -/
theorem Device.fetchOr_eq (d : Device) (x : Buf) (q : Nat) (mask : Word) :
    d.fetchOr x q mask = d.setBuf x ((d.buf x).modify q (· ||| mask)) := by
  rw [List.modify_eq_set]
  rfl

@[simp] theorem Device.setBuf_setBuf (d : Device) (x : Buf) (ws ws' : List Word) :
    (d.setBuf x ws).setBuf x ws' = d.setBuf x ws' := by cases x <;> rfl

theorem Device.fetchOr_comm (d : Device) (x : Buf) (q q' : Nat) (mask mask' : Word) :
    (d.fetchOr x q mask).fetchOr x q' mask' = (d.fetchOr x q' mask').fetchOr x q mask := by
  simp only [Device.fetchOr_eq, Device.buf_setBuf_self, Device.setBuf_setBuf]
  by_cases h : q = q'
  · subst h
    rw [List.modify_modify_eq, List.modify_modify_eq]
    refine congrArg (fun f => d.setBuf x ((d.buf x).modify q f)) (funext fun w => ?_)
    show w ||| mask ||| mask' = w ||| mask' ||| mask
    ac_rfl
  · rw [List.modify_modify_ne _ _ _ h]

/-- The fetch-ors of a list, first to last. -/
def Device.fetchOrs (d : Device) (x : Buf) (ops : List (Nat × Word)) : Device :=
  ops.foldl (fun e o => e.fetchOr x o.1 o.2) d

theorem Device.fetchOrs_cons (d : Device) (x : Buf) (o : Nat × Word) (ops : List (Nat × Word)) :
    d.fetchOrs x (o :: ops) = (d.fetchOr x o.1 o.2).fetchOrs x ops := rfl

/-- A word after a fetch-or. -/
theorem Device.word_fetchOr {d : Device} {x : Buf} {q : Nat} (hq : d.inRange x q = true) (p : Nat)
    (mask : Word) : (d.fetchOr x p mask).word x q =
      if p = q then d.word x q ||| mask else d.word x q := by
  rw [Device.fetchOr, Device.word_store]
  by_cases h : p = q
  · subst h; simp [hq]
  · simp [h, Ne.symm h]

theorem Device.fetchOrs_perm (d : Device) (x : Buf) {ops ops' : List (Nat × Word)}
    (h : ops.Perm ops') : d.fetchOrs x ops = d.fetchOrs x ops' :=
  h.foldl_eq' (fun o _ o' _ e => e.fetchOr_comm x o.1 o'.1 o.2 o'.2) d

/-- Word `q` after the fetch-ors is the old word ORed with the masks of those at `q`. -/
theorem Device.word_fetchOrs {d : Device} {x : Buf} {q : Nat} (hq : d.inRange x q = true)
    (ops : List (Nat × Word)) : (d.fetchOrs x ops).word x q =
      (ops.filter fun o => o.1 == q).foldl (fun w o => w ||| o.2) (d.word x q) := by
  induction ops generalizing d with
  | nil => rfl
  | cons o ops ih =>
    have hq' : (d.fetchOr x o.1 o.2).inRange x q = true := by
      simpa [Device.inRange, Device.fetchOr] using hq
    rw [Device.fetchOrs_cons, ih hq', Device.word_fetchOr hq, List.filter_cons]
    by_cases h : o.1 = q <;> simp [h]

/-- Settles O52, from the commutation of two fetch-ors and the word that each leaves. -/
theorem fetchOrsCommute : Obligations.FetchOrsCommute :=
  fun d x ops _ h => ⟨d.fetchOrs_perm x h, fun _ hq => Device.word_fetchOrs hq ops⟩

end Sys2Proof.Machine
end

section
/-! SUPPORT. The keys of a table of MUL4R (R284, R287): the count of a key's 1 bits, the next key with the same
count, and the lowest set bit. -/

namespace Sys2Proof.Machine

/-! ### Counting bits -/

/-- How many of the low `n` bits of `k` are 1. -/
def bitCount (n k : Nat) : Nat := (List.range n).countP fun b => k.testBit b

variable {n i k key : Nat}

@[simp] theorem bitCount_zero_left (k : Nat) : bitCount 0 k = 0 := rfl

theorem bitCount_succ (n k : Nat) :
    bitCount (n + 1) k = bitCount n k + if k.testBit n then 1 else 0 := by
  simp [bitCount, List.range_succ, List.countP_append, List.countP_singleton]

theorem bitCount_congr {k' : Nat} (h : ∀ b < n, k.testBit b = k'.testBit b) :
    bitCount n k = bitCount n k' :=
  List.countP_congr fun b hb => by rw [h b (List.mem_range.mp hb)]

theorem bitCount_le (n k : Nat) : bitCount n k ≤ n :=
  List.countP_le_length.trans_eq List.length_range

theorem pos_of_bitCount_pos (h : 0 < bitCount n k) : 0 < k := by
  obtain rfl | hk := Nat.eq_zero_or_pos k
  · simp [bitCount] at h
  · exact hk

/-- Bits past the size of a number add nothing. -/
theorem bitCount_add_of_lt (hk : k < 2 ^ n) (m : Nat) : bitCount (n + m) k = bitCount n k := by
  induction m with
  | zero => rfl
  | succ m ih =>
    have hbit : k.testBit (n + m) = false :=
      Nat.testBit_lt_two_pow (hk.trans_le (Nat.pow_le_pow_right (by decide) (Nat.le_add_right n m)))
    rw [← Nat.add_assoc, bitCount_succ, ih, hbit]
    rfl

/-- The popcount of a small number as a word (R16). -/
theorem popcount_ofNat (hk : k < 2 ^ 16) : popcount (BitVec.ofNat 64 k) = bitCount 16 k := by
  have hword : popcount (BitVec.ofNat 64 k) = bitCount 64 k :=
    List.countP_congr fun b hb => by
      rw [BitVec.getLsbD_ofNat, decide_eq_true (List.mem_range.mp hb), Bool.true_and]
  rw [hword, bitCount_add_of_lt hk 48]

theorem bitCount_two_mul (n k : Nat) : bitCount (n + 1) (2 * k) = bitCount n k := by
  induction n with
  | zero => simp [bitCount_succ]
  | succ n ih =>
    rw [bitCount_succ, ih, bitCount_succ, Nat.testBit_succ, Nat.mul_div_cancel_left k (by decide)]

/-- A number with `c` bits set is at least the one whose low `c` bits are set. -/
theorem two_pow_bitCount_le (n k : Nat) : 2 ^ bitCount n k ≤ k + 1 := by
  suffices 2 ^ bitCount n k ≤ k % 2 ^ n + 1 from
    this.trans (Nat.succ_le_succ (Nat.mod_le k _))
  induction n with
  | zero => simp [Nat.mod_one]
  | succ n ih =>
    rw [bitCount_succ, Nat.testBit_eq_decide_div_mod_eq, Nat.mod_pow_succ]
    obtain h | h := Nat.mod_two_eq_zero_or_one (k / 2 ^ n)
    · simpa [h] using ih
    · have hle : 2 ^ bitCount n k ≤ 2 ^ n := Nat.pow_le_pow_right (by decide) (bitCount_le n k)
      simp only [h, decide_true, if_true, Nat.pow_succ]
      omega

theorem bitCount_two_pow_sub_one (n p : Nat) : bitCount n (2 ^ p - 1) = min n p := by
  induction n with
  | zero => simp
  | succ n ih =>
    rw [bitCount_succ, ih, Nat.testBit_two_pow_sub_one]
    by_cases h : n < p <;> simp [h] <;> omega

/-- Clearing a set bit takes one from the count. -/
theorem bitCount_xor_two_pow (hi : i < n) (hk : k.testBit i = true) :
    bitCount n (k ^^^ 2 ^ i) + 1 = bitCount n k := by
  induction n with
  | zero => omega
  | succ n ih =>
    rw [bitCount_succ, bitCount_succ, Nat.testBit_xor, Nat.testBit_two_pow]
    by_cases h : i = n
    · subst h
      have hbelow : bitCount i (k ^^^ 2 ^ i) = bitCount i k :=
        bitCount_congr fun b hb => by simp [Nat.testBit_xor, Nat.testBit_two_pow_of_ne hb.ne']
      simp [hk, hbelow]
    · have hcount := ih (by omega)
      simp only [h, decide_false, Bool.xor_false]
      omega

/-! ### NextSamePopcount (R287) -/

theorem nextSamePopcount_eq (key : Nat) : nextSamePopcount key =
    (((List.range (key + 1)).map fun i => key + 1 + i).find? fun m =>
      bitCount 16 m == bitCount 16 key).getD 256 := rfl

/-- The search ends at 2 * key at the latest, with the first greater number of the same count. -/
theorem nextSamePopcount_spec (hpos : 0 < key) (hkey : key < 2 ^ 15) :
    key < nextSamePopcount key ∧ nextSamePopcount key ≤ 2 * key + 1 ∧
      bitCount 16 (nextSamePopcount key) = bitCount 16 key ∧
      ∀ m, key < m → m < nextSamePopcount key → bitCount 16 m ≠ bitCount 16 key := by
  rw [nextSamePopcount_eq, List.find?_map]
  have hdouble : bitCount 16 (2 * key) = bitCount 16 key :=
    (bitCount_two_mul 15 key).trans (bitCount_add_of_lt hkey 1).symm
  have hsome : ((List.range (key + 1)).find? ((fun m => bitCount 16 m == bitCount 16 key) ∘
      fun i => key + 1 + i)).isSome :=
    List.find?_isSome.mpr ⟨key - 1, List.mem_range.mpr (by omega), by
      simp [show key + 1 + (key - 1) = 2 * key by omega, hdouble]⟩
  obtain ⟨i, hi⟩ := Option.isSome_iff_exists.mp hsome
  obtain ⟨hcount, hrange, hfirst⟩ := List.find?_range_eq_some.mp hi
  rw [hi]
  show key < key + 1 + i ∧ key + 1 + i ≤ 2 * key + 1 ∧ bitCount 16 (key + 1 + i) = _ ∧
    ∀ m, key < m → m < key + 1 + i → _
  have hle := List.mem_range.mp hrange
  refine ⟨by omega, by omega, by simpa using hcount, fun m hm hlt => ?_⟩
  have hm' := hfirst (m - (key + 1)) (by omega)
  simpa [show key + 1 + (m - (key + 1)) = m by omega] using hm'

/-! ### The lowest set bit (R284) -/

/-- A word and its negation have exactly the lowest set bit in common. -/
theorem and_neg_eq_twoPow {w : Nat} {x : BitVec w} (hi : x.getLsbD i = true)
    (hlow : ∀ j < i, x.getLsbD j = false) : x &&& -x = BitVec.twoPow w i := by
  have hiw : i < w := BitVec.lt_of_getLsbD hi
  refine BitVec.eq_of_getLsbD_eq fun j hj => ?_
  rw [BitVec.getLsbD_and, BitVec.getLsbD_neg, BitVec.getLsbD_twoPow, decide_eq_true hj,
    decide_eq_true hiw, Bool.true_and, Bool.true_and]
  obtain h | rfl | h := Nat.lt_trichotomy i j
  · have hexists : ∃ l < j, x.getLsbD l = true := ⟨i, h, hi⟩
    rw [decide_eq_true hexists, decide_eq_false h.ne, Bool.xor_true, Bool.and_not_self]
  · have hnone : ¬∃ l < i, x.getLsbD l = true := fun ⟨l, hl, hx⟩ => by simp [hlow l hl] at hx
    simp [hi, hnone]
  · rw [hlow j h, decide_eq_false h.ne', Bool.false_and]

theorem lowestSetBit_spec (hpos : 0 < key) (hkey : key < 256) :
    ∃ i, i < 8 ∧ lowestSetBit key = 2 ^ i ∧ key.testBit i = true ∧
      ∀ j, j < i → key.testBit j = false := by
  have hexists := Nat.exists_testBit_of_ne_zero hpos.ne'
  obtain ⟨i, hbit, hmin⟩ : ∃ i, key.testBit i = true ∧ ∀ j < i, key.testBit j = false :=
    ⟨Nat.find hexists, Nat.find_spec hexists, fun j hj => by simpa using Nat.find_min hexists hj⟩
  have hi : i < 8 := (Nat.pow_lt_pow_iff_right (by decide)).mp
    ((Nat.ge_two_pow_of_testBit hbit).trans_lt (show key < 2 ^ 8 from hkey))
  have hword : BitVec.ofNat 8 key &&& -BitVec.ofNat 8 key = BitVec.twoPow 8 i :=
    and_neg_eq_twoPow (by rw [BitVec.getLsbD_ofNat, hbit, decide_eq_true hi]; rfl)
      fun j hj => by rw [BitVec.getLsbD_ofNat, hmin j hj, Bool.and_false]
  refine ⟨i, hi, ?_, hbit, hmin⟩
  have hlow : lowestSetBit key = (BitVec.ofNat 8 key &&& -BitVec.ofNat 8 key).toNat := by
    rw [BitVec.neg_eq_not_add]; rfl
  rw [hlow, hword, BitVec.toNat_twoPow]
  exact Nat.mod_eq_of_lt (Nat.pow_lt_pow_right (by decide) hi)

/-- Settles O55: the keys and their successors are small, so that popcount is the count of 16 bits. -/
theorem keyOrder : Obligations.KeyOrder := by
  intro key hpos hkey
  obtain ⟨hlt, hle, hcount, hfirst⟩ := nextSamePopcount_spec hpos (show key < 2 ^ 15 by omega)
  refine ⟨⟨hlt, ?_, fun m hm hm' => ?_⟩, lowestSetBit_spec hpos hkey⟩
  · rw [popcount_ofNat (by omega), popcount_ofNat (by omega), hcount]
  · rw [popcount_ofNat (by omega), popcount_ofNat (by omega)]
    exact hfirst m hm hm'

end Sys2Proof.Machine
end

section
/-! SUPPORT. A work-item that steps alone and writes shared words on its way (R88, R214): its path of devices and
positions is a run of the device. -/

namespace Sys2Proof.Machine

variable {g : Group} {it : WorkItem} {gi n : Nat}

/-- One step of a work-item that acts by `act`: an effect on the buffers, which leaves the group's tiles and
counter, and a move. -/
def SoloStep (act : Device → Pos → Action) (x y : Device × Pos) : Prop :=
  x.2.canStep = true ∧ ∃ e, act x.1 x.2 = .ok (e, y.2) ∧ y.1 = x.1.apply e ∧
    ∀ h : Group, h.apply e = h

/-- A path of steps of a work-item that acts by `act`. -/
abbrev SoloPath (act : Device → Pos → Action) : Device × Pos → Device × Pos → Prop :=
  Relation.ReflTransGen (SoloStep act)

/-- The device and the work-item move along the path, and no other group or work-item moves. -/
theorem SoloPath.run {act : Device → Pos → Action} {kern : Kernel} {x y : Device × Pos}
    (hpath : SoloPath act x y) (hk : x.1.kernel = kern) (hg : x.1.groups[gi]? = some g)
    (hit : g.items[n]? = some it)
    (hact : ∀ d p, d.kernel = kern → itemAction d g { it with pos := p } = act d p) :
    ∃ k, runItem (x.1.withPos gi n g it x.2) gi n k = .ok (y.1.withPos gi n g it y.2) ∧
      y.1.groups = x.1.groups := by
  induction hpath using Relation.ReflTransGen.head_induction_on with
  | refl => exact ⟨0, rfl, rfl⟩
  | @head x z hstep _ ih =>
    obtain ⟨d, p⟩ := x
    obtain ⟨d', q⟩ := z
    obtain ⟨hc, e, ha, rfl, he⟩ := hstep
    have hgroups := d.groups_apply e
    obtain ⟨k, hrun, hgroups'⟩ := ih ((d.kernel_apply e).trans hk) (hgroups ▸ hg)
    refine ⟨k + 1, ?_, hgroups'.trans hgroups⟩
    rw [runItem_succ (Device.stepItem_withPos hg hit hc ((hact d p hk).trans ha) he)]
    exact hrun

/-- A path to the end of a work-item's kernel is a run of it from its position to its end. -/
theorem SoloPath.run_to_end {act : Device → Pos → Action} {kern : Kernel} {d d' : Device} {p : Pos}
    (hpath : SoloPath act (d, p) (d', .done)) (hpos : it.pos = p) (hk : d.kernel = kern)
    (hg : d.groups[gi]? = some g) (hit : g.items[n]? = some it)
    (hact : ∀ d p, d.kernel = kern → itemAction d g { it with pos := p } = act d p) :
    ∃ k g', runItem d gi n k = .ok (d'.withPos gi n g it .done) ∧
      (d'.withPos gi n g it .done).groups[gi]? = some g' ∧
      g'.items[n]? = some { it with pos := .done } := by
  subst hpos
  obtain ⟨k, hrun, hgroups⟩ := hpath.run hk hg hit hact
  rw [Device.withPos_self hg hit] at hrun
  have hgroups : d'.groups = d.groups := hgroups
  exact ⟨k, _, hrun, Device.groups_withGroup_self (hgroups ▸ hg) _, Group.items_withItem_self hit _⟩

end Sys2Proof.Machine
end

section
/-! SUPPORT. A work-item of phase 1 of MUL4R from P0 to its end (R284): key 0, the single-bit keys, and then the
keys of each popcount in increasing order, every one of them from entries already there (R285 to R288). -/

namespace Sys2Proof.Machine

variable {d₀ d : Device} {t w i key p : Nat} {S S' : Nat → Prop} {pos next : Pos}

/-! ### The device while the table is built -/

/-- The buffers have the sizes of the descriptor and (w, t) is in the problem (R284). -/
structure BuildProblem (d₀ : Device) (t w : Nat) : Prop where
  length_b : d₀.bufB.length = d₀.desc.aCols * d₀.desc.bWpr
  length_t : d₀.bufT.length = 8 * d₀.desc.aWpr * 256 * d₀.desc.bWpr
  table_lt : t < 8 * d₀.desc.aWpr
  col_lt : w < d₀.desc.bWpr

/-- Of the words of `d₀` the device `d` has changed at most those of table `t` in word column `w`, and the
entries of the keys in `S` are R288's. -/
structure TableFilled (d₀ d : Device) (t w : Nat) (S : Nat → Prop) : Prop where
  desc : d.desc = d₀.desc
  bufB : d.bufB = d₀.bufB
  bufC : d.bufC = d₀.bufC
  length : d.bufT.length = d₀.bufT.length
  entries : ∀ key, key < 256 → S key →
    d.word .t (tableIndex d₀.desc t key w) = tableEntry d₀ t key w
  others : ∀ q, (∀ key, key < 256 → q ≠ tableIndex d₀.desc t key w) → d.word .t q = d₀.word .t q

namespace TableFilled

theorem refl (d₀ : Device) (t w : Nat) : TableFilled d₀ d₀ t w fun _ => False :=
  ⟨rfl, rfl, rfl, rfl, fun _ _ h => h.elim, fun _ _ => rfl⟩

theorem mono (h : TableFilled d₀ d t w S) (hS : ∀ k < 256, S' k → S k) :
    TableFilled d₀ d t w S' :=
  { h with entries := fun k hk hs => h.entries k hk (hS k hk hs) }

theorem inRange_entry (h : TableFilled d₀ d t w S) (hprob : BuildProblem d₀ t w)
    (hkey : key < 256) : d.inRange .t (tableIndex d₀.desc t key w) = true :=
  decide_eq_true (show _ < d.bufT.length by
    rw [h.length, hprob.length_t]; exact tableIndex_lt hprob.table_lt hkey hprob.col_lt)

/-- The store of one more entry of the table. -/
theorem store (h : TableFilled d₀ d t w S) (hprob : BuildProblem d₀ t w) (hkey : key < 256) :
    TableFilled d₀ (d.store .t (tableIndex d₀.desc t key w) (tableEntry d₀ t key w)) t w
      fun k => S k ∨ k = key where
  desc := h.desc
  bufB := h.bufB
  bufC := h.bufC
  length := (d.length_store .t .t _ _).trans h.length
  entries k hk hs := by
    rw [Device.word_store]
    by_cases hkk : k = key
    · subst hkk
      rw [if_pos ⟨rfl, h.inRange_entry hprob hkey⟩]
    · have hne : tableIndex d₀.desc t k w ≠ tableIndex d₀.desc t key w := fun he => by
        have hrow := (word_index_inj hprob.col_lt hprob.col_lt he).1
        omega
      rw [if_neg fun e => hne e.1]
      exact h.entries k hk (hs.resolve_right hkk)
  others q hq := by
    rw [Device.word_store, if_neg fun e => hq key hkey e.1]
    exact h.others q hq

/-- An access to an entry of the table is in range. -/
theorem writing_entry (h : TableFilled d₀ d t w S) (hprob : BuildProblem d₀ t w) (hkey : key < 256)
    (e : Effect) : writing d .t (tableIndex d₀.desc t key w) e next = .ok (e, next) :=
  if_pos (h.inRange_entry hprob hkey)

theorem reading_entry (h : TableFilled d₀ d t w S) (hprob : BuildProblem d₀ t w) (hkey : key < 256)
    (hs : S key) (f : Word → Action) :
    reading d .t (tableIndex d₀.desc t key w) f = f (tableEntry d₀ t key w) := by
  rw [reading, if_pos (h.inRange_entry hprob hkey), h.entries key hkey hs]

/-- So is a read of a row of B. -/
theorem reading_row (h : TableFilled d₀ d t w S) (hprob : BuildProblem d₀ t w) {r : Nat}
    (hr : r < d₀.desc.aCols) (f : Word → Action) :
    reading d .b (r * d₀.desc.bWpr + w) f = f (d₀.word .b (r * d₀.desc.bWpr + w)) := by
  have hq : d.inRange .b (r * d₀.desc.bWpr + w) = true :=
    decide_eq_true (show _ < d.bufB.length by
      rw [h.bufB, hprob.length_b]; exact word_lt hr hprob.col_lt)
  rw [reading, if_pos hq]
  exact congrArg f (congrArg (List.getD · _ 0) h.bufB)

end TableFilled

/-! ### Reaching a position -/

/-- From P0 the work-item of (w, t) reaches `pos` with the entries of the keys in `S` stored. -/
def BuildReached (d₀ : Device) (t w : Nat) (pos : Pos) (S : Nat → Prop) : Prop :=
  ∃ d, SoloPath (fun d => buildAction d w t) (d₀, .p0) (d, pos) ∧ TableFilled d₀ d t w S

namespace BuildReached

theorem start (d₀ : Device) (t w : Nat) : BuildReached d₀ t w .p0 fun _ => False :=
  ⟨d₀, .refl, .refl d₀ t w⟩

theorem mono (h : BuildReached d₀ t w pos S) (hS : ∀ k < 256, S' k → S k) :
    BuildReached d₀ t w pos S' := by
  obtain ⟨d, hpath, hd⟩ := h
  exact ⟨d, hpath, hd.mono hS⟩

theorem quiet (h : BuildReached d₀ t w pos S) (hc : pos.canStep = true)
    (ha : ∀ d, TableFilled d₀ d t w S → buildAction d w t pos = .ok (.quiet, next)) :
    BuildReached d₀ t w next S := by
  obtain ⟨d, hpath, hd⟩ := h
  exact ⟨d, hpath.tail ⟨hc, .quiet, ha d hd, rfl, fun _ => rfl⟩, hd⟩

theorem store (h : BuildReached d₀ t w pos S) (hprob : BuildProblem d₀ t w) (hkey : key < 256)
    (hc : pos.canStep = true)
    (ha : ∀ d, TableFilled d₀ d t w S → buildAction d w t pos =
      .ok (.store .t (tableIndex d₀.desc t key w) (tableEntry d₀ t key w), next)) :
    BuildReached d₀ t w next fun k => S k ∨ k = key := by
  obtain ⟨d, hpath, hd⟩ := h
  exact ⟨_, hpath.tail ⟨hc, _, ha d hd, rfl, fun _ => rfl⟩, hd.store hprob hkey⟩

end BuildReached

/-! ### Key 0 and the single-bit keys (R285) -/

/-- The keys whose entries are stored when P2 comes to its bit `i`. -/
def SingleBitBelow (i k : Nat) : Prop := k = 0 ∨ ∃ j, j < i ∧ k = 2 ^ j

theorem BuildProblem.reached_p2_zero (hprob : BuildProblem d₀ t w) :
    BuildReached d₀ t w (.p2 0) (SingleBitBelow 0) := by
  have henter : BuildReached d₀ t w .p1 fun _ => False :=
    (BuildReached.start d₀ t w).quiet rfl fun d hd => if_neg (by
      have ht := hprob.table_lt
      have hw := hprob.col_lt
      rw [hd.desc]
      omega)
  have hzero : BuildReached d₀ t w (.p2 0) fun k => False ∨ k = 0 :=
    henter.store hprob (by decide) rfl fun d hd => by
      rw [tableEntry_zero, buildAction, hd.desc]
      exact hd.writing_entry hprob (by decide) _
  exact hzero.mono fun k _ hk => .inr (hk.resolve_right fun ⟨j, hj, _⟩ => absurd hj (Nat.not_lt_zero j))

/-- P2 stores the row of B that a single-bit key selects, or 0 past the last row. -/
theorem TableFilled.buildAction_p2 (h : TableFilled d₀ d t w S) (hprob : BuildProblem d₀ t w)
    (hi : i < 8) : buildAction d w t (.p2 i) =
      .ok (.store .t (tableIndex d₀.desc t (2 ^ i) w) (tableEntry d₀ t (2 ^ i) w), .p2 (i + 1)) := by
  have hkey : 2 ^ i < 2 ^ 8 := Nat.pow_lt_pow_right (by decide) hi
  rw [buildAction, if_pos hi, h.desc, tableEntry_two_pow d₀ t w hi]
  by_cases hrow : 8 * t + i < d₀.desc.aCols
  · simp only [if_pos hrow]
    rw [h.reading_row hprob hrow]
    exact h.writing_entry hprob hkey _
  · simp only [if_neg hrow]
    exact h.writing_entry hprob hkey _

theorem BuildProblem.reached_p2 (hprob : BuildProblem d₀ t w) (hi : i ≤ 8) :
    BuildReached d₀ t w (.p2 i) (SingleBitBelow i) := by
  induction i with
  | zero => exact hprob.reached_p2_zero
  | succ i ih =>
    have hstored := (ih (by omega)).store hprob (Nat.pow_lt_pow_right (by decide) hi) rfl
      fun d hd => hd.buildAction_p2 hprob hi
    refine hstored.mono fun k _ hk => ?_
    obtain rfl | ⟨j, hj, rfl⟩ := hk
    · exact .inl (.inl rfl)
    · obtain hlt | rfl := Nat.lt_succ_iff_lt_or_eq.mp hj
      · exact .inl (.inr ⟨j, hlt, rfl⟩)
      · exact .inr rfl

/-! ### The multi-bit keys (R286, R287) -/

/-- The keys whose entries are stored when P3 comes to `key` of popcount `p`. -/
def VisitedBefore (p key k : Nat) : Prop :=
  bitCount 16 k < p ∨ (bitCount 16 k = p ∧ k < key)

/-- The entry of a key below 256 comes from a single-bit key and a key with one bit fewer. -/
theorem exists_lowestSetBit (hpos : 0 < key) (hkey : key < 256) :
    (∃ i, i < 8 ∧ lowestSetBit key = 2 ^ i) ∧ key ^^^ lowestSetBit key < 256 ∧
      bitCount 16 (key ^^^ lowestSetBit key) + 1 = bitCount 16 key := by
  obtain ⟨i, hi, hlow, hbit, -⟩ := lowestSetBit_spec hpos hkey
  refine ⟨⟨i, hi, hlow⟩, Nat.xor_lt_two_pow (n := 8) hkey (lowestSetBit_lt key), ?_⟩
  rw [hlow]
  exact bitCount_xor_two_pow (by omega) hbit

theorem bitCount_two_pow (hi : i < 16) : bitCount 16 (2 ^ i) = 1 := by
  have h := bitCount_xor_two_pow (k := 2 ^ i) hi (by simp)
  rw [Nat.xor_self] at h
  exact h.symm

/-- A key of popcount at most 1 is 0 or has a single bit. -/
theorem singleBitBelow_of_bitCount_lt_two {k : Nat} (hk : k < 256) (h : bitCount 16 k < 2) :
    SingleBitBelow 8 k := by
  obtain rfl | hpos := Nat.eq_zero_or_pos k
  · exact .inl rfl
  obtain ⟨⟨i, hi, hlow⟩, hrest, hcount⟩ := exists_lowestSetBit hpos hk
  have hzero : k ^^^ lowestSetBit k = 0 := by
    by_contra hne
    obtain ⟨-, -, hcount'⟩ := exists_lowestSetBit (Nat.pos_of_ne_zero hne) hrest
    omega
  exact .inr ⟨i, hi, (Nat.xor_eq_zero_iff.mp hzero).trans hlow⟩

/-- No key below 2^p - 1 has popcount p, where P3 begins with popcount p. -/
theorem bitCount_ne_of_lt {k : Nat} (hk : k < 2 ^ p - 1) : bitCount 16 k ≠ p := by
  rintro rfl
  have := two_pow_bitCount_le 16 k
  omega

theorem BuildProblem.reached_p3_two (hprob : BuildProblem d₀ t w) :
    BuildReached d₀ t w (.p3 2 3) (VisitedBefore 2 3) := by
  have henter : BuildReached d₀ t w (.p3 2 3) (SingleBitBelow 8) :=
    (hprob.reached_p2 le_rfl).quiet rfl fun _ _ => rfl
  refine henter.mono fun k hk hv => ?_
  obtain h | ⟨h, hlt⟩ := hv
  · exact singleBitBelow_of_bitCount_lt_two hk h
  · exact absurd h (bitCount_ne_of_lt (p := 2) hlt)

/-- P3 stores the XOR of two entries that are there, and goes on with the next key. -/
theorem TableFilled.buildAction_p3 (h : TableFilled d₀ d t w (VisitedBefore p key))
    (hprob : BuildProblem d₀ t w) (hp : 2 ≤ p) (hp8 : p ≤ 8) (hkey : key < 256)
    (hcount : bitCount 16 key = p) : buildAction d w t (.p3 p key) =
      .ok (.store .t (tableIndex d₀.desc t key w) (tableEntry d₀ t key w),
        .p3 p (nextSamePopcount key)) := by
  have hpos : 0 < key := pos_of_bitCount_pos (n := 16) (by omega)
  obtain ⟨⟨i, hi, hlow⟩, hrest, hfewer⟩ := exists_lowestSetBit hpos hkey
  have hsingle : bitCount 16 (lowestSetBit key) = 1 := hlow ▸ bitCount_two_pow (by omega)
  have hentry : tableEntry d₀ t (lowestSetBit key) w ^^^
      tableEntry d₀ t (key ^^^ lowestSetBit key) w = tableEntry d₀ t key w := by
    rw [← tableEntry_xor, Nat.xor_comm key, Nat.xor_xor_cancel_left]
  rw [buildAction, if_pos hp8, if_pos hkey, h.desc]
  dsimp only
  rw [h.reading_entry hprob (lowestSetBit_lt key) (.inl (by omega)),
    h.reading_entry hprob hrest (.inl (by omega)), hentry]
  exact h.writing_entry hprob hkey _

/-- The loop over the keys of popcount `p` runs from any of them to the end, and on to the next popcount. -/
theorem BuildProblem.reached_p3_next {key : Nat} (hprob : BuildProblem d₀ t w) (hp : 2 ≤ p) (hp8 : p ≤ 8)
    (h : BuildReached d₀ t w (.p3 p key) (VisitedBefore p key))
    (hcount : key < 256 → bitCount 16 key = p) :
    BuildReached d₀ t w (.p3 (p + 1) (2 ^ (p + 1) - 1)) (VisitedBefore (p + 1) (2 ^ (p + 1) - 1)) := by
  by_cases hkey : key < 256
  · have hpos : 0 < key := pos_of_bitCount_pos (n := 16) (by rw [hcount hkey]; omega)
    obtain ⟨hlt, -, hsame, hfirst⟩ := nextSamePopcount_spec hpos (show key < 2 ^ 15 by omega)
    have hstored := h.store hprob hkey rfl
      fun d hd => hd.buildAction_p3 hprob hp hp8 hkey (hcount hkey)
    refine hprob.reached_p3_next hp hp8 (hstored.mono fun k _ hk => ?_)
      fun _ => hsame.trans (hcount hkey)
    obtain hfewer | ⟨hk, hknext⟩ := hk
    · exact .inl (.inl hfewer)
    · obtain hlt | rfl | hgt := Nat.lt_trichotomy k key
      · exact .inl (.inr ⟨hk, hlt⟩)
      · exact .inr rfl
      · exact absurd (hk.trans (hcount hkey).symm) (hfirst k hgt hknext)
  · have hnext : BuildReached d₀ t w (.p3 (p + 1) (2 ^ (p + 1) - 1)) (VisitedBefore p key) :=
      h.quiet rfl fun d _ => by rw [buildAction, if_pos hp8, if_neg hkey]
    refine hnext.mono fun k hk hv => ?_
    obtain hle | ⟨hk', hlt⟩ := hv
    · obtain hfewer | hk' := Nat.lt_succ_iff_lt_or_eq.mp hle
      · exact .inl hfewer
      · exact .inr ⟨hk', by omega⟩
    · exact absurd hk' (bitCount_ne_of_lt hlt)
termination_by 256 - key

theorem BuildProblem.reached_p3 (hprob : BuildProblem d₀ t w) (hp : 2 ≤ p) (hp9 : p ≤ 9) :
    BuildReached d₀ t w (.p3 p (2 ^ p - 1)) (VisitedBefore p (2 ^ p - 1)) := by
  induction p, hp using Nat.le_induction with
  | base => exact hprob.reached_p3_two
  | succ p hp ih =>
    refine hprob.reached_p3_next hp (by omega) (ih (by omega)) fun _ => ?_
    rw [bitCount_two_pow_sub_one]
    omega

/-- The work-item finishes with the entry of every key stored (R288). -/
theorem BuildProblem.reached_done (hprob : BuildProblem d₀ t w) :
    BuildReached d₀ t w .done fun _ => True := by
  have hend : BuildReached d₀ t w .done (VisitedBefore 9 (2 ^ 9 - 1)) :=
    (hprob.reached_p3 (by decide) le_rfl).quiet rfl fun _ _ => rfl
  refine hend.mono fun k hk _ => .inl ?_
  have hle : 2 ^ bitCount 16 k < 2 ^ 9 := by
    have := two_pow_bitCount_le 16 k
    omega
  exact (Nat.pow_lt_pow_iff_right (by decide)).mp hle

/-- Settles O54: the path over all keys, or the exit at P0. -/
theorem buildWorkItemFillsItsTable : Obligations.BuildWorkItemFillsItsTable := by
  intro d gi n g it hk hg hit hpos hB hT w t
  have hact : ∀ e p, e.kernel = .m4rBuild →
      itemAction e g { it with pos := p } = buildAction e w t p := fun e p he => by
    simp only [itemAction, he]; rfl
  by_cases hin : w < d.desc.bWpr ∧ t < 8 * d.desc.aWpr
  · obtain ⟨hw, ht⟩ := hin
    obtain ⟨d', hpath, hd⟩ := BuildProblem.reached_done ⟨hB, hT, ht, hw⟩
    obtain ⟨k, g', hrun, hg', hit'⟩ := hpath.run_to_end hpos hk hg hit hact
    refine ⟨k, _, g', hrun, hg', hit', hd.bufC, ?_⟩
    rw [if_pos ⟨hw, ht⟩]
    exact ⟨hd.length, fun key hkey => hd.entries key hkey trivial, hd.others⟩
  · have hout : d.desc.bWpr ≤ w ∨ 8 * d.desc.aWpr ≤ t := by omega
    have hexit : SoloStep (fun e => buildAction e w t) (d, .p0) (d, .done) :=
      ⟨rfl, .quiet, if_pos hout, rfl, fun _ => rfl⟩
    obtain ⟨k, g', hrun, hg', hit'⟩ :=
      SoloPath.run_to_end (.single hexit) hpos hk hg hit hact
    refine ⟨k, _, g', hrun, hg', hit', rfl, ?_⟩
    rw [if_neg hin]
    rfl

end Sys2Proof.Machine
end
